-- ==== Sys2Proof/Word.lean ====
section
/-! DEFINITION. The words of the rs-gf256 engine and the value types of spec/00_scope.md R10: all are eight bits on the wire, and the
type says how the byte is read (D12). -/

namespace Sys2Proof

/-- A raw byte, bit 0 least significant (R8). -/
abbrev Byte := BitVec 8

/-- A command word `CMD`, bit 19 the top bit of `OP` (R45). -/
abbrev CommandWord := BitVec 20

/-- A response word `RSP`, bits 9:8 the status (R48). -/
abbrev ResponseWord := BitVec 10

/-- A field element, the spec's `Elem`: one byte, bit `i` the coefficient of `x^i`; equal iff the bytes are (R14). -/
structure Elem where
  byte : Byte
  deriving DecidableEq, Repr

/-- An exponent operand, the spec's `Pow`: 0..255 (R10). -/
structure Power where
  byte : Byte
  deriving DecidableEq, Repr

/-- A discrete logarithm, the spec's `Log`: an integer in 0..254 (R10, R16). -/
structure Logarithm where
  exponent : Fin 255
  deriving DecidableEq, Repr

end Sys2Proof
end

