-- ==== Sys2Proof/Syntax.lean ====
section
/-! DEFINITION. The commands of the engine: one constructor per row of spec/opcode_table.json (R47), with the operands of R46 at their types.
A field the operation does not use is not part of the command (R46, R52). -/

namespace Sys2Proof

inductive Instr where
  /-- `ZERO` (R71). -/
  | zero
  /-- `ONE` (R72). -/
  | one
  /-- `FROM_BYTE b` (R73). -/
  | fromByte (b : Byte)
  /-- `TO_BYTE x` (R74). -/
  | toByte (x : Elem)
  /-- `ADD a, b` (R75). -/
  | add (a b : Elem)
  /-- `SUB a, b` (R76). -/
  | sub (a b : Elem)
  /-- `LOG a` (R77). -/
  | log (a : Elem)
  /-- `XEXP power` (R78). -/
  | xexp (power : Power)
  /-- `EXP a, power` (R79). -/
  | exp (a : Elem) (power : Power)
  /-- `MUL a, b` (R80). -/
  | mul (a b : Elem)
  /-- `DIV a, b`, `b` the divisor (R81). -/
  | div (a b : Elem)
  /-- `INV a` (R82). -/
  | inv (a : Elem)
  /-- A reserved command: its `OP`, which a well-formed term keeps in 0xC..0xF (R51). -/
  | reserved (op : BitVec 4)
  deriving DecidableEq, Repr

end Sys2Proof
end

