-- ==== Sys2Proof/WellFormed.lean ====
section
/-! DEFINITION. The one check a command needs: every byte of a used field is legal (R46), and a reserved command's `OP` is one of 0xC..0xF (R51). -/

namespace Sys2Proof

/-- A command some command word stands for. -/
def Instr.wellFormed : Instr → Bool
  | .zero => true
  | .one => true
  | .fromByte _ => true
  | .toByte _ => true
  | .add _ _ => true
  | .sub _ _ => true
  | .log _ => true
  | .xexp _ => true
  | .exp _ _ => true
  | .mul _ _ => true
  | .div _ _ => true
  | .inv _ => true
  | .reserved op => decide (12 ≤ op.toNat)

end Sys2Proof
end

