-- ==== Sys2Proof/Decode.lean ====
section
/-! DEFINITION. Decoder and encoder of command words (spec/30_encoding.md R45 to R54), and the opcode map of R47 as data. -/

namespace Sys2Proof

/-- `CMD[19:16]` (R45). -/
def opField (w : CommandWord) : BitVec 4 := w.extractLsb' 16 4

/-- `CMD[15:8]`, operand `A` (R45). -/
def fieldA (w : CommandWord) : Byte := w.extractLsb' 8 8

/-- `CMD[7:0]`, operand `B` (R45). -/
def fieldB (w : CommandWord) : Byte := w.extractLsb' 0 8

/-- `CMD = {OP, A, B}` (R45). -/
def commandWord (op : BitVec 4) (a b : Byte) : CommandWord := op ++ (a ++ b)

/-- The decoder: every 20-bit word is one command, read from its fields alone (R47, R54). -/
def decodeCommand (w : CommandWord) : Instr :=
  match (opField w).toNat with
  | 0 => .zero
  | 1 => .one
  | 2 => .fromByte (fieldA w)
  | 3 => .toByte ⟨fieldA w⟩
  | 4 => .add ⟨fieldA w⟩ ⟨fieldB w⟩
  | 5 => .sub ⟨fieldA w⟩ ⟨fieldB w⟩
  | 6 => .log ⟨fieldA w⟩
  | 7 => .xexp ⟨fieldA w⟩
  | 8 => .exp ⟨fieldA w⟩ ⟨fieldB w⟩
  | 9 => .mul ⟨fieldA w⟩ ⟨fieldB w⟩
  | 10 => .div ⟨fieldA w⟩ ⟨fieldB w⟩
  | 11 => .inv ⟨fieldA w⟩
  | _ => .reserved (opField w)

/-- The encoder, from the encoding strings of R47: an unused field is written as 0 (D8). -/
def encode : Instr → CommandWord
  | .zero => commandWord 0x0 0 0
  | .one => commandWord 0x1 0 0
  | .fromByte b => commandWord 0x2 b 0
  | .toByte x => commandWord 0x3 x.byte 0
  | .add a b => commandWord 0x4 a.byte b.byte
  | .sub a b => commandWord 0x5 a.byte b.byte
  | .log a => commandWord 0x6 a.byte 0
  | .xexp p => commandWord 0x7 p.byte 0
  | .exp a p => commandWord 0x8 a.byte p.byte
  | .mul a b => commandWord 0x9 a.byte b.byte
  | .div a b => commandWord 0xA a.byte b.byte
  | .inv a => commandWord 0xB a.byte 0
  | .reserved op => commandWord op 0 0

/-- Why a number is no command. -/
inductive DecodeError where
  /-- It has a bit above bit 19, and a command is 20 bits (R45, R53). Safe: no port can present it. -/
  | widerThanACommand
  deriving DecidableEq, Repr

/-- The decoder on any number of bits: those that are 20-bit words decode, the rest are rejected by name. -/
def decode (bits : Nat) : Except DecodeError Instr :=
  if bits < 2 ^ 20 then .ok (decodeCommand (BitVec.ofNat 20 bits)) else .error .widerThanACommand

/-- What the decoder reads from an instruction of `nbits` bits with value `w`, numbered as spec/opcode_table.json numbers them: a command is
one word, bit 0 its least significant (R45), and bits from `nbits` up are 0. -/
def decodeTableWord (nbits w : Nat) : Option Instr :=
  match decode (w % 2 ^ nbits) with
  | .ok i => some i
  | .error _ => none

/-- A row of the opcode map: a word `w` selects it when `w &&& mask = value` (R47). -/
structure OpcodeRow where
  mnemonic : String
  value : CommandWord
  mask : CommandWord
  deriving DecidableEq, Repr

/-- The thirteen rows of R47, in its order. -/
def opcodeMap : List OpcodeRow :=
  [⟨"ZERO", 0x00000, 0xF0000⟩, ⟨"ONE", 0x10000, 0xF0000⟩, ⟨"FROM_BYTE", 0x20000, 0xF0000⟩,
   ⟨"TO_BYTE", 0x30000, 0xF0000⟩, ⟨"ADD", 0x40000, 0xF0000⟩, ⟨"SUB", 0x50000, 0xF0000⟩,
   ⟨"LOG", 0x60000, 0xF0000⟩, ⟨"XEXP", 0x70000, 0xF0000⟩, ⟨"EXP", 0x80000, 0xF0000⟩,
   ⟨"MUL", 0x90000, 0xF0000⟩, ⟨"DIV", 0xA0000, 0xF0000⟩, ⟨"INV", 0xB0000, 0xF0000⟩,
   ⟨"RESERVED", 0xC0000, 0xC0000⟩]

/-- `w` selects row `r` (R47). -/
def OpcodeRow.selects (r : OpcodeRow) (w : CommandWord) : Bool := w &&& r.mask == r.value

/-- The mnemonic of a command (R47). -/
def mnemonicOf : Instr → String
  | .zero => "ZERO"
  | .one => "ONE"
  | .fromByte _ => "FROM_BYTE"
  | .toByte _ => "TO_BYTE"
  | .add _ _ => "ADD"
  | .sub _ _ => "SUB"
  | .log _ => "LOG"
  | .xexp _ => "XEXP"
  | .exp _ _ => "EXP"
  | .mul _ _ => "MUL"
  | .div _ _ => "DIV"
  | .inv _ => "INV"
  | .reserved _ => "RESERVED"

end Sys2Proof
end

