-- ==== Sys2Proof/Config.lean ====
section
/-! DEFINITION. The parameters of the engine (spec/00_scope.md R6, R7): what is fixed when the hardware is built. A configuration is plain
data and rides in the state unchanged (notes/assumptions/1.md), so a statement about every state is a statement about
every configuration. -/

namespace Sys2Proof

/-- `TABLE_INIT` (R6): how the tables come to exist. -/
inductive TableInit where
  /-- Built on first use: the default (R6, D4). -/
  | lazy
  /-- Present from reset (R67). -/
  | constant
  deriving DecidableEq, Repr

/-- How finely construction is shown. The spec admits both forms (R26, D18); DESIGN CHOICE to hold the choice here (notes/assumptions/6.md). -/
inductive Grain where
  /-- `Build()` is one transition. -/
  | atomic
  /-- `Build()` takes many turns of the builder, with `BUILDING = 1`, and holds the table commands of the other ports meanwhile. -/
  | stepwise
  deriving DecidableEq, Repr

/-- The parameters of R6, each a field, and the grain of D18. -/
structure Config where
  /-- `W`: the width of an element, an entry and an index. Its one legal value is the width of `Byte`. -/
  width : Nat
  /-- `NENTRIES`: the entries of each table. -/
  nEntries : Nat
  /-- `GROUP_ORDER`: the modulus of exponent arithmetic. -/
  groupOrder : Nat
  /-- `GEN`: the generator, which is the polynomial `x` (R60). -/
  gen : Byte
  /-- `RC`: the reduction constant. -/
  rc : Byte
  /-- `TABLE_INIT`. -/
  tableInit : TableInit
  /-- `NPORTS`. -/
  nports : Nat
  grain : Grain
  deriving DecidableEq, Repr

/-- The sixteen legal values of `RC` (R7): those under which `x` has order 255. -/
def Config.legalRcs : List Byte :=
  [0x1D, 0x2B, 0x2D, 0x4D, 0x5F, 0x63, 0x65, 0x69, 0x71, 0x87, 0x8D, 0xA9, 0xC3, 0xCF, 0xE7, 0xF5]

/-- The four parameters with one legal value have it (R6: "fixed"). -/
def Config.fixedLegal (c : Config) : Bool :=
  decide (c.width = 8) && decide (c.nEntries = 256) && decide (c.groupOrder = 255) && decide (c.gen = 0x02)

/-- A configuration for which a machine exists: every parameter has a legal value (R6), `RC` among them (R7, D3). -/
def Config.legal (c : Config) : Bool :=
  c.fixedLegal && Config.legalRcs.contains c.rc && decide (1 ≤ c.nports)

/-- The spec's defaults (R6); `nports` and `grain`, which the spec leaves open, are DESIGN CHOICE (notes/assumptions/2.md, 6.md). -/
def Config.default : Config where
  width := 8
  nEntries := 256
  groupOrder := 255
  gen := 0x02
  rc := 0x1D
  tableInit := .lazy
  nports := 1
  grain := .atomic

end Sys2Proof
end

