-- ==== Sys2Proof/Machine/Operands.lean ====
section
/-! DEFINITION. Operand arithmetic: the identities and the XOR of elements (R14, R75), the zero test (R35), the multiply-by-x step (R59), and the table
indices, each computed on unbounded integers and reduced as the spec writes it (R29, R83, R84). -/

namespace Sys2Proof.Machine

/-- `zero()` (R14). -/
def elemZero : Elem := ⟨0x00⟩

/-- `one()` (R14). -/
def elemOne : Elem := ⟨0x01⟩

/-- The test every table operation makes before it reads `LOG_T` (R35). -/
def isZero (a : Elem) : Bool := a.byte == 0x00

/-- The XOR adder (R75, R76). -/
def elemXor (a b : Elem) : Elem := ⟨a.byte ^^^ b.byte⟩

/-- `xtime(v)`: multiply by `x` and reduce by `RC` (R59). -/
def xtime (rc v : Byte) : Byte :=
  if v.getLsbD 7 then (v <<< 1) ^^^ rc else v <<< 1

/-- The integer a byte of `LOG_T` stands for: entries are in 0..254 (R10, R16). -/
def logOf (v : Byte) : Option Logarithm := if h : v.toNat < 255 then some ⟨⟨v.toNat, h⟩⟩ else none

/-- The byte a logarithm is carried in. -/
def logByte (l : Logarithm) : Byte := BitVec.ofNat 8 l.exponent.val

/-- The exponent `EXP` raises the generator to, before reduction (R79): `log[A] * B`. -/
def expSum (la : Logarithm) (power : Power) : Nat := la.exponent.val * power.byte.toNat

/-- That of `MUL` (R80): `log[A] + log[B]`. -/
def mulSum (la lb : Logarithm) : Nat := la.exponent.val + lb.exponent.val

/-- That of `DIV` (R81): `log[A] + 255 - log[B]`, the group order `n` added before the subtraction. -/
def divSum (n : Nat) (la lb : Logarithm) : Nat := la.exponent.val + n - lb.exponent.val

/-- That of `INV` (R82), which is reduced no further: `255 - log[A]`, for the group order `n`. -/
def invIndex (n : Nat) (la : Logarithm) : Nat := n - la.exponent.val

/-- That of step 4 of construction (R61): `255 - log[v]`. `Build()` has no input other than `RC`. -/
def buildInvSum (l : Logarithm) : Nat := 255 - l.exponent.val

/-- The index `EXP_T` is read at by `EXP` (R79), for the group order `n`. -/
def expIndex (n : Nat) (la : Logarithm) (power : Power) : Nat := expSum la power % n

/-- The index `EXP_T` is read at by `MUL` (R80). -/
def mulIndex (n : Nat) (la lb : Logarithm) : Nat := mulSum la lb % n

/-- The index `EXP_T` is read at by `DIV` (R81). -/
def divIndex (n : Nat) (la lb : Logarithm) : Nat := divSum n la lb % n

/-- The index `EXP_T` is read at by step 4 of construction (R61). -/
def buildInvIndex (l : Logarithm) : Nat := buildInvSum l % 255

end Sys2Proof.Machine
end

