-- ==== Sys2Proof/Machine/State.lean ====
section
/-! DEFINITION. The state of the engine (spec/10_state.md R13 to R27) as plain data: the three tables, `TBL_VALID`, `BUILDING` with the builder, the
ports with their commands in progress; and, because the host's step has no argument for them, the commands presented, the
responses produced and the schedule (notes/assumptions/4.md, 5.md). -/

namespace Sys2Proof.Machine

/-- One table memory: pairs of index and byte, indices strictly rising. An index that is not listed has no value (R18, D20). -/
abbrev Memory := List Host.Cell

/-- The three address spaces (R28). -/
inductive TableId where
  /-- `EXP_T`. -/
  | exp
  /-- `LOG_T`. -/
  | log
  /-- `INV_T`. -/
  | inv
  deriving DecidableEq, Repr

/-- The three tables (R13). -/
structure Tables where
  /-- `EXP_T` (R15). -/
  expT : Memory
  /-- `LOG_T` (R16). -/
  logT : Memory
  /-- `INV_T` (R17). -/
  invT : Memory
  deriving DecidableEq, Repr

/-- A present result, tagged with the type R50 gives it. -/
inductive Value where
  | elem (e : Elem)
  | byte (b : Byte)
  | logarithm (l : Logarithm)
  deriving DecidableEq, Repr

/-- The four result shapes (R10, R105); only the first has a payload (R50). -/
inductive Response where
  | value (v : Value)
  /-- The explicit "undefined" result of `LOG` and `INV` of zero (R101). -/
  | absent
  /-- The one raised failure (R100). -/
  | divisionByZero
  /-- The answer to a reserved `OP` (R104). -/
  | illegal
  deriving DecidableEq, Repr

/-- Where `Build()` stands: the write or publish step it does next (R61). -/
inductive Progress where
  /-- Step 2: `exp[i] = v` and `log[v] = i` are next. -/
  | fill (i : Nat) (v : Byte)
  /-- Step 3: `exp[255] = exp[0]` is next. -/
  | duplicate
  /-- Step 4: `inv[v]` is next. -/
  | invert (v : Nat)
  /-- `TBL_VALID <- 1` is next. -/
  | publish
  deriving DecidableEq, Repr

/-- The builder in progress (R66): the port that won the guard, and where it stands. -/
structure Builder where
  port : Nat
  progress : Progress
  deriving DecidableEq, Repr

/-- One requester port (R55, R116). -/
structure Port where
  /-- Commands presented and not yet taken, in the order presented. -/
  queue : List CommandWord
  /-- The command taken and not yet answered: at most one (R55). -/
  inProgress : Option Instr
  /-- Responses produced, oldest first. -/
  responses : List Response
  deriving DecidableEq, Repr

/-- A port nothing has been presented on. -/
def Port.idle : Port where
  queue := []
  inProgress := none
  responses := []

/-- Who moves next (U13): a requester port, or the reset (R118). -/
inductive Turn where
  | port (p : Nat)
  | reset
  deriving DecidableEq, Repr

/-- The whole state. -/
structure State where
  /-- Fixed when the hardware is built; no step changes it. -/
  config : Config
  tables : Tables
  /-- `TBL_VALID` (R20). -/
  tblValid : Bool
  /-- `BUILDING` (R26): 1 is `some`. -/
  builder : Option Builder
  /-- The requester ports; port `p` is entry `p`. -/
  ports : List Port
  /-- The turns to come, an input; when none is left nothing moves. -/
  schedule : List Turn
  /-- The port whose turn this step is. -/
  active : Nat
  deriving DecidableEq, Repr

/-- The bit `BUILDING` (R26). -/
def State.building (s : State) : Bool := s.builder.isSome

/-- Why the machine stops. -/
inductive Fault where
  /-- A command read a table entry that has no value: raised by `withEntry`, for any entry while `TBL_VALID = 0`, for `log[0]` and
  `inv[0]`, and for an index outside the table (R18, R20, R33, R35, D20). Safe: the machine stops where no value is specified. -/
  | unreadableEntry (t : TableId) (i : Nat)
  /-- A command read an entry of `LOG_T` that is no logarithm, the byte 255: raised by `withLog`. `Build()` writes none under a legal `RC` (R16).
  Safe: the machine stops where no logarithm is specified. -/
  | notALogarithm (v : Byte)
  deriving DecidableEq, Repr

/-- Why the model refuses. -/
inductive Refusal where
  /-- An instruction that has no meaning yet: raised by `exec`'s arm alone. Safe: nothing is claimed of it. -/
  | notModelled (mnemonic : String)
  /-- A parameter has no legal value, `RC` among them: raised by `fetch` on every step (R6, R7, D3). Safe: no such machine exists. -/
  | illegalConfiguration
  /-- The turn, or the answer, is for a port this machine does not have: raised by `fetch` and `respond` (R6, R116). Safe: no such requester exists. -/
  | noSuchPort (p : Nat)
  deriving DecidableEq, Repr

/-- The result of a step on this machine. -/
abbrev Result := Host.Outcome State Fault Refusal

/-- What `EnsureTables()` comes to (R66). -/
inductive Ensured where
  /-- The tables exist; the command goes on. -/
  | ready (s : State)
  /-- The command is held: this turn ends without a response. -/
  | held (s : State)
  deriving DecidableEq, Repr

/-- What a turn comes to, before any command runs. -/
inductive Fetched where
  /-- The command `i` of port `s.active` runs in `s`. -/
  | run (i : Instr) (s : State)
  /-- The turn is over without a command: `s` is the next state. -/
  | settled (s : State)
  /-- The model has no such machine or port. -/
  | refused (r : Refusal)
  deriving DecidableEq, Repr

/-- No entry has a value: the tables do not exist (R20). -/
def Tables.empty : Tables where
  expT := []
  logT := []
  invT := []

/-- The engine right after reset under the default configuration (R27, R118): `TBL_VALID = 0`, `BUILDING = 0`, every entry unreadable, no command in
progress. Nothing has been presented and no turn is scheduled. -/
def State.reset : State where
  config := Config.default
  tables := Tables.empty
  tblValid := false
  builder := none
  ports := [Port.idle]
  schedule := []
  active := 0

end Sys2Proof.Machine
end

