-- ==== Sys2Proof/Machine/Ops.lean ====
section
/-! DEFINITION. The named operations: table reads and writes (spec/20_memory.md R33, R34), `Build()` whole and turn by turn (spec/40_table_construction.md
R61), `EnsureTables()` (R66), answering a command (R55), delivering the failure (R109), reset (R118 to R120), and taking a turn (R23,
R55). -/

namespace Sys2Proof.Machine

/-! ### Table memories -/

/-- The byte construction wrote at an index, if it wrote one (R33). -/
def Memory.read : Memory → Nat → Option Byte
  | [], _ => none
  | c :: rest, i => bif Nat.beq c.1 i then some c.2 else Memory.read rest i

/-- Write one entry, keeping the indices strictly rising (R34). -/
def Memory.write : Memory → Nat → Byte → Memory
  | [], i, v => [(i, v)]
  | c :: rest, i, v =>
    bif Nat.blt c.1 i then c :: Memory.write rest i v
    else bif Nat.beq c.1 i then (i, v) :: rest
    else (i, v) :: c :: rest

/-- The canonical form: indices strictly rising, all inside a table of `n` entries (R28). -/
def Memory.wf (n : Nat) : Memory → Bool
  | [] => true
  | [(j, _)] => decide (j < n)
  | (j, _) :: (k, c) :: rest => decide (j < k) && Memory.wf n ((k, c) :: rest)

/-- The memory of a table (R28: three disjoint spaces). -/
def Tables.get (t : Tables) : TableId → Memory
  | .exp => t.expT
  | .log => t.logT
  | .inv => t.invT

/-- Every table is in canonical form, for tables of `n` entries. -/
def Tables.wf (n : Nat) (t : Tables) : Bool := t.expT.wf n && t.logT.wf n && t.invT.wf n

/-- `MemRead(T, i, 1)` by a command (R33): no value while `TBL_VALID = 0`, nor where construction writes none. -/
def memRead (t : TableId) (i : Nat) (s : State) : Option Byte :=
  if s.tblValid then (s.tables.get t).read i else none

/-- Read an entry and go on with its byte; an entry without a value is a fault of the model (R18, R33). -/
def withEntry (t : TableId) (i : Nat) (s : State) (k : Byte → Result) : Result :=
  match memRead t i s with
  | some v => k v
  | none => .fault (.unreadableEntry t i)

/-- Read the logarithm of a nonzero element from `LOG_T` and go on with it (R16, R33). -/
def withLog (a : Elem) (s : State) (k : Logarithm → Result) : Result :=
  withEntry .log a.byte.toNat s fun v =>
    match logOf v with
    | some l => k l
    | none => .fault (.notALogarithm v)

/-! ### Construction -/

/-- One iteration of step 2: `exp[i] = v`, `log[v] = i` (R61). -/
def Tables.record (t : Tables) (i : Nat) (v : Byte) : Tables :=
  { t with expT := t.expT.write i v, logT := t.logT.write v.toNat (BitVec.ofNat 8 i) }

/-- Step 3: `exp[255] = exp[0]` (R61, R62). -/
def Tables.duplicate (t : Tables) : Tables :=
  { t with
    expT :=
      match t.expT.read 0 with
      | some b => t.expT.write 255 b
      | none => t.expT }

/-- The byte step 4 puts at `inv[v]`: `exp[(255 - log[v]) mod 255]`, from two entries construction has written when `RC` is legal (R61). -/
def Tables.inverseOf (t : Tables) (v : Nat) : Option Byte :=
  match (t.logT.read v).bind logOf with
  | some l => t.expT.read (buildInvIndex l)
  | none => none

/-- One iteration of step 4: write `inv[v]` (R61). -/
def Tables.invert (t : Tables) (v : Nat) : Tables :=
  { t with
    invT :=
      match t.inverseOf v with
      | some w => t.invT.write v w
      | none => t.invT }

/-- The rest of step 2 from index `i` and value `v`, `n` applications of `xtime` to go (R61). -/
def fillFrom (rc : Byte) : Nat → Nat → Byte → Tables → Tables
  | 0, i, v, t => t.record i v
  | n + 1, i, v, t => fillFrom rc n (i + 1) (xtime rc v) (t.record i v)

/-- The rest of step 4 from `v`, `n` entries to go (R61). -/
def invertFrom : Nat → Nat → Tables → Tables
  | 0, _, t => t
  | n + 1, v, t => invertFrom n (v + 1) (t.invert v)

/-- The tables `Build()` writes for `RC` (R61): 254 applications of `xtime` from 0x01, the duplicate, then `inv[1..255]`. -/
def buildTables (rc : Byte) : Tables :=
  invertFrom 255 1 (fillFrom rc 254 0 0x01 Tables.empty).duplicate

/-- Where a builder starts: `exp[0] = 0x01` is its first write (R61). -/
def Progress.start : Progress := .fill 0 0x01

/-- One write step of construction; nothing is left to write once publishing is next (R61). -/
def buildStep (rc : Byte) : Progress → Tables → Progress × Tables
  | .fill i v, t => (if i < 254 then .fill (i + 1) (xtime rc v) else .duplicate, t.record i v)
  | .duplicate, t => (.invert 1, t.duplicate)
  | .invert v, t => (if v < 255 then .invert (v + 1) else .publish, t.invert v)
  | .publish, t => (.publish, t)

/-- `Build()` and its publish step as one transition (R26, R61). -/
def build (s : State) : State :=
  { s with tables := buildTables s.config.rc, tblValid := true, builder := none }

/-- The active port wins the guard: `BUILDING <- 1`, with nothing written yet (R66). -/
def claimBuild (s : State) : State :=
  { s with tables := Tables.empty, builder := some ⟨s.active, Progress.start⟩ }

/-- One turn of the builder: a write step, or the publish that sets `TBL_VALID` and clears `BUILDING` (R61, R66). -/
def advanceBuild (b : Builder) (s : State) : State :=
  match b.progress with
  | .publish => { s with tblValid := true, builder := none }
  | p =>
    { s with
      tables := (buildStep s.config.rc p s.tables).2
      builder := some ⟨b.port, (buildStep s.config.rc p s.tables).1⟩ }

/-- `EnsureTables()` for the command of the active port (R66). With `BUILDING = 1` the builder's own turn carries construction on, and every other
port waits. -/
def ensureTables (s : State) : Ensured :=
  if s.tblValid then .ready s
  else
    match s.builder with
    | some b => .held (if b.port = s.active then advanceBuild b s else s)
    | none =>
      match s.config.grain with
      | .atomic => .ready (build s)
      | .stepwise => .held (claimBuild s)

/-- What every table command does first (R68): go on once the tables exist, else end the turn without a response. -/
def afterTables (s : State) (k : State → Result) : Result :=
  match ensureTables s with
  | .ready t => k t
  | .held t => .next t

/-! ### Responses -/

/-- A port whose command is answered: exactly one response, and nothing in progress (R48, R55). -/
def Port.answer (q : Port) (r : Response) : Port :=
  { q with inProgress := none, responses := q.responses ++ [r] }

/-- The state in which the active port's command has the response `r`. -/
def State.answered (s : State) (r : Response) : State :=
  { s with ports := s.ports.modify s.active (·.answer r) }

/-- End the active port's command with the response `r` (R55). -/
def respond (r : Response) (s : State) : Result :=
  if s.active < s.ports.length then .next (s.answered r) else .refused (.noSuchPort s.active)

/-- `raise DivisionByZero`: the one failure of the engine, delivered as the response of the command that caused it. No state is saved, no mode or
mask changes, and the engine is ready for the next command, so there is nothing to return from (R109 to R111). -/
def raiseDivisionByZero (s : State) : Result := respond .divisionByZero s

/-- `respond Value(v)` with a field element. -/
def respondElem (e : Elem) (s : State) : Result := respond (.value (.elem e)) s

/-! ### Reset -/

/-- The tables a reset leaves (R27). -/
def Config.resetTables (c : Config) : Tables :=
  match c.tableInit with
  | .lazy => Tables.empty
  | .constant => buildTables c.rc

/-- `TBL_VALID` after a reset (R27). -/
def Config.resetValid (c : Config) : Bool :=
  match c.tableInit with
  | .lazy => false
  | .constant => true

/-- A port whose command in progress is abandoned without a response (R120). -/
def Port.abandon (q : Port) : Port := { q with inProgress := none }

/-- A reset (R118 to R120): the engine's state goes to its reset values and every command in progress is abandoned. What the requesters hold, the commands
not yet taken and the responses already produced, is outside the engine and stays (notes/assumptions/15.md). -/
def resetEngine (s : State) : State :=
  { s with
    tables := Config.resetTables s.config
    tblValid := Config.resetValid s.config
    builder := none
    ports := s.ports.map Port.abandon }

/-- The engine right after reset under any configuration (R27): `State.reset` is the one for the defaults. -/
def State.resetFor (c : Config) : State where
  config := c
  tables := Config.resetTables c
  tblValid := Config.resetValid c
  builder := none
  ports := List.replicate c.nports Port.idle
  schedule := []
  active := 0

/-! ### Taking a turn -/

/-- The state in which port `p` has the turn, the turns `rest` to come. -/
def State.turnOf (s : State) (p : Nat) (rest : List Turn) : State :=
  { s with schedule := rest, active := p }

/-- The state in which the active port's next command `i` has been taken, the words `ws` still waiting. -/
def State.taking (s : State) (i : Instr) (ws : List CommandWord) : State :=
  { s with ports := s.ports.modify s.active (fun q => { q with inProgress := some i, queue := ws }) }

/-- The next turn: a reset, a port going on with its command in progress, or a port's next command, decoded and taken (R23, R55). A port with nothing to
do, and a schedule with no turn left, change nothing but the turn. -/
def fetch (s : State) : Fetched :=
  if s.config.legal then
    match s.schedule with
    | [] => .settled s
    | .reset :: rest => .settled { resetEngine s with schedule := rest }
    | .port p :: rest =>
      match s.ports[p]? with
      | none => .refused (.noSuchPort p)
      | some q =>
        match q.inProgress, q.queue with
        | some i, _ => .run i (s.turnOf p rest)
        | none, [] => .settled (s.turnOf p rest)
        | none, w :: ws => .run (decodeCommand w) ((s.turnOf p rest).taking (decodeCommand w) ws)
  else .refused .illegalConfiguration

/-- The port on which a word is presented ahead of everything else, with nothing in progress. -/
def Port.presenting (q : Port) (w : CommandWord) : Port :=
  { q with queue := w :: q.queue, inProgress := none }

/-- The word `w` is what port 0 takes at the very next turn; a machine without ports gets one. -/
def presentNext (s : State) (w : CommandWord) : State :=
  { s with
    schedule := .port 0 :: s.schedule
    ports :=
      match s.ports with
      | [] => [Port.idle.presenting w]
      | q :: qs => q.presenting w :: qs }

end Sys2Proof.Machine
end

