-- ==== Sys2Proof/Machine/AdditiveOps.lean ====
section
/-! DEFINITION. The XOR adder: `ADD` and `SUB` (spec/42_additive_ops.md R75, R76). They never need the tables. -/

namespace Sys2Proof.Machine

/-- `ADD a, b` (R75). -/
def execAdd (a b : Elem) (s : State) : Result := respondElem (elemXor a b) s

/-- `SUB a, b` (R76): the same function, since the field has characteristic 2. -/
def execSub (a b : Elem) (s : State) : Result := respondElem (elemXor a b) s

end Sys2Proof.Machine
end

