-- ==== Sys2Proof/Machine/LogExpOps.lean ====
section
/-! DEFINITION. The logarithm and exponentiation operations `LOG`, `XEXP`, `EXP` (spec/43_log_exp_ops.md R77 to R79). Each calls `EnsureTables()` first,
whatever its operands are (R68). -/

namespace Sys2Proof.Machine

/-- `LOG a` (R77): absent for zero, decided before `LOG_T` is read. -/
def execLog (a : Elem) (s : State) : Result :=
  afterTables s fun t =>
    if isZero a then respond .absent t
    else withLog a t fun l => respond (.value (.logarithm l)) t

/-- `XEXP power` (R78): the index is the operand itself, 255 included. -/
def execXexp (power : Power) (s : State) : Result :=
  afterTables s fun t => withEntry .exp power.byte.toNat t fun v => respondElem ⟨v⟩ t

/-- `EXP a, power` (R79): zero to any power is zero, the zeroth included. -/
def execExp (a : Elem) (power : Power) (s : State) : Result :=
  afterTables s fun t =>
    if isZero a then respondElem elemZero t
    else
      withLog a t fun l =>
        withEntry .exp (expIndex t.config.groupOrder l power) t fun v => respondElem ⟨v⟩ t

end Sys2Proof.Machine
end

