-- ==== Sys2Proof/Machine/MultiplicativeOps.lean ====
section
/-! DEFINITION. The multiplicative operations `MUL`, `DIV`, `INV` (spec/44_multiplicative_ops.md R80 to R82). Each calls `EnsureTables()` first, whatever
its operands are (R68). -/

namespace Sys2Proof.Machine

/-- `MUL a, b` (R80). -/
def execMul (a b : Elem) (s : State) : Result :=
  afterTables s fun t =>
    if isZero a || isZero b then respondElem elemZero t
    else
      withLog a t fun la =>
        withLog b t fun lb =>
          withEntry .exp (mulIndex t.config.groupOrder la lb) t fun v => respondElem ⟨v⟩ t

/-- `DIV a, b` (R81): the divisor is tested first, whatever the dividend is (R108). -/
def execDiv (a b : Elem) (s : State) : Result :=
  afterTables s fun t =>
    if isZero b then raiseDivisionByZero t
    else if isZero a then respondElem elemZero t
    else
      withLog a t fun la =>
        withLog b t fun lb =>
          withEntry .exp (divIndex t.config.groupOrder la lb) t fun v => respondElem ⟨v⟩ t

/-- `INV a` (R82): absent for zero; otherwise through `LOG_T` and `EXP_T`, which gives what `INV_T` holds (R97, D17). -/
def execInv (a : Elem) (s : State) : Result :=
  afterTables s fun t =>
    if isZero a then respond .absent t
    else
      withLog a t fun l =>
        withEntry .exp (invIndex t.config.groupOrder l) t fun v => respondElem ⟨v⟩ t

end Sys2Proof.Machine
end

