-- ==== Sys2Proof/Machine/ReservedOps.lean ====
section
/-! DEFINITION. Reserved opcodes (spec/30_encoding.md R51, spec/60_exceptions.md R104). -/

namespace Sys2Proof.Machine

/-- A command with `OP` in 0xC..0xF: answered `Illegal`, with no call of `EnsureTables()`, no table read and no state changed (R51). -/
def execReserved (_op : BitVec 4) (s : State) : Result := respond .illegal s

end Sys2Proof.Machine
end

