-- ==== Sys2Proof/Machine/ValueOps.lean ====
section
/-! DEFINITION. The value operations `ZERO`, `ONE`, `FROM_BYTE`, `TO_BYTE` (spec/41_value_ops.md R71 to R74). They read no table and always respond a value. -/

namespace Sys2Proof.Machine

/-- `ZERO` (R71). -/
def execZero (s : State) : Result := respondElem elemZero s

/-- `ONE` (R72). -/
def execOne (s : State) : Result := respondElem elemOne s

/-- `FROM_BYTE b` (R73): the element whose representation is `b`. -/
def execFromByte (b : Byte) (s : State) : Result := respondElem ⟨b⟩ s

/-- `TO_BYTE x` (R74): the representation of `x`, a raw byte. -/
def execToByte (x : Elem) (s : State) : Result := respond (.value (.byte x.byte)) s

end Sys2Proof.Machine
end

