-- ==== Sys2Proof/Machine/Dispatch.lean ====
section
/-! DEFINITION. The one dispatch: each command of the active port to its meaning. -/

namespace Sys2Proof.Machine

-- The command of port `s.active` runs; the meaning answers on that port or leaves the command in progress.
def exec (i : Instr) (s : State) : Host.Outcome State Fault Refusal :=
  match i with
  | .zero => Sys2Proof.Machine.execZero s
  | .one => Sys2Proof.Machine.execOne s
  | .fromByte b => Sys2Proof.Machine.execFromByte b s
  | .toByte x => Sys2Proof.Machine.execToByte x s
  | .add a b => Sys2Proof.Machine.execAdd a b s
  | .sub a b => Sys2Proof.Machine.execSub a b s
  | .log a => Sys2Proof.Machine.execLog a s
  | .xexp power => Sys2Proof.Machine.execXexp power s
  | .exp a power => Sys2Proof.Machine.execExp a power s
  | .mul a b => Sys2Proof.Machine.execMul a b s
  | .div a b => Sys2Proof.Machine.execDiv a b s
  | .inv a => Sys2Proof.Machine.execInv a s
  | .reserved op => Sys2Proof.Machine.execReserved op s

end Sys2Proof.Machine
end

