-- ==== Sys2Proof/Machine/Step.lean ====
section
/-! DEFINITION. One step of the machine: the next turn of the schedule. -/

namespace Sys2Proof.Machine

/-- Take the next turn and run the command it comes to, if any (R23, R55). -/
def step (s : State) : Host.Outcome State Fault Refusal :=
  match fetch s with
  | .run i t => exec i t
  | .settled t => .next t
  | .refused r => .refused r

/-- `s` with the command word `w` of `nbits` bits presented on port 0 and port 0 next to move, so that the very next step takes and runs it. A number that
is no 20-bit word cannot be presented and changes nothing (notes/assumptions/10.md). -/
def State.withFetchWord (s : State) (nbits w : Nat) : State :=
  if w % 2 ^ nbits < 2 ^ 20 then presentNext s (BitVec.ofNat 20 (w % 2 ^ nbits)) else s

end Sys2Proof.Machine
end

