-- ==== Sys2Proof/Machine/Flags.lean ====
section
/-! DEFINITION. The engine holds no flag (R24): the outcome of a command is in the status field of its response (spec/30_encoding.md R48 to R50). -/

namespace Sys2Proof.Machine

/-- `ST` (R49). -/
def Response.status : Response → BitVec 2
  | .value _ => 0
  | .absent => 1
  | .divisionByZero => 2
  | .illegal => 3

/-- The byte a present result carries (R50). -/
def Value.wireByte : Value → Byte
  | .elem e => e.byte
  | .byte b => b
  | .logarithm l => logByte l

/-- `R` as the wire carries it: 0x00, and no result, unless the status is `VALUE` (R50). -/
def Response.wireByte : Response → Byte
  | .value v => v.wireByte
  | .absent => 0x00
  | .divisionByZero => 0x00
  | .illegal => 0x00

/-- `RSP = {ST, R}` (R48). -/
def Response.toWire (r : Response) : ResponseWord := r.status ++ r.wireByte

end Sys2Proof.Machine
end

