-- ==== Sys2Proof/Machine/Assembly.lean ====
section
/-! DEFINITION. The host's notation: assembly lines (R56, D7) and the program notation in which a line names its result and a later line uses it
(R58, D29). It stands outside the engine, which sees command words only; no meaning uses it. -/

namespace Sys2Proof.Machine

/-! ### Lines of text -/

def isBlank (c : Char) : Bool := c == ' ' || c == '\t'

def trim (cs : List Char) : List Char := ((cs.dropWhile isBlank).reverse.dropWhile isBlank).reverse

/-- `;` starts a comment (R56). -/
def withoutComment (cs : List Char) : List Char := cs.takeWhile (· != ';')

/-- Whether a word is the mnemonic `m`: case does not matter (R56). -/
def isMnemonic (m : String) (word : List Char) : Bool := word.map Char.toUpper == m.toList

/-! ### Operands -/

/-- An operand as written: a byte literal, or the name of an earlier line's result (R58). -/
inductive HostOperand where
  | literal (b : Byte)
  | result (name : List Char)
  deriving DecidableEq, Repr

def digitOf (c : Char) : Option Nat :=
  if '0' ≤ c ∧ c ≤ '9' then some (c.toNat - '0'.toNat)
  else if 'a' ≤ c.toLower ∧ c.toLower ≤ 'f' then some (c.toLower.toNat - 'a'.toNat + 10)
  else none

/-- The number whose first digits are worth `acc` already. -/
def numeralFrom (base : Nat) : Nat → List Char → Option Nat
  | acc, [] => some acc
  | acc, c :: cs =>
    match digitOf c with
    | some d => if d < base then numeralFrom base (acc * base + d) cs else none
    | none => none

def byteOf (n : Option Nat) : Option Byte :=
  match n with
  | some k => if k < 256 then some (BitVec.ofNat 8 k) else none
  | none => none

/-- A byte literal: `0x..` hexadecimal or decimal 0..255 (R56). -/
def byteLiteral : List Char → Option Byte
  | '0' :: 'x' :: d :: ds => byteOf (numeralFrom 16 0 (d :: ds))
  | d :: ds => byteOf (numeralFrom 10 0 (d :: ds))
  | [] => none

/-- An operand: what starts with a letter is a name (R58), the rest a literal. -/
def hostOperand (cs : List Char) : Option HostOperand :=
  match cs with
  | [] => none
  | c :: _ => if c.isAlpha then some (.result cs) else (byteLiteral cs).map .literal

/-- The operands after a mnemonic, comma between them (R56). -/
def hostOperands (cs : List Char) : Option (List HostOperand) :=
  match trim cs with
  | [] => some []
  | d :: ds => ((d :: ds).splitOn ',').mapM fun part => hostOperand (trim part)

/-! ### Lines -/

/-- A line: the name of its result if it has one, its operation and its operands. -/
structure HostLine where
  name : Option (List Char)
  op : BitVec 4
  operands : List HostOperand
  deriving DecidableEq, Repr

/-- The mnemonics with their `OP` and how many operands they are written with (R47, R56). -/
def assemblyTable : List (String × BitVec 4 × Nat) :=
  [("ZERO", 0x0, 0), ("ONE", 0x1, 0), ("FROM_BYTE", 0x2, 1), ("TO_BYTE", 0x3, 1), ("ADD", 0x4, 2), ("SUB", 0x5, 2),
   ("LOG", 0x6, 1), ("XEXP", 0x7, 1), ("EXP", 0x8, 2), ("MUL", 0x9, 2), ("DIV", 0xA, 2), ("INV", 0xB, 1)]

/-- An operation with its operands. -/
def hostCommand (name : Option (List Char)) (cs : List Char) : Option HostLine :=
  let body := trim cs
  let word := body.takeWhile fun c => !isBlank c
  match assemblyTable.find? (fun row => isMnemonic row.1 word), hostOperands (body.drop word.length) with
  | some row, some operands => if operands.length = row.2.2 then some ⟨name, row.2.1, operands⟩ else none
  | _, _ => none

/-- A line of text: `MNEMONIC a, b`, or `r3 = MNEMONIC a, b` (R56, R58). -/
def parseLine (line : String) : Option HostLine :=
  match (withoutComment line.toList).splitOn '=' with
  | [body] => hostCommand none body
  | [name, body] => hostCommand (some (trim name)) body
  | _ => none

/-! ### What the host presents -/

/-- The byte of an operand, given the responses to the named lines so far: the host substitutes the `R` byte of a `VALUE` response, and has nothing to
substitute where the named response is none (R58, D29). -/
def operandByte (env : List (List Char × Response)) : HostOperand → Option Byte
  | .literal b => some b
  | .result name =>
    match env.find? (fun e => e.1 == name) with
    | some (_, .value v) => some v.wireByte
    | _ => none

/-- The command word of a line: an omitted operand is encoded as 0 (R56). No word where the program stops (R58). -/
def lineWord (env : List (List Char × Response)) (line : HostLine) : Option CommandWord :=
  match line.operands.mapM (operandByte env) with
  | some bytes => some (commandWord line.op (bytes.getD 0 0) (bytes.getD 1 0))
  | none => none

/-- Whether the program stops at this response: a failure or an illegal command does, an absent result alone does not (D29). -/
def stopsProgram : Response → Bool
  | .value _ => false
  | .absent => false
  | .divisionByZero => true
  | .illegal => true

/-- The word the host presents for its next line, after the response `last` to the line before it (R58, D29). -/
def nextWord (env : List (List Char × Response)) (last : Option Response) (line : HostLine) : Option CommandWord :=
  if last.any stopsProgram then none else lineWord env line

/-- The word of a line that uses no earlier result (R56). -/
def assemble (line : String) : Option CommandWord := (parseLine line).bind (lineWord [])

/-- The responses the host knows once the response to `line` has come. -/
def remember (env : List (List Char × Response)) (line : HostLine) (r : Response) : List (List Char × Response) :=
  match line.name with
  | some name => (name, r) :: env
  | none => env

end Sys2Proof.Machine
end

