-- ==== Sys2Proof/Safety.lean ====
section
/-! DEFINITION. The terms claims are made in: the arithmetic the spec gives independently of the tables (R59, R85), when a command completes at once and
what answering it means, and the invariant of the machine (R19 to R21, R26, R55, R69). No meaning uses anything of this file. -/

namespace Sys2Proof.Machine

/-! ### Field arithmetic without tables -/

/-- `xtime` applied `n` times (R85): multiplication by `x^n`. -/
def xtimes (rc : Byte) : Nat → Byte → Byte
  | 0, v => v
  | n + 1, v => xtime rc (xtimes rc n v)

/-- The polynomial product of R85: the XOR over the set bits `i` of `b` of `xtime^i(a)`. -/
def clmul (rc a b : Byte) : Byte :=
  (List.range 8).foldl (fun acc i => if b.getLsbD i then acc ^^^ xtimes rc i a else acc) 0

/-- The product of two elements (R85). -/
def elemMul (rc : Byte) (a b : Elem) : Elem := ⟨clmul rc a.byte b.byte⟩

/-- `a` multiplied by itself `n` times (R79 (h)). -/
def elemPow (rc : Byte) (a : Elem) : Nat → Elem
  | 0 => elemOne
  | n + 1 => elemMul rc (elemPow rc a n) a

/-- The generator raised to `n` (R15, R60). -/
def genPow (rc : Byte) (n : Nat) : Elem := ⟨xtimes rc n 0x01⟩

/-- The `i` in 0..254 with `generator^i = a`, searched for (R77); zero has none. -/
def discreteLog (rc : Byte) (a : Elem) : Option (Fin 255) := (List.finRange 255).find? fun i => genPow rc i.val == a

/-- The response of every command by field arithmetic alone: products are polynomial products, a power is a repeated product, an inverse is the 254th
power, and a logarithm is searched for. No table is built or read. -/
def reference (rc : Byte) : Instr → Response
  | .zero => .value (.elem elemZero)
  | .one => .value (.elem elemOne)
  | .fromByte b => .value (.elem ⟨b⟩)
  | .toByte x => .value (.byte x.byte)
  | .add a b => .value (.elem (elemXor a b))
  | .sub a b => .value (.elem (elemXor a b))
  | .log a =>
    match discreteLog rc a with
    | some i => .value (.logarithm ⟨i⟩)
    | none => .absent
  | .xexp p => .value (.elem (genPow rc p.byte.toNat))
  | .exp a p => .value (.elem (if a = elemZero then elemZero else elemPow rc a p.byte.toNat))
  | .mul a b => .value (.elem (elemMul rc a b))
  | .div a b => if b = elemZero then .divisionByZero else .value (.elem (elemMul rc a (elemPow rc b 254)))
  | .inv a => if a = elemZero then .absent else .value (.elem (elemPow rc a 254))
  | .reserved _ => .illegal

/-! ### Completion -/

/-- The commands that call `EnsureTables()`: by operation, not by operand value (R68). -/
def needsTables : Instr → Bool
  | .zero => false
  | .one => false
  | .fromByte _ => false
  | .toByte _ => false
  | .add _ _ => false
  | .sub _ _ => false
  | .log _ => true
  | .xexp _ => true
  | .exp _ _ => true
  | .mul _ _ => true
  | .div _ _ => true
  | .inv _ => true
  | .reserved _ => false

/-- The state once the tables exist: itself, or with `Build()` done (R66). -/
def State.withTables (s : State) : State := if s.tblValid then s else build s

/-- The state in which the command `i` is answered: with the tables if `i` needs them (R68). -/
def State.ensuredFor (s : State) (i : Instr) : State := if needsTables i then s.withTables else s

/-- The answer to `i` goes to a port there is. -/
def State.HasActivePort (s : State) : Prop := s.active < s.ports.length

/-- A table command of the active port completes in this step: the configuration is legal (R6, R7); built tables are what `Build()` wrote (R20); and either the tables exist or
construction is one transition and no other builder is at work (R26, R66). -/
structure State.Available (s : State) : Prop where
  legal : s.config.legal = true
  activePort : s.HasActivePort
  tablesBuilt : s.tblValid = true → s.tables = buildTables s.config.rc
  unblocked : s.tblValid = true ∨ s.builder = none ∧ s.config.grain = .atomic

/-- What a response of a table command rests on: a legal configuration (R6, R7), and that existing tables are what `Build()` wrote (R20). -/
structure State.TablesSound (s : State) : Prop where
  legal : s.config.legal = true
  tablesBuilt : s.tblValid = true → s.tables = buildTables s.config.rc

/-- `i`, run in `s`, gives a next state in which the active port has the new response `r`. -/
def RepliesWith (i : Instr) (s : State) (r : Response) : Prop :=
  ∃ t q, exec i s = .next t ∧ s.ports[s.active]? = some q ∧ t.ports[s.active]? = some (q.answer r)

/-- `i`, run in `s`, completes with the response `r` and changes nothing else than building the tables where `i` needs them. -/
def Answers (i : Instr) (s : State) (r : Response) : Prop := exec i s = .next ((s.ensuredFor i).answered r)

/-- `i`, run in `s`, completes with the element `e`. -/
def Gives (i : Instr) (s : State) (e : Elem) : Prop := Answers i s (.value (.elem e))

/-! ### The invariant -/

/-- Where construction stands after `n` write steps, with the tables it has written so far (R61). -/
def buildAfter (rc : Byte) : Nat → Progress × Tables
  | 0 => (Progress.start, Tables.empty)
  | n + 1 => buildStep rc (buildAfter rc n).1 (buildAfter rc n).2

/-- What holds of the machine between two steps. -/
structure State.Inv (s : State) : Prop where
  /-- The configuration is one there is a machine for (R7, R6). -/
  legal : s.config.legal = true
  /-- There are `NPORTS` ports (R6, R116). -/
  portCount : s.ports.length = s.config.nports
  /-- The turn was given to a port there is. -/
  activePort : s.HasActivePort
  /-- Existing tables are what `Build()` wrote (R19, R20). -/
  built : s.tblValid = true → s.tables = buildTables s.config.rc
  /-- Without construction under way, tables that do not exist have no entry (R20, R27). -/
  absent : s.tblValid = false → s.builder = none → s.tables = Tables.empty
  /-- With `BUILDING = 1` the tables do not exist yet and hold exactly what the builder has written so far (R26). -/
  partway : ∀ b, s.builder = some b →
    s.tblValid = false ∧ ∃ n, n ≤ 511 ∧ buildAfter s.config.rc n = (b.progress, s.tables)
  /-- The builder is a requester with a command in progress (R66, R116). -/
  builderPort : ∀ b, s.builder = some b → ∃ q i, s.ports[b.port]? = some q ∧ q.inProgress = some i
  /-- Construction is shown turn by turn only under that grain (R26). -/
  grain : s.config.grain = .atomic → s.builder = none
  /-- Constant tables exist from reset on (R67, R119). -/
  constant : s.config.tableInit = .constant → s.tblValid = true
  /-- Only a command that needs the tables is ever left in progress between steps (R66, R68). -/
  heldNeedsTables : ∀ q ∈ s.ports, ∀ i, q.inProgress = some i → needsTables i = true

/-- The entry a builder writes next lies inside its table (R28, R29). -/
def Progress.inRange : Progress → Bool
  | .fill i _ => decide (i < 255)
  | .duplicate => true
  | .invert v => decide (v < 256)
  | .publish => true

/-- The tables are in canonical form, indices strictly rising and below `NENTRIES`, and a builder at work stays inside them (R28). -/
structure State.Canonical (s : State) : Prop where
  tables : s.tables.wf s.config.nEntries = true
  inRange : ∀ b, s.builder = some b → b.progress.inRange = true

/-- `n` steps, stopping at the first fault or refusal. -/
def steps : Nat → State → Result
  | 0, s => .next s
  | n + 1, s =>
    match step s with
    | .next t => steps n t
    | .fault f => .fault f
    | .refused r => .refused r

/-- A run is safe when no step of it stops the machine (R103, R124). -/
def SafeStep (s : State) : Prop := ∀ f, step s ≠ .fault f

end Sys2Proof.Machine
end

