-- ==== Sys2Proof/Certificates/Slice0/Obligations.lean ====
section
/-! DEFINITION. The statements made of the model, each from the rules of spec/ its docstring names. Those that rest on a choice of the model say so. -/

open Sys2Proof Sys2Proof.Machine

/-! ### Encoding -/

/-- R45: `CMD = {OP, A, B} = OP * 65536 + A * 256 + B`, the only format, twenty bits long; the fields read back what was assembled and make up the word. -/
def Obligations.CommandWordIsOpThenAThenB : Prop :=
  (∀ (op : BitVec 4) (a b : Byte),
    (commandWord op a b).toNat = op.toNat * 65536 + a.toNat * 256 + b.toNat ∧
    opField (commandWord op a b) = op ∧ fieldA (commandWord op a b) = a ∧ fieldB (commandWord op a b) = b) ∧
  ∀ w : CommandWord, commandWord (opField w) (fieldA w) (fieldB w) = w

/-- Every 20-bit word decodes to exactly one of the twelve operations with its operands, or to a reserved command; the word alone decides (R54, an
inference the spec marks "derived: from rule R47 and rule R51"). A number wider than a command is rejected by name, which is the model's form (notes/assumptions/18.md). -/
def Obligations.EveryWordDecodesByItsOpcode : Prop :=
  (∀ n : Nat, 2 ^ 20 ≤ n → decode n = .error .widerThanACommand) ∧
  ∀ w : CommandWord,
    (decodeCommand w).wellFormed = true ∧ decode w.toNat = .ok (decodeCommand w) ∧
    (opField w = 0x0 → decodeCommand w = .zero) ∧
    (opField w = 0x1 → decodeCommand w = .one) ∧
    (opField w = 0x2 → decodeCommand w = .fromByte (fieldA w)) ∧
    (opField w = 0x3 → decodeCommand w = .toByte ⟨fieldA w⟩) ∧
    (opField w = 0x4 → decodeCommand w = .add ⟨fieldA w⟩ ⟨fieldB w⟩) ∧
    (opField w = 0x5 → decodeCommand w = .sub ⟨fieldA w⟩ ⟨fieldB w⟩) ∧
    (opField w = 0x6 → decodeCommand w = .log ⟨fieldA w⟩) ∧
    (opField w = 0x7 → decodeCommand w = .xexp ⟨fieldA w⟩) ∧
    (opField w = 0x8 → decodeCommand w = .exp ⟨fieldA w⟩ ⟨fieldB w⟩) ∧
    (opField w = 0x9 → decodeCommand w = .mul ⟨fieldA w⟩ ⟨fieldB w⟩) ∧
    (opField w = 0xA → decodeCommand w = .div ⟨fieldA w⟩ ⟨fieldB w⟩) ∧
    (opField w = 0xB → decodeCommand w = .inv ⟨fieldA w⟩) ∧
    (0xC ≤ (opField w).toNat → decodeCommand w = .reserved (opField w))

/-- R47: every word selects exactly one row of the opcode map by its match and mask, and it is the row of the command the word decodes to. -/
def Obligations.EveryWordSelectsOneOpcodeRow : Prop :=
  ∀ w : CommandWord, ∃ r ∈ opcodeMap, r.selects w = true ∧ r.mnemonic = mnemonicOf (decodeCommand w) ∧
    ∀ r' ∈ opcodeMap, r'.selects w = true → r' = r

/-- Every well-formed command is what its own encoding decodes to, with every operand at every value (R45 to R47). -/
def Obligations.DecodingAnEncodingGivesTheCommand : Prop :=
  ∀ i : Instr, i.wellFormed = true → decodeCommand (encode i) = i ∧ decode (encode i).toNat = .ok i

/-- R46, R52: words that agree in `OP` and in the fields the operation uses are the same command; the operations with opcodes 0x2 to 0xB use `A`, those
with 0x4, 0x5, 0x8, 0x9, 0xA use `B`, and no other uses either. -/
def Obligations.UnusedFieldsDoNotMatter : Prop :=
  ∀ w w' : CommandWord, opField w = opField w' →
    ((opField w).toNat ∈ [0x2, 0x3, 0x4, 0x5, 0x6, 0x7, 0x8, 0x9, 0xA, 0xB] → fieldA w = fieldA w') →
    ((opField w).toNat ∈ [0x4, 0x5, 0x8, 0x9, 0xA] → fieldB w = fieldB w') →
    decodeCommand w = decodeCommand w'

/-- Words the spec writes out (R56, R71 to R82 worked examples, spec/95_test_vectors.md sections 2 and 4) decode to the commands it says. -/
def Obligations.WrittenOutWordsDecode : Prop :=
  decodeCommand 0x0FFFF = .zero ∧ decodeCommand 0x1ABCD = .one ∧ decodeCommand 0x2FF77 = .fromByte 0xFF ∧
  decodeCommand 0x3AE00 = .toByte ⟨0xAE⟩ ∧ decodeCommand 0x405AB = .add ⟨0x05⟩ ⟨0xAB⟩ ∧
  decodeCommand 0x5AE05 = .sub ⟨0xAE⟩ ⟨0x05⟩ ∧ decodeCommand 0x60300 = .log ⟨0x03⟩ ∧
  decodeCommand 0x7FF00 = .xexp ⟨0xFF⟩ ∧ decodeCommand 0x803FE = .exp ⟨0x03⟩ ⟨0xFE⟩ ∧
  decodeCommand 0x953CA = .mul ⟨0x53⟩ ⟨0xCA⟩ ∧ decodeCommand 0xA0500 = .div ⟨0x05⟩ ⟨0x00⟩ ∧
  decodeCommand 0xB8E00 = .inv ⟨0x8E⟩ ∧ decodeCommand 0xD1234 = .reserved 0xD

/-- R51, R104 (D9): a command with `OP` in 0xC..0xF is answered `Illegal`, `ST = 3` and `R = 0x00`, and changes no state: no table is built or read. -/
def Obligations.ReservedOpcodesAnswerIllegal : Prop :=
  (∀ (w : CommandWord) (s : State), 0xC ≤ (opField w).toNat → s.HasActivePort →
    exec (decodeCommand w) s = .next (s.answered .illegal)) ∧
  (∀ (op : BitVec 4) (s : State), 0xC ≤ op.toNat → s.HasActivePort → exec (.reserved op) s = .next (s.answered .illegal)) ∧
  Response.illegal.status = 3 ∧ Response.illegal.toWire = 0x300

/-- R48 to R50: the response word is the status above the result byte; the four statuses are 0 to 3; a value carries its byte, and every other response has
0x00 there. -/
def Obligations.ResponseWordIsStatusThenResult : Prop :=
  (∀ r : Response, r.toWire.extractLsb' 8 2 = r.status ∧ r.toWire.extractLsb' 0 8 = r.wireByte ∧
    r.toWire.toNat = r.status.toNat * 256 + r.wireByte.toNat) ∧
  (∀ v : Value, (Response.value v).status = 0 ∧ (Response.value v).wireByte = v.wireByte) ∧
  (Response.absent.status = 1 ∧ Response.divisionByZero.status = 2 ∧ Response.illegal.status = 3) ∧
  (∀ r : Response, r.status ≠ 0 → r.wireByte = 0x00)

/-- R105: every outcome that is no value: `Absent` from `LOG` and `INV` of zero, `DivisionByZero` from `DIV` by zero, `Illegal` from a reserved opcode, and none else. -/
def Obligations.OutcomesThatAreNoValue : Prop :=
  ∀ (i : Instr) (s : State), i.wellFormed = true → s.Available →
    ∃ r, exec i s = .next ((s.ensuredFor i).answered r) ∧
      (r = .absent ↔ i = .log ⟨0x00⟩ ∨ i = .inv ⟨0x00⟩) ∧
      (r = .divisionByZero ↔ ∃ a, i = .div a ⟨0x00⟩) ∧
      (r = .illegal ↔ ∃ op : BitVec 4, 0xC ≤ op.toNat ∧ i = .reserved op) ∧
      (r = .absent → r.status = 1) ∧ (r = .divisionByZero → r.status = 2) ∧ (r = .illegal → r.status = 3)

/-! ### The value and additive operations -/

/-- R71: `ZERO` decodes from `OP = 0x0` whatever the unused fields hold, answers 0x00 and changes nothing else; 0x00 is the additive identity and absorbs products. -/
def Obligations.ZeroAnswersTheAdditiveIdentity : Prop :=
  (∀ w : CommandWord, opField w = 0x0 → decodeCommand w = .zero) ∧
  (∀ s : State, s.HasActivePort → exec .zero s = .next (s.answered (.value (.elem ⟨0x00⟩)))) ∧
  (∀ (s : State) (a : Elem), s.Available → Gives (.add a ⟨0x00⟩) s a ∧ Gives (.mul a ⟨0x00⟩) s ⟨0x00⟩) ∧
  decodeCommand 0x00000 = .zero ∧ decodeCommand 0x0FFFF = .zero ∧ (Response.value (.elem ⟨0x00⟩)).toWire = 0x000

/-- R72: `ONE` decodes from `OP = 0x1` whatever the unused fields hold, answers 0x01 and changes nothing else (so it builds and reads no table); 0x01 is `exp[0]` and
`exp[255]` and the multiplicative identity. -/
def Obligations.OneAnswersTheMultiplicativeIdentity : Prop :=
  (∀ w : CommandWord, opField w = 0x1 → decodeCommand w = .one) ∧
  (∀ s : State, s.HasActivePort → exec .one s = .next (s.answered (.value (.elem ⟨0x01⟩)))) ∧
  (∀ rc : Byte, (buildTables rc).expT.read 0 = some 0x01 ∧ (buildTables rc).expT.read 255 = some 0x01) ∧
  (∀ (s : State) (a : Elem), s.Available → Gives (.mul a ⟨0x01⟩) s a) ∧
  decodeCommand 0x10000 = .one ∧ (Response.value (.elem ⟨0x01⟩)).toWire = 0x001

/-- R73: `FROM_BYTE b` decodes from `OP = 0x2` with `A = b`, `B` ignored, and answers the element with the byte `b`, whichever byte it is; nothing else changes; with `TO_BYTE` it is a lossless round
trip. -/
def Obligations.FromByteAnswersTheElementOfTheByte : Prop :=
  (∀ w : CommandWord, opField w = 0x2 → decodeCommand w = .fromByte (fieldA w)) ∧
  (∀ (s : State) (b : Byte), s.HasActivePort → exec (.fromByte b) s = .next (s.answered (.value (.elem ⟨b⟩)))) ∧
  elemZero = ⟨0x00⟩ ∧ elemOne = ⟨0x01⟩ ∧
  (∀ (s : State) (x : Elem), s.HasActivePort →
    ∃ b, Answers (.toByte x) s (.value (.byte b)) ∧ Answers (.fromByte b) s (.value (.elem x))) ∧
  decodeCommand 0x24B00 = .fromByte 0x4B ∧ (Response.value (.elem ⟨0x4B⟩)).toWire = 0x04B

/-- `TO_BYTE x` decodes from `OP = 0x3` with `A = x`, `B` ignored, and answers the raw byte of `x`; nothing else changes; with `FROM_BYTE` it round-trips both ways,
and on the wire the two compute the same function (R74, R96; the second round trip is an inference the spec marks "derived: from rule R73 and this rule"). -/
def Obligations.ToByteAnswersTheByteOfTheElement : Prop :=
  (∀ w : CommandWord, opField w = 0x3 → decodeCommand w = .toByte ⟨fieldA w⟩) ∧
  (∀ (s : State) (x : Elem), s.HasActivePort → exec (.toByte x) s = .next (s.answered (.value (.byte x.byte)))) ∧
  (∀ (s : State) (x : Elem), s.HasActivePort →
    ∃ b, Answers (.toByte x) s (.value (.byte b)) ∧ Answers (.fromByte b) s (.value (.elem x))) ∧
  (∀ (s : State) (b : Byte), s.HasActivePort →
    ∃ x, Answers (.fromByte b) s (.value (.elem x)) ∧ Answers (.toByte x) s (.value (.byte b))) ∧
  (∀ b : Byte, (Response.value (.byte b)).toWire = (Response.value (.elem ⟨b⟩)).toWire) ∧
  decodeCommand 0x3AE00 = .toByte ⟨0xAE⟩ ∧ (Response.value (.byte 0xAE)).toWire = 0x0AE

/-- R75: `ADD a, b` answers the bitwise XOR, with no carry between bits and no reduction, and changes nothing else; it is commutative, associative and self-inverse, 0x00 is its
identity and 0xFF complements. -/
def Obligations.AddAnswersTheXor : Prop :=
  (∀ w : CommandWord, opField w = 0x4 → decodeCommand w = .add ⟨fieldA w⟩ ⟨fieldB w⟩) ∧
  (∀ (s : State) (a b : Elem), s.HasActivePort →
    ∃ r : Byte, exec (.add a b) s = .next (s.answered (.value (.elem ⟨r⟩))) ∧
      ∀ k, k < 8 → r.getLsbD k = Bool.xor (a.byte.getLsbD k) (b.byte.getLsbD k)) ∧
  (∀ (s : State) (a b c : Elem), s.HasActivePort →
    (∃ x, Gives (.add a b) s x ∧ Gives (.add b a) s x) ∧
    (∃ x y z, Gives (.add a b) s x ∧ Gives (.add x c) s z ∧ Gives (.add b c) s y ∧ Gives (.add a y) s z) ∧
    Gives (.add a a) s ⟨0x00⟩ ∧ Gives (.add a ⟨0x00⟩) s a ∧ Gives (.add a ⟨0xFF⟩) s ⟨~~~a.byte⟩) ∧
  decodeCommand 0x405AB = .add ⟨0x05⟩ ⟨0xAB⟩ ∧
  (∀ s : State, s.HasActivePort → Gives (.add ⟨0x05⟩ ⟨0xAB⟩) s ⟨0xAE⟩) ∧ (Response.value (.elem ⟨0xAE⟩)).toWire = 0x0AE

/-- R76, R86: `SUB a, b` answers the same as `ADD a, b`, bit by bit the XOR, and changes nothing else; so it is symmetric, every element is its own additive inverse,
and subtracting one summand recovers the other. -/
def Obligations.SubAnswersTheXor : Prop :=
  (∀ w : CommandWord, opField w = 0x5 → decodeCommand w = .sub ⟨fieldA w⟩ ⟨fieldB w⟩) ∧
  (∀ (s : State) (a b : Elem), s.HasActivePort →
    ∃ r : Byte, exec (.sub a b) s = .next (s.answered (.value (.elem ⟨r⟩))) ∧
      (∀ k, k < 8 → r.getLsbD k = Bool.xor (a.byte.getLsbD k) (b.byte.getLsbD k)) ∧
      Gives (.sub b a) s ⟨r⟩ ∧ Gives (.add a b) s ⟨r⟩) ∧
  (∀ (s : State) (a b : Elem), s.HasActivePort →
    Gives (.sub ⟨0x00⟩ b) s b ∧ Gives (.sub a a) s ⟨0x00⟩ ∧
    ∃ x, Gives (.add a b) s x ∧ Gives (.sub x a) s b ∧ Gives (.sub x b) s a) ∧
  decodeCommand 0x5AE05 = .sub ⟨0xAE⟩ ⟨0x05⟩ ∧
  (∀ s : State, s.HasActivePort → Gives (.sub ⟨0xAE⟩ ⟨0x05⟩) s ⟨0xAB⟩) ∧ (Response.value (.elem ⟨0xAB⟩)).toWire = 0x0AB

/-! ### The logarithm and exponentiation operations -/

/-- The pseudocode and corner cases of `LOG` (R77): `LOG a` answers `Absent` for zero and otherwise `log[a]`, the unique `i` in 0..254 with `xexp(i) = a`; both after the tables were ensured and with nothing else
changed. `log` of 0x01, 0x02, 0x80 and `RC` is 0, 1, 7 and 8 under every legal `RC`; for 0x1D `log(0x03) = 25`. -/
def Obligations.LogAnswersTheDiscreteLogarithm : Prop :=
  (∀ w : CommandWord, opField w = 0x6 → decodeCommand w = .log ⟨fieldA w⟩) ∧
  (∀ s : State, s.Available → exec (.log ⟨0x00⟩) s = .next (s.withTables.answered .absent)) ∧
  (∀ (s : State) (a : Elem), s.Available → a.byte ≠ 0x00 →
    ∃ l : Logarithm, exec (.log a) s = .next (s.withTables.answered (.value (.logarithm l))) ∧
      memRead .log a.byte.toNat s.withTables = some (logByte l) ∧ (logByte l).toNat = l.exponent.val ∧
      Gives (.xexp ⟨logByte l⟩) s a ∧ ∀ p : Byte, p.toNat ≤ 254 → Gives (.xexp ⟨p⟩) s a → p = logByte l) ∧
  (∀ s : State, s.Available →
    Answers (.log ⟨0x01⟩) s (.value (.logarithm ⟨0⟩)) ∧ Answers (.log ⟨0x02⟩) s (.value (.logarithm ⟨1⟩)) ∧
    Answers (.log ⟨0x80⟩) s (.value (.logarithm ⟨7⟩)) ∧ Answers (.log ⟨s.config.rc⟩) s (.value (.logarithm ⟨8⟩))) ∧
  (∀ s : State, s.Available → s.config.rc = 0x1D → Answers (.log ⟨0x03⟩) s (.value (.logarithm ⟨25⟩))) ∧
  decodeCommand 0x60300 = .log ⟨0x03⟩ ∧ (Response.value (.logarithm ⟨25⟩)).toWire = 0x019 ∧
  decodeCommand 0x60000 = .log ⟨0x00⟩ ∧ Response.absent.toWire = 0x100

/-- `XEXP power` answers `exp[power]`, the operand itself the index, after the tables were ensured and with nothing else changed. 0 and 255 give 0x01, 1 gives the
generator, `i < 8` gives `2^i`, 8 gives `RC`; no power gives zero and 0..254 give different elements (R78). For `RC = 0x1D`, `XEXP 25` gives 0x03 and `XEXP 254` gives 0x8E, an inference the spec
marks "derived: from this rule and 40_table_construction.md rule R61". -/
def Obligations.XexpAnswersThePowerOfTheGenerator : Prop :=
  (∀ w : CommandWord, opField w = 0x7 → decodeCommand w = .xexp ⟨fieldA w⟩) ∧
  (∀ (s : State) (p : Power), s.Available →
    ∃ v : Byte, exec (.xexp p) s = .next (s.withTables.answered (.value (.elem ⟨v⟩))) ∧
      memRead .exp p.byte.toNat s.withTables = some v ∧ v ≠ 0x00) ∧
  (∀ s : State, s.Available →
    Gives (.xexp ⟨0⟩) s ⟨0x01⟩ ∧ Gives (.xexp ⟨255⟩) s ⟨0x01⟩ ∧ Gives (.xexp ⟨1⟩) s ⟨s.config.gen⟩ ∧
    (∀ i, i < 8 → Gives (.xexp ⟨BitVec.ofNat 8 i⟩) s ⟨BitVec.ofNat 8 (2 ^ i)⟩) ∧ Gives (.xexp ⟨8⟩) s ⟨s.config.rc⟩) ∧
  (∀ (s : State) (p q : Power) (x : Elem), s.Available → p.byte.toNat ≤ 254 → q.byte.toNat ≤ 254 →
    Gives (.xexp p) s x → Gives (.xexp q) s x → p = q) ∧
  (∀ s : State, s.Available → s.config.rc = 0x1D → Gives (.xexp ⟨25⟩) s ⟨0x03⟩ ∧ Gives (.xexp ⟨254⟩) s ⟨0x8E⟩) ∧
  decodeCommand 0x71900 = .xexp ⟨25⟩ ∧ (Response.value (.elem ⟨0x03⟩)).toWire = 0x003 ∧
  decodeCommand 0x7FE00 = .xexp ⟨254⟩ ∧ decodeCommand 0x7FF00 = .xexp ⟨255⟩

/-- The pseudocode of `EXP` (R79): zero for a zero base, the zeroth power included; otherwise `exp[(log[a] * power) mod 255]` on unbounded integers. Both after the
tables were ensured and with nothing else changed. -/
def Obligations.ExpAnswersThePower : Prop :=
  (∀ (s : State) (p : Power), s.Available →
    exec (.exp ⟨0x00⟩ p) s = .next (s.withTables.answered (.value (.elem ⟨0x00⟩)))) ∧
  (∀ (s : State) (a : Elem) (p : Power), s.Available → a.byte ≠ 0x00 →
    ∃ l v : Byte, memRead .log a.byte.toNat s.withTables = some l ∧
      memRead .exp ((l.toNat * p.byte.toNat) % 255) s.withTables = some v ∧
      exec (.exp a p) s = .next (s.withTables.answered (.value (.elem ⟨v⟩)))) ∧
  (∀ (s : State) (a : Elem) (p : Byte), s.Available → a.byte ≠ 0x00 → p.toNat < 255 →
    ∃ x y, Gives (.exp a ⟨p⟩) s x ∧ Gives (.exp a ⟨p + 1⟩) s y ∧ Gives (.mul x a) s y)

/-! ### The multiplicative operations -/

/-- The pseudocode of `MUL` (R80): zero if either operand is zero, otherwise `exp[(log[a] + log[b]) mod 255]` on unbounded integers; nonzero operands give a nonzero product,
and multiplying by 0x02 is `xtime`. All after the tables were ensured and with nothing else changed. -/
def Obligations.MulAnswersTheProduct : Prop :=
  (∀ (s : State) (a b : Elem), s.Available → a.byte = 0x00 ∨ b.byte = 0x00 →
    exec (.mul a b) s = .next (s.withTables.answered (.value (.elem ⟨0x00⟩)))) ∧
  (∀ (s : State) (a b : Elem), s.Available → a.byte ≠ 0x00 → b.byte ≠ 0x00 →
    ∃ la lb v : Byte, memRead .log a.byte.toNat s.withTables = some la ∧
      memRead .log b.byte.toNat s.withTables = some lb ∧
      memRead .exp ((la.toNat + lb.toNat) % 255) s.withTables = some v ∧ v ≠ 0x00 ∧
      exec (.mul a b) s = .next (s.withTables.answered (.value (.elem ⟨v⟩)))) ∧
  (∀ (s : State) (v : Elem), s.Available → Gives (.mul ⟨0x02⟩ v) s ⟨xtime s.config.rc v.byte⟩)

/-- The pseudocode of `DIV` (R81): `DivisionByZero` for a zero divisor whatever the dividend is, else zero for a zero dividend, else
`exp[(log[a] + 255 - log[b]) mod 255]`. All after the tables were ensured and with nothing else changed. -/
def Obligations.DivAnswersTheQuotientOrTheFailure : Prop :=
  (∀ (s : State) (a : Elem), s.Available →
    exec (.div a ⟨0x00⟩) s = .next (s.withTables.answered .divisionByZero)) ∧
  (∀ (s : State) (b : Elem), s.Available → b.byte ≠ 0x00 →
    exec (.div ⟨0x00⟩ b) s = .next (s.withTables.answered (.value (.elem ⟨0x00⟩)))) ∧
  (∀ (s : State) (a b : Elem), s.Available → a.byte ≠ 0x00 → b.byte ≠ 0x00 →
    ∃ la lb v : Byte, memRead .log a.byte.toNat s.withTables = some la ∧
      memRead .log b.byte.toNat s.withTables = some lb ∧
      1 ≤ la.toNat + 255 - lb.toNat ∧ la.toNat + 255 - lb.toNat ≤ 509 ∧
      memRead .exp ((la.toNat + 255 - lb.toNat) % 255) s.withTables = some v ∧
      exec (.div a b) s = .next (s.withTables.answered (.value (.elem ⟨v⟩)))) ∧
  (∀ (s : State) (a : Elem), s.Available → Gives (.div a ⟨0x01⟩) s a ∧ (a.byte ≠ 0x00 → Gives (.div a a) s ⟨0x01⟩))

/-- The pseudocode of `INV` (R82): `Absent` for zero, otherwise `exp[255 - log[a]]` with no `mod`, the index in 1..255 and 255 exactly for 0x01; the result is nonzero and
its own inverse gives `a` back. All after the tables were ensured and with nothing else changed. -/
def Obligations.InvAnswersTheInverse : Prop :=
  (∀ s : State, s.Available → exec (.inv ⟨0x00⟩) s = .next (s.withTables.answered .absent)) ∧
  (∀ (s : State) (a : Elem), s.Available → a.byte ≠ 0x00 →
    ∃ l v : Byte, memRead .log a.byte.toNat s.withTables = some l ∧
      1 ≤ 255 - l.toNat ∧ (255 - l.toNat = 255 ↔ a.byte = 0x01) ∧
      memRead .exp (255 - l.toNat) s.withTables = some v ∧ v ≠ 0x00 ∧
      exec (.inv a) s = .next (s.withTables.answered (.value (.elem ⟨v⟩))) ∧ Gives (.inv ⟨v⟩) s a)

/-! ### Laws -/

/-- `mul(a, b)` is the product of the polynomials `a` and `b` reduced modulo `x^8 + RC`: the XOR over the set bits `i` of `b` of `xtime^i(a)`, for all pairs and every
legal `RC` (R85, an inference the spec marks "derived: from 44_multiplicative_ops.md rule R80 and 40_table_construction.md rule R61"). -/
def Obligations.MulIsThePolynomialProduct : Prop :=
  ∀ (s : State) (a b : Elem), s.Available → Gives (.mul a b) s ⟨clmul s.config.rc a.byte b.byte⟩

/-- R87: dividing a product by a nonzero factor recovers the other. -/
def Obligations.DivisionRecoversAFactor : Prop :=
  ∀ (s : State) (a b : Elem), s.Available → ∃ x, Gives (.mul a b) s x ∧
    (a.byte ≠ 0x00 → Gives (.div x a) s b) ∧ (b.byte ≠ 0x00 → Gives (.div x b) s a)

/-- R89: `mul(a, add(b,c)) == add(mul(a,b), mul(a,c))`. -/
def Obligations.MulDistributesOverAdd : Prop :=
  ∀ (s : State) (a b c : Elem), s.Available → ∃ d x y z, Gives (.add b c) s d ∧ Gives (.mul a d) s z ∧
    Gives (.mul a b) s x ∧ Gives (.mul a c) s y ∧ Gives (.add x y) s z

/-- R90: `add` and `mul` are commutative. -/
def Obligations.AddAndMulCommute : Prop :=
  ∀ (s : State) (a b : Elem), s.Available →
    (∃ x, Gives (.add a b) s x ∧ Gives (.add b a) s x) ∧ ∃ x, Gives (.mul a b) s x ∧ Gives (.mul b a) s x

/-- R91: `add` and `mul` are associative. -/
def Obligations.AddAndMulAssociate : Prop :=
  ∀ (s : State) (a b c : Elem), s.Available →
    (∃ x y z, Gives (.add a b) s x ∧ Gives (.add x c) s z ∧ Gives (.add b c) s y ∧ Gives (.add a y) s z) ∧
    ∃ x y z, Gives (.mul a b) s x ∧ Gives (.mul x c) s z ∧ Gives (.mul b c) s y ∧ Gives (.mul a y) s z

/-- R92: for `a != zero()`, `mul(a, inv(a).value()) == one()`; `inv(zero())` is absent. -/
def Obligations.InverseTimesElementIsOne : Prop :=
  (∀ (s : State) (a : Elem), s.Available → a.byte ≠ 0x00 → ∃ w, Gives (.inv a) s w ∧ Gives (.mul a w) s ⟨0x01⟩) ∧
  ∀ s : State, s.Available → Answers (.inv ⟨0x00⟩) s .absent

/-- R93, R94: the 255th and the zeroth power of a nonzero element are one; every power of zero, the zeroth included, is zero. -/
def Obligations.PowersAtTheCorners : Prop :=
  (∀ (s : State) (a : Elem), s.Available → a.byte ≠ 0x00 →
    Gives (.exp a ⟨255⟩) s ⟨0x01⟩ ∧ Gives (.exp a ⟨0⟩) s ⟨0x01⟩) ∧
  ∀ (s : State) (p : Power), s.Available → Gives (.exp ⟨0x00⟩ p) s ⟨0x00⟩

/-- The identities of `add` and `mul`, self-inverse addition, and the absorbing zero (R95, two of them inferences the spec marks as derived from R75 and R80). -/
def Obligations.IdentitiesOfAddAndMul : Prop :=
  ∀ (s : State) (a : Elem), s.Available →
    Gives (.add a ⟨0x00⟩) s a ∧ Gives (.add a a) s ⟨0x00⟩ ∧ Gives (.mul a ⟨0x01⟩) s a ∧ Gives (.mul ⟨0x01⟩ a) s a ∧
    Gives (.mul a ⟨0x00⟩) s ⟨0x00⟩ ∧ Gives (.mul ⟨0x00⟩ a) s ⟨0x00⟩

/-- For a nonzero element, `INV` answers the entry `inv[a]` of `INV_T`, whether the index of R82 is reduced modulo 255 or not, and that entry times `a` is one (R97, an inference the spec marks
"derived: from 44_multiplicative_ops.md rule R82, 40_table_construction.md rule R63 and 10_state.md rule R19 (I-e)"). -/
def Obligations.InvAnswersTheInvTableEntry : Prop :=
  ∀ (s : State) (a : Elem), s.Available → a.byte ≠ 0x00 →
    ∃ l w : Byte, memRead .log a.byte.toNat s.withTables = some l ∧ memRead .inv a.byte.toNat s.withTables = some w ∧
      memRead .exp (255 - l.toNat) s.withTables = some w ∧ memRead .exp ((255 - l.toNat) % 255) s.withTables = some w ∧
      Gives (.inv a) s ⟨w⟩ ∧ Gives (.mul ⟨w⟩ a) s ⟨0x01⟩

/-- R98: `xexp(log(a)) == a` for nonzero `a`, `log(xexp(i)) == i` for `i` in 0..254, and `log(xexp(255)) == 0`. -/
def Obligations.LogAndXexpAreInverse : Prop :=
  (∀ (s : State) (a : Elem), s.Available → a.byte ≠ 0x00 →
    ∃ l : Logarithm, Answers (.log a) s (.value (.logarithm l)) ∧ Gives (.xexp ⟨logByte l⟩) s a) ∧
  (∀ (s : State) (i : Logarithm), s.Available →
    ∃ x, Gives (.xexp ⟨logByte i⟩) s x ∧ Answers (.log x) s (.value (.logarithm i))) ∧
  ∀ s : State, s.Available → ∃ x, Gives (.xexp ⟨255⟩) s x ∧ Answers (.log x) s (.value (.logarithm ⟨0⟩))

/-- R88, R102: `div(x, zero())` is `DivisionByZero` for every `x`, zero included, while `INV 0x00` is `Absent`, and neither has the other's status; although for nonzero `b` the quotient
`div(one(), b)` is `inv(b)`. -/
def Obligations.DivAndInvTreatZeroDifferently : Prop :=
  (∀ s : State, s.Available →
    (∀ x : Elem, Answers (.div x ⟨0x00⟩) s .divisionByZero ∧ ¬ Answers (.div x ⟨0x00⟩) s .absent) ∧
    Answers (.inv ⟨0x00⟩) s .absent ∧ ¬ Answers (.inv ⟨0x00⟩) s .divisionByZero ∧
    Response.divisionByZero.status ≠ Response.absent.status) ∧
  ∀ (s : State) (b : Elem), s.Available → b.byte ≠ 0x00 → ∃ w, Gives (.div ⟨0x01⟩ b) s w ∧ Gives (.inv b) s w

/-- The ranges of R83, row by row: the integer each operation computes before reduction is the one the spec writes, never leaves its range, and reaches both ends of it; and the index `EXP_T` is read at is
that integer modulo 255, in 0..254, or for `INV` the integer itself, in 1..255, and for `XEXP` the operand, in 0..255 (R84). Both are inferences the spec marks "derived: from log in 0..254 and power in
0..255" and "derived: from rule R83". -/
def Obligations.ExponentIndicesStayInsideTheTable : Prop :=
  (∀ (la : Logarithm) (p : Power),
    (expSum la p = la.exponent.val * p.byte.toNat ∧ 0 ≤ expSum la p ∧ expSum la p ≤ 64770) ∧
    expIndex 255 la p = expSum la p % 255 ∧ expIndex 255 la p ≤ 254) ∧
  (∀ la lb : Logarithm,
    (mulSum la lb = la.exponent.val + lb.exponent.val ∧ 0 ≤ mulSum la lb ∧ mulSum la lb ≤ 508) ∧
    mulIndex 255 la lb = mulSum la lb % 255 ∧ mulIndex 255 la lb ≤ 254) ∧
  (∀ la lb : Logarithm,
    ((divSum 255 la lb : Int) = (la.exponent.val : Int) + 255 - (lb.exponent.val : Int) ∧
      1 ≤ divSum 255 la lb ∧ divSum 255 la lb ≤ 509) ∧
    divIndex 255 la lb = divSum 255 la lb % 255 ∧ divIndex 255 la lb ≤ 254) ∧
  (∀ la : Logarithm,
    (invIndex 255 la : Int) = 255 - (la.exponent.val : Int) ∧ 1 ≤ invIndex 255 la ∧ invIndex 255 la ≤ 255) ∧
  (∀ l : Logarithm,
    ((buildInvSum l : Int) = 255 - (l.exponent.val : Int) ∧ 1 ≤ buildInvSum l ∧ buildInvSum l ≤ 255) ∧
    buildInvIndex l = buildInvSum l % 255 ∧ buildInvIndex l ≤ 254) ∧
  (∀ p : Power, p.byte.toNat ≤ 255) ∧
  (expSum ⟨0⟩ ⟨0⟩ = 0 ∧ expSum ⟨254⟩ ⟨255⟩ = 64770) ∧ (mulSum ⟨0⟩ ⟨0⟩ = 0 ∧ mulSum ⟨254⟩ ⟨254⟩ = 508) ∧
  (divSum 255 ⟨0⟩ ⟨254⟩ = 1 ∧ divSum 255 ⟨254⟩ ⟨0⟩ = 509) ∧ (invIndex 255 ⟨254⟩ = 1 ∧ invIndex 255 ⟨0⟩ = 255) ∧
  (buildInvSum ⟨254⟩ = 1 ∧ buildInvSum ⟨0⟩ = 255)

/-! ### The tables -/

/-- R59: `xtime` shifts every bit up one, bit 0 becoming 0, and XORs `RC` in when bit 7 was set. -/
def Obligations.XtimeMultipliesByX : Prop :=
  (∀ rc v : Byte, ∀ k, k < 8 →
    (xtime rc v).getLsbD k =
      Bool.xor (decide (1 ≤ k) && v.getLsbD (k - 1)) (v.getLsbD 7 && rc.getLsbD k)) ∧
  (∀ rc : Byte, xtime rc 0x00 = 0x00 ∧ xtime rc 0x80 = rc) ∧
  (∀ rc v : Byte, v.toNat < 0x80 → (xtime rc v).toNat = 2 * v.toNat) ∧
  xtime 0x1D 0x80 = 0x1D ∧ xtime 0x1D 0xE8 = 0xCD ∧ xtime 0x1D 0x74 = 0xE8

/-- The sixteen legal reduction constants are exactly the bytes under which the orbit of 0x01 has length 255 (R7, which the spec marks "derived: by running 40_table_construction.md rule R59 for each of the 256
candidate bytes"). -/
def Obligations.LegalReductionConstantsAreThePrimitiveOnes : Prop :=
  Config.legalRcs.length = 16 ∧
  ∀ rc : Byte, rc ∈ Config.legalRcs ↔ xtimes rc 255 0x01 = 0x01 ∧ ∀ n, 0 < n → n < 255 → xtimes rc n 0x01 ≠ 0x01

/-- What R15 says of `EXP_T`, two facts of it inferences the spec marks as derived from R59 and R61: `exp[i]` is the generator raised to `i` by repeated multiplication for `i` in 0..254, and `exp[255] = exp[0] = 0x01`; all entries are nonzero, `exp[0..254]` are the
nonzero bytes, each once; `exp[0..7]` are the powers of two and `exp[8] = RC`. -/
def Obligations.ExpTableHoldsThePowersOfTheGenerator : Prop :=
  (∀ c : Config, c.legal = true →
    ∀ i, i ≤ 254 → (buildTables c.rc).expT.read i = some (elemPow c.rc ⟨c.gen⟩ i).byte) ∧
  ∀ rc ∈ Config.legalRcs,
    (buildTables rc).expT.read 0 = some 0x01 ∧ (buildTables rc).expT.read 255 = some 0x01 ∧
    (∀ i, i ≤ 255 → ∃ v, (buildTables rc).expT.read i = some v ∧ v ≠ 0x00) ∧
    (∀ v : Byte, v ≠ 0x00 → ∃ i, i ≤ 254 ∧ (buildTables rc).expT.read i = some v ∧
      ∀ j, j ≤ 254 → (buildTables rc).expT.read j = some v → j = i) ∧
    (∀ i, i ≤ 7 → (buildTables rc).expT.read i = some (BitVec.ofNat 8 (2 ^ i))) ∧
    (buildTables rc).expT.read 8 = some rc

/-- What R16 says of `LOG_T`, the values at 0x01, the powers of two and `RC` inferences the spec marks as derived: `log[v]` is the unique `i` in 0..254 with `exp[i] = v`, for every nonzero `v`, and a bijection onto 0..254; `log[0]` has no value; `log[0x01] = 0`, `log[2^i] = i`
and `log[RC] = 8`. -/
def Obligations.LogTableInvertsTheExpTable : Prop :=
  ∀ rc ∈ Config.legalRcs,
    (∀ v : Byte, v ≠ 0x00 → ∃ l : Byte, (buildTables rc).logT.read v.toNat = some l ∧ l.toNat ≤ 254 ∧
      (buildTables rc).expT.read l.toNat = some v ∧
      ∀ j, j ≤ 254 → (buildTables rc).expT.read j = some v → j = l.toNat) ∧
    (∀ l : Byte, l.toNat ≤ 254 → ∃ v : Byte, v ≠ 0x00 ∧ (buildTables rc).logT.read v.toNat = some l ∧
      ∀ u : Byte, (buildTables rc).logT.read u.toNat = some l → u = v) ∧
    (buildTables rc).logT.read 0 = none ∧ (buildTables rc).logT.read 1 = some 0 ∧
    (∀ i, i ≤ 7 → (buildTables rc).logT.read (2 ^ i) = some (BitVec.ofNat 8 i)) ∧
    (buildTables rc).logT.read rc.toNat = some 8

/-- What R17 and R63 say of `INV_T`, the involution and its one fixed point inferences the spec marks as derived: `inv[v]` is the multiplicative inverse of `v` in polynomial multiplication, for every nonzero `v`; the entries are nonzero, `inv[inv[v]] = v`, `inv[v] = v` for
0x01 alone, and `inv[0]` has no value. -/
def Obligations.InvTableHoldsTheInverses : Prop :=
  ∀ rc ∈ Config.legalRcs,
    (∀ v : Byte, v ≠ 0x00 → ∃ w : Byte, (buildTables rc).invT.read v.toNat = some w ∧ w ≠ 0x00 ∧ clmul rc v w = 0x01 ∧
      (buildTables rc).invT.read w.toNat = some v ∧ (w = v ↔ v = 0x01)) ∧
    (buildTables rc).invT.read 1 = some 0x01 ∧ (buildTables rc).invT.read 0 = none

/-- What R19 says holds of the tables whenever `TBL_VALID = 1`: `exp[log[v]] = v`, `log[exp[i]] = i mod 255` for `i` in 0..255, `inv[v] * v` is one by the `MUL` command of an available state, and
`exp[255] = exp[0] = 0x01`. -/
def Obligations.TableInvariantsHoldOnceValid : Prop :=
  ∀ s : State, s.Inv → s.tblValid = true →
    (∀ v : Byte, v ≠ 0x00 → ∃ l : Byte, memRead .log v.toNat s = some l ∧ memRead .exp l.toNat s = some v) ∧
    (∀ i, i ≤ 255 → ∃ v : Byte, memRead .exp i s = some v ∧ memRead .log v.toNat s = some (BitVec.ofNat 8 (i % 255))) ∧
    (∀ v : Byte, v ≠ 0x00 → ∃ w : Byte, memRead .inv v.toNat s = some w ∧ Gives (.mul ⟨w⟩ ⟨v⟩) s ⟨0x01⟩) ∧
    memRead .exp 255 s = some 0x01 ∧ memRead .exp 0 s = some 0x01

/-- Construction (R34, R64, R65; that every entry is written once is an inference the spec marks as derived from R61) writes an entry that has no value yet at every write, two a step while it fills and one a step after; in the end 766 entries are written, 256, 255 and
255, and `log[0]` and `inv[0]` are not among them. -/
def Obligations.ConstructionWritesEveryEntryOnce : Prop :=
  ∀ rc ∈ Config.legalRcs,
    (∀ n T i v, ((buildAfter rc n).2.get T).read i = some v → ((buildAfter rc (n + 1)).2.get T).read i = some v) ∧
    (∀ n, ((buildAfter rc (n + 1)).2.expT.length + (buildAfter rc (n + 1)).2.logT.length + (buildAfter rc (n + 1)).2.invT.length) =
      ((buildAfter rc n).2.expT.length + (buildAfter rc n).2.logT.length + (buildAfter rc n).2.invT.length) +
        match (buildAfter rc n).1 with
        | .fill _ _ => 2
        | .duplicate => 1
        | .invert _ => 1
        | .publish => 0) ∧
    (buildTables rc).expT.length = 256 ∧ (buildTables rc).logT.length = 255 ∧ (buildTables rc).invT.length = 255 ∧
    (buildTables rc).logT.read 0 = none ∧ (buildTables rc).invT.read 0 = none

/-- The facts about the built tables that every legal `RC` shares; and every other entry depends on `RC`: two legal values give it different bytes (R70, inferences the spec marks
"derived: from rule R59 and rule R61"). -/
def Obligations.TableFactsSharedByEveryReductionConstant : Prop :=
  (∀ rc ∈ Config.legalRcs,
    (∀ i, i ≤ 7 → (buildTables rc).expT.read i = some (BitVec.ofNat 8 (2 ^ i)) ∧
      (buildTables rc).logT.read (2 ^ i) = some (BitVec.ofNat 8 i)) ∧
    (buildTables rc).expT.read 8 = some rc ∧ (buildTables rc).expT.read 9 = some (xtime rc rc) ∧
    (buildTables rc).expT.read 254 = (buildTables rc).invT.read 2 ∧
    (buildTables rc).expT.read 254 = some (((0x01 ^^^ rc) >>> 1) ||| 0x80) ∧
    xtime rc (((0x01 ^^^ rc) >>> 1) ||| 0x80) = 0x01 ∧ rc.getLsbD 0 = true ∧
    (buildTables rc).expT.read 255 = some 0x01 ∧ (buildTables rc).logT.read rc.toNat = some 8 ∧
    (buildTables rc).invT.read 1 = some 0x01) ∧
  (buildTables 0x1D).expT.read 254 = some 0x8E ∧
  (∀ i, 8 ≤ i → i ≤ 254 → ∃ rc ∈ Config.legalRcs, ∃ rc' ∈ Config.legalRcs,
    (buildTables rc).expT.read i ≠ (buildTables rc').expT.read i) ∧
  (∀ v, 1 ≤ v → v ≤ 255 → v ∉ [1, 2, 4, 8, 16, 32, 64, 128] → ∃ rc ∈ Config.legalRcs, ∃ rc' ∈ Config.legalRcs,
    (buildTables rc).logT.read v ≠ (buildTables rc').logT.read v) ∧
  ∀ v, 2 ≤ v → v ≤ 255 → ∃ rc ∈ Config.legalRcs, ∃ rc' ∈ Config.legalRcs,
    (buildTables rc).invT.read v ≠ (buildTables rc').invT.read v

/-- The two forms of construction the spec admits agree (R26, D18): 511 write steps from the start, taken one by one, reach the publish step with exactly the tables of `Build()`. -/
def Obligations.BuildingStepByStepEqualsBuildingAtOnce : Prop :=
  ∀ rc : Byte, buildAfter rc 511 = (.publish, buildTables rc)

/-! ### EnsureTables, completion and frames -/

/-- R66, in the model's turns (the granularity is the model's choice, notes/assumptions/6.md and 7.md): a command that needs the tables, while they do not exist, runs as if `Build()` had been done
(atomic grain), or wins the guard, or carries its own construction one step on, or waits for another builder with nothing changed. -/
def Obligations.EnsureTablesBuildsOrHolds : Prop :=
  ∀ (i : Instr) (s : State), needsTables i = true → s.tblValid = false →
    (s.builder = none → s.config.grain = .atomic → exec i s = exec i (build s)) ∧
    (s.builder = none → s.config.grain = .stepwise → exec i s = .next (claimBuild s)) ∧
    (∀ b, s.builder = some b → b.port = s.active → exec i s = .next (advanceBuild b s)) ∧
    (∀ b, s.builder = some b → b.port ≠ s.active → exec i s = .next s)

/-- `LOG`, `XEXP`, `EXP`, `MUL`, `DIV`, `INV` build the tables if they do not exist, whatever their operands are, before they are answered; the other commands never do, and leave the tables as
they were (R68; that operands do not matter is decision D16 of the spec, notes/assumptions/14.md). -/
def Obligations.ExactlySixCommandsEnsureTheTables : Prop :=
  (∀ i : Instr, needsTables i = true ↔
    (∃ a, i = .log a) ∨ (∃ p, i = .xexp p) ∨ (∃ a p, i = .exp a p) ∨ (∃ a b, i = .mul a b) ∨ (∃ a b, i = .div a b) ∨
      ∃ a, i = .inv a) ∧
  (∀ (i : Instr) (s : State), s.Available →
    ∃ t, exec i s = .next t ∧ t.tblValid = (s.tblValid || needsTables i) ∧
      t.tables = if needsTables i then buildTables s.config.rc else s.tables) ∧
  ∀ (i : Instr) (s : State), needsTables i = false → s.HasActivePort →
    ∃ r, exec i s = .next (s.answered r)

/-- The response to a command is a function of the command and of `RC` alone. In any two states with the same `RC` whose existing tables are sound, if the command is answered in both, the responses are the same, whatever their
`TBL_VALID`, `TABLE_INIT`, `NPORTS`, active port, other ports, builder and earlier responses are; and an available state does answer (R40, an inference the spec marks as derived from R39, R66, R67 and R71 to R82). -/
def Obligations.ResponseDependsOnCommandAndRcAlone : Prop :=
  (∀ (i : Instr) (s t : State) (r r' : Response), s.TablesSound → t.TablesSound → s.config.rc = t.config.rc →
    RepliesWith i s r → RepliesWith i t r' → r = r') ∧
  ∀ (i : Instr) (s : State), s.Available → ∃ r, RepliesWith i s r

/-- Every command of the table-driven machine answers what field arithmetic without tables answers: products of polynomials, repeated products, and a searched logarithm (R85, R79 (h), R77, R17). -/
def Obligations.TableMachineComputesFieldArithmetic : Prop :=
  ∀ (i : Instr) (s : State), s.Available → Answers i s (reference s.config.rc i)

/-- What a command leaves unchanged when it gives a next state (R20, R21, R24, R55, R116): the configuration, the schedule and the turn; every other port; the active port's queue; and the tables, `TBL_VALID` and `BUILDING`
unless the command needs the tables and they do not exist. The active port gains exactly one response and has nothing in progress; it stays as it was only where the command is held, which takes a command that needs tables that do not exist (R66). -/
def Obligations.FrameOfEveryCommand : Prop :=
  ∀ (i : Instr) (s t : State), exec i s = .next t →
    t.config = s.config ∧ t.schedule = s.schedule ∧ t.active = s.active ∧ t.ports.length = s.ports.length ∧
    (∀ p, p ≠ s.active → t.ports[p]? = s.ports[p]?) ∧
    (t.ports = s.ports ∧ needsTables i = true ∧ s.tblValid = false ∨
      ∃ q r, s.ports[s.active]? = some q ∧
        t.ports[s.active]? = some ⟨q.queue, none, q.responses ++ [r]⟩) ∧
    (needsTables i = false ∨ s.tblValid = true →
      t.tables = s.tables ∧ t.tblValid = s.tblValid ∧ t.builder = s.builder ∧
      ∀ T k, (t.tables.get T).read k = (s.tables.get T).read k)

/-- No command reads `log[0]` or `inv[0]` (R35, R124), and, by the model's choice (notes/assumptions/13.md; the spec admits an `INV` that reads `INV_T`, D17), none reads any other entry of `INV_T`: whatever stood there,
its outcome would be the same, with those entries carried along. -/
def Obligations.ForbiddenEntriesAreNeverRead : Prop :=
  ∀ (i : Instr) (s : State) (x : Byte) (m : Memory), s.tblValid = true →
    exec i { s with tables := ⟨s.tables.expT, s.tables.logT.write 0 x, m⟩ } =
      match exec i s with
      | .next t => .next { t with tables := ⟨t.tables.expT, t.tables.logT.write 0 x, m⟩ }
      | .fault f => .fault f
      | .refused r => .refused r

/-- R109 to R111: a division by zero is delivered on its own port and is not sticky: afterwards the tables exist, the state is available again, and every command, on the same or on any other port, is answered as it would
have been. -/
def Obligations.FailureIsNotSticky : Prop :=
  ∀ (s : State) (a : Elem), s.Available →
    ∃ t, exec (.div a ⟨0x00⟩) s = .next t ∧ t = s.withTables.answered .divisionByZero ∧ t.Available ∧ t.tblValid = true ∧
      (∀ i r, Answers i s r ↔ Answers i t r) ∧
      ∀ (p : Nat) (ts : List Turn), p < s.ports.length →
        (p ≠ s.active → t.ports[p]? = s.ports[p]?) ∧ (t.turnOf p ts).Available ∧
        ∀ i r, Answers i (s.turnOf p ts) r ↔ Answers i (t.turnOf p ts) r

/-! ### Steps -/

/-- R23, R55: when a port without a command in progress has the turn, a step takes its oldest command, decodes it and runs it, with the port's turn used up. So does a step after `withFetchWord` (the
model's way to present a command, notes/assumptions/10.md). -/
def Obligations.StepRunsTheDecodedCommand : Prop :=
  (∀ (s : State) (p : Nat) (ts : List Turn) (q : Port) (w : CommandWord) (ws : List CommandWord),
    s.config.legal = true → s.schedule = .port p :: ts → s.ports[p]? = some q → q.inProgress = none → q.queue = w :: ws →
    ∃ u : State, step s = exec (decodeCommand w) u ∧
      u.config = s.config ∧ u.tables = s.tables ∧ u.tblValid = s.tblValid ∧ u.builder = s.builder ∧
      u.schedule = ts ∧ u.active = p ∧ u.ports.length = s.ports.length ∧
      u.ports[p]? = some ⟨ws, some (decodeCommand w), q.responses⟩ ∧ ∀ p', p' ≠ p → u.ports[p']? = s.ports[p']?) ∧
  ∀ (s : State) (nbits w : Nat), s.config.legal = true → w % 2 ^ nbits < 2 ^ 20 →
    ∃ (i : Instr) (u : State), decodeTableWord nbits w = some i ∧ step (s.withFetchWord nbits w) = exec i u ∧
      u.config = s.config ∧ u.tables = s.tables ∧ u.tblValid = s.tblValid ∧ u.builder = s.builder ∧
      u.schedule = s.schedule ∧ u.active = 0 ∧ ∃ q, u.ports[0]? = some q ∧ q.inProgress = some i

/-- The other turns, in the model's schedule (its own choice, notes/assumptions/3.md, 5.md, 16.md): a command in progress goes on before a new one is taken (R55); a port with nothing to do, and an empty schedule, leave the
machine as it is; a port that does not exist, and a configuration for which no machine exists (R6, R7), are refused; and a reset leaves the commands presented and the responses delivered, which lie outside the engine
(notes/assumptions/15.md). -/
def Obligations.TurnsThatTakeNoCommand : Prop :=
  (∀ (s : State) (p : Nat) (ts : List Turn) (q : Port) (i : Instr),
    s.config.legal = true → s.schedule = .port p :: ts → s.ports[p]? = some q → q.inProgress = some i →
    step s = exec i { s with schedule := ts, active := p }) ∧
  (∀ (s : State) (p : Nat) (ts : List Turn) (q : Port),
    s.config.legal = true → s.schedule = .port p :: ts → s.ports[p]? = some q → q.inProgress = none → q.queue = [] →
    step s = .next { s with schedule := ts, active := p }) ∧
  (∀ s : State, s.config.legal = true → s.schedule = [] → step s = .next s) ∧
  (∀ (s : State) (p : Nat) (ts : List Turn),
    s.config.legal = true → s.schedule = .port p :: ts → s.ports.length ≤ p → step s = .refused (.noSuchPort p)) ∧
  (∀ s : State,
    (s.config.rc ∉ Config.legalRcs ∨ s.config.nports = 0 ∨ s.config.width ≠ 8 ∨ s.config.nEntries ≠ 256 ∨
      s.config.groupOrder ≠ 255 ∨ s.config.gen ≠ 0x02) →
    step s = .refused .illegalConfiguration) ∧
  (∀ (s t : State) (ts : List Turn), s.config.legal = true → s.schedule = .reset :: ts → step s = .next t →
    t.active = s.active ∧ t.schedule = ts ∧ t.ports.length = s.ports.length ∧
      ∀ (p : Nat) (q : Port), s.ports[p]? = some q → t.ports[p]? = some ⟨q.queue, none, q.responses⟩)

/-- R118 to R120 (D19, D32): a reset abandons every command in progress without a response, clears `BUILDING`, and leaves `TBL_VALID = 0` with no readable entry under lazy construction, and `TBL_VALID = 1` with the built tables
under constant tables. -/
def Obligations.ResetRestoresTheEngine : Prop :=
  ∀ (s : State) (ts : List Turn), s.config.legal = true → s.schedule = .reset :: ts →
    ∃ t, step s = .next t ∧ t.config = s.config ∧ t.building = false ∧
      (∀ (p : Nat) (q : Port), s.ports[p]? = some q →
        ∃ q', t.ports[p]? = some q' ∧ q'.inProgress = none ∧ q'.responses.length ≤ q.responses.length) ∧
      (s.config.tableInit = .lazy → t.tblValid = false ∧
        ∀ T i, memRead T i t = none ∧ (t.tables.get T).read i = none) ∧
      (s.config.tableInit = .constant → t.tblValid = true ∧ t.tables = buildTables s.config.rc) ∧
      (s.Inv → s.config.tableInit = .constant → t.tables = s.tables)

/-- R48, R55: every command gets exactly one response: no step but a reset changes, on any port, the number of commands waiting, in progress and answered taken together, and responses once produced stay. -/
def Obligations.EveryCommandGetsExactlyOneResponse : Prop :=
  ∀ (s t : State), step s = .next t → s.schedule.head? ≠ some .reset →
    ∀ (p : Nat) (q : Port), s.ports[p]? = some q →
      ∃ q', t.ports[p]? = some q' ∧
        q'.queue.length + q'.inProgress.toList.length + q'.responses.length =
          q.queue.length + q.inProgress.toList.length + q.responses.length ∧
        (q'.responses = q.responses ∨ ∃ r, q'.responses = q.responses ++ [r]) ∧
        (q'.queue = q.queue ∨ ∃ w, q.queue = w :: q'.queue ∧ q.inProgress = none)

/-- What R21 says: between two resets every entry is written at most once, and only while `TBL_VALID = 0`: a step that is no reset keeps every entry that has a value, and changes no table at all once `TBL_VALID = 1`, which then
stays. -/
def Obligations.TablesAreWriteOnceThenImmutable : Prop :=
  ∀ (s t : State), s.Inv → step s = .next t → s.schedule.head? ≠ some .reset →
    (∀ T i v, (s.tables.get T).read i = some v → (t.tables.get T).read i = some v) ∧
    (s.tblValid = true → t.tables = s.tables ∧ t.tblValid = true)

/-- Every step keeps the invariant of the machine (R7, R19 to R21, R26, R55, R67, R69), resets included. -/
def Obligations.EveryStepKeepsTheInvariant : Prop :=
  ∀ (s t : State), s.Inv → step s = .next t → t.Inv

/-- The machine meets the invariant after reset under every legal configuration, and no port has a command in progress; the reset of the default one is `State.reset`, with the reset values of R27 and no port busy (R118, R119). That the defaults have one port and
the atomic grain is the model's choice (notes/assumptions/2.md, 6.md). -/
def Obligations.ResetMeetsTheInvariant : Prop :=
  (∀ c : Config, c.legal = true → (State.resetFor c).Inv) ∧
  (∀ c : Config, ∀ q ∈ (State.resetFor c).ports, q.inProgress = none) ∧ (∀ q ∈ State.reset.ports, q.inProgress = none) ∧
  State.reset = State.resetFor Config.default ∧
  State.reset.tblValid = false ∧ State.reset.building = false ∧ ∀ T i, memRead T i State.reset = none

/-- From every state that meets the invariant a step never faults, so no entry without a value is ever read (R18, R35, R103, R124); and it is refused only where the turn is for a port that does not exist, a refusal that is the model's choice (notes/assumptions/16.md). -/
def Obligations.NoStepFaults : Prop :=
  ∀ s : State, s.Inv → SafeStep s ∧
    ((∀ p ts, s.schedule = .port p :: ts → p < s.ports.length) → ∃ t, step s = .next t)

/-- Every step keeps the tables in canonical form, indices strictly rising and below `NENTRIES` (R28), from every state that has it, whether or not a run reaches it; and so does the reset state of every legal configuration. -/
def Obligations.StepsKeepTheTablesCanonical : Prop :=
  (∀ s t : State, s.Canonical → step s = .next t → t.Canonical) ∧
  ∀ c : Config, c.legal = true → (State.resetFor c).Canonical

/-- R123, R126, R130: construction shown turn by turn ends, whatever turns of other ports stand between the builder's. From an invariant state with no tables and no builder, a port that presents a table command builds them:
by its 514th turn they exist and its command is answered. And in any invariant state, where every port keeps being scheduled, 512 turns of each are enough for whichever port builds to publish, and a table command presented
before them is answered by its port's next turn; it gets the response that field arithmetic gives, waiting changes none. (The numbers of turns are the model's, notes/assumptions/7.md.) -/
def Obligations.ConstructionEndsAndTheCommandIsAnswered : Prop :=
  (∀ (s : State) (p : Nat) (q : Port) (w : CommandWord) (ws : List CommandWord) (l ts : List Turn),
    s.Inv → s.config.grain = .stepwise → s.tblValid = false → s.builder = none →
    s.ports[p]? = some q → q.inProgress = none → q.queue = w :: ws → needsTables (decodeCommand w) = true →
    s.schedule = .port p :: (l ++ ts) → (∀ a ∈ l, ∃ r, r < s.ports.length ∧ a = .port r) → l.count (.port p) = 513 →
    ∃ t, steps (l.length + 1) s = .next t ∧ t.tblValid = true ∧ t.building = false ∧
      t.tables = buildTables s.config.rc ∧ t.schedule = ts ∧
      t.ports[p]? = some ⟨ws, none, q.responses ++ [reference s.config.rc (decodeCommand w)]⟩) ∧
  ∀ (s : State) (p : Nat) (q : Port) (w : CommandWord) (ws : List CommandWord) (l ts : List Turn),
    s.Inv → s.ports[p]? = some q → q.inProgress = none → q.queue = w :: ws → needsTables (decodeCommand w) = true →
    s.schedule = .port p :: (l ++ .port p :: ts) → (∀ a ∈ l, ∃ r, r < s.ports.length ∧ a = .port r) →
    (∀ r, r < s.ports.length → 512 ≤ l.count (.port r)) →
    ∃ t, steps (l.length + 2) s = .next t ∧ t.tblValid = true ∧ t.building = false ∧
      t.tables = buildTables s.config.rc ∧ t.schedule = ts ∧
      ∃ q' more, t.ports[p]? = some q' ∧
        q'.responses = q.responses ++ reference s.config.rc (decodeCommand w) :: more

/-! ### The host's notation -/

/-- The assembly syntax and the program notation of the host, outside the engine (R56, R58, D29): the twelve mnemonics give their `OP`, in either case and with operands in hexadecimal or decimal, every byte in either; an omitted operand is
encoded as 0; case does not matter and what follows `;` does not either. A named result is its `VALUE` byte, and where the named response is none, or the last response was a failure or illegal, no further word is presented. The model's choices
(notes/assumptions/21.md): a line with another number of operands gives no word, and a later response under a name replaces the earlier. -/
def Obligations.HostNotationGivesTheCommandWord : Prop :=
  (∀ (env : List (List Char × Response)) (n : Option (List Char)) (op : BitVec 4) (a b : Byte),
    lineWord env ⟨n, op, []⟩ = some (commandWord op 0 0) ∧
    lineWord env ⟨n, op, [.literal a]⟩ = some (commandWord op a 0) ∧
    lineWord env ⟨n, op, [.literal a, .literal b]⟩ = some (commandWord op a b)) ∧
  ["ZERO", "ONE", "FROM_BYTE 0x4B", "TO_BYTE 0xAE", "ADD 0x05, 0xAB", "SUB 0xAE, 0x05", "LOG 0x03", "XEXP 0x19",
    "EXP 0x03, 0xFE", "MUL 0x02, 0x80", "DIV 0x05, 0x00", "INV 0x8E"].map assemble =
    [some 0x00000, some 0x10000, some 0x24B00, some 0x3AE00, some 0x405AB, some 0x5AE05, some 0x60300, some 0x71900,
      some 0x803FE, some 0x90280, some 0xA0500, some 0xB8E00] ∧
  ["zero", "one ; no operand", "from_byte 75", "to_byte 174", "add 5, 171", "sub 174, 5", "log 3", "xexp 25",
    "exp 3, 254", "mul 2, 128 ; comment", "Div 5, 0", "inv 142"].map assemble =
    [some 0x00000, some 0x10000, some 0x24B00, some 0x3AE00, some 0x405AB, some 0x5AE05, some 0x60300, some 0x71900,
      some 0x803FE, some 0x90280, some 0xA0500, some 0xB8E00] ∧
  ["ZERO 0x00", "INV", "XEXP 1, 2", "MUL 0x02", "ADD 1, 2, 3", "FROM_BYTE 256", "NOP"].map assemble =
    List.replicate 7 none ∧
  (∀ b : Byte, byteLiteral ('0' :: 'x' :: Nat.toDigits 16 b.toNat) = some b ∧ byteLiteral (Nat.toDigits 10 b.toNat) = some b) ∧
  (∀ (m : String) (u v : List Char), u.map Char.toUpper = v.map Char.toUpper → isMnemonic m u = isMnemonic m v) ∧
  (∀ line comment : String, assemble (line ++ ";" ++ comment) = assemble line) ∧
  (∀ (env : List (List Char × Response)) (name : List Char) (v : Value),
    operandByte ((name, .value v) :: env) (.result name) = some v.wireByte ∧
    operandByte ((name, .absent) :: env) (.result name) = none ∧
    operandByte ((name, .divisionByZero) :: env) (.result name) = none ∧
    operandByte ((name, .illegal) :: env) (.result name) = none) ∧
  (∀ (env : List (List Char × Response)) (line : HostLine) (r : Response),
    (r = .divisionByZero ∨ r = .illegal → nextWord env (some r) line = none) ∧
    (r ≠ .divisionByZero → r ≠ .illegal → nextWord env (some r) line = lineWord env line) ∧
    nextWord env none line = lineWord env line)
end

