-- ==== Sys2Proof/Laws/Field.lean ====
section
/-! SUPPORT. The multiply-by-x step: it is linear, and under each of the sixteen legal `RC` it has order 255 on 0x01 (R7, R59), so its orbit is
the nonzero bytes, each once. -/

namespace Sys2Proof.Machine

/-! ### Linearity -/

@[simp] theorem xtime_zero (rc : Byte) : xtime rc 0#8 = 0#8 := by simp [xtime]

theorem xtime_xor (rc a b : Byte) : xtime rc (a ^^^ b) = xtime rc a ^^^ xtime rc b := by
  simp only [xtime, BitVec.getLsbD_xor, BitVec.shiftLeft_xor_distrib]
  cases a.getLsbD 7 <;> cases b.getLsbD 7 <;> simp only [Bool.xor_false, Bool.xor_true, Bool.not_false, Bool.not_true,
    Bool.false_eq_true, if_true, if_false]
  · ac_rfl
  · ac_rfl
  · rw [show a <<< 1 ^^^ rc ^^^ (b <<< 1 ^^^ rc) = a <<< 1 ^^^ b <<< 1 ^^^ (rc ^^^ rc) by ac_rfl, BitVec.xor_self,
      BitVec.xor_zero]

@[simp] theorem xtimes_zero_left (rc v : Byte) : xtimes rc 0 v = v := rfl

theorem xtimes_succ (rc : Byte) (n : Nat) (v : Byte) : xtimes rc (n + 1) v = xtime rc (xtimes rc n v) := rfl

theorem xtimes_eq_iterate (rc : Byte) (n : Nat) (v : Byte) : xtimes rc n v = (xtime rc)^[n] v := by
  induction n with
  | zero => rfl
  | succ n ih => rw [xtimes_succ, ih, Function.iterate_succ_apply']

theorem xtimes_add (rc : Byte) (m n : Nat) (v : Byte) : xtimes rc (m + n) v = xtimes rc m (xtimes rc n v) := by
  simp only [xtimes_eq_iterate, Function.iterate_add_apply]

theorem xtimes_succ' (rc : Byte) (n : Nat) (v : Byte) : xtimes rc (n + 1) v = xtimes rc n (xtime rc v) :=
  xtimes_add rc n 1 v

@[simp] theorem xtimes_zero (rc : Byte) (n : Nat) : xtimes rc n 0#8 = 0#8 := by
  induction n with
  | zero => rfl
  | succ n ih => rw [xtimes_succ, ih, xtime_zero]

theorem xtimes_xor (rc : Byte) (n : Nat) (a b : Byte) : xtimes rc n (a ^^^ b) = xtimes rc n a ^^^ xtimes rc n b := by
  induction n with
  | zero => rfl
  | succ n ih => rw [xtimes_succ, ih, xtime_xor]; rfl

/-! ### Order -/

/-- The powers of `x` at which the order is read off: 255 and its three maximal proper divisors. -/
theorem orbit_check :
    ∀ rc ∈ Config.legalRcs, xtimes rc 255 1 = 1 ∧ xtimes rc 85 1 ≠ 1 ∧ xtimes rc 51 1 ≠ 1 ∧ xtimes rc 15 1 ≠ 1 := by
  decide +kernel

/-- Under a legal `RC` the orbit of 0x01 has length 255 (R7). -/
theorem xtime_period {rc : Byte} (h : rc ∈ Config.legalRcs) : Function.minimalPeriod (xtime rc) 1 = 255 := by
  obtain ⟨h255, h85, h51, h15⟩ := orbit_check rc h
  simp only [xtimes_eq_iterate] at h255 h85 h51 h15
  have hdvd : Function.minimalPeriod (xtime rc) 1 ∣ 255 := Function.IsPeriodicPt.minimalPeriod_dvd h255
  have no : ∀ m, (xtime rc)^[m] 1 ≠ 1 → ¬ Function.minimalPeriod (xtime rc) 1 ∣ m := fun m hm hd =>
    hm (Function.isPeriodicPt_iff_minimalPeriod_dvd.2 hd)
  have hmem : Function.minimalPeriod (xtime rc) 1 ∈ Nat.divisors 255 := Nat.mem_divisors.2 ⟨hdvd, by decide⟩
  have hdiv : Nat.divisors 255 = {1, 3, 5, 15, 17, 51, 85, 255} := by decide +kernel
  rw [hdiv] at hmem
  have n85 := no 85 h85
  have n51 := no 51 h51
  have n15 := no 15 h15
  simp only [Finset.mem_insert, Finset.mem_singleton] at hmem
  rcases hmem with e | e | e | e | e | e | e | e <;> rw [e] at n85 n51 n15 ⊢ <;> revert n85 n51 n15 <;> decide

/-- Powers of `x` agree exactly when their exponents agree modulo 255. -/
theorem xtimes_eq_iff {rc : Byte} (h : rc ∈ Config.legalRcs) (m n : Nat) :
    xtimes rc m 1 = xtimes rc n 1 ↔ m % 255 = n % 255 := by
  rw [xtimes_eq_iterate, xtimes_eq_iterate, ← Function.iterate_mod_minimalPeriod_eq (n := m),
    ← Function.iterate_mod_minimalPeriod_eq (n := n), xtime_period h]
  constructor
  · intro e
    have hm : m % 255 < Function.minimalPeriod (xtime rc) 1 := by rw [xtime_period h]; omega
    have hn : n % 255 < Function.minimalPeriod (xtime rc) 1 := by rw [xtime_period h]; omega
    exact (Function.iterate_eq_iterate_iff_of_lt_minimalPeriod hm hn).1 e
  · intro e
    rw [e]

theorem xtimes_mod {rc : Byte} (h : rc ∈ Config.legalRcs) (n : Nat) : xtimes rc (n % 255) 1 = xtimes rc n 1 :=
  (xtimes_eq_iff h _ _).2 (by omega)

theorem xtimes_255 {rc : Byte} (h : rc ∈ Config.legalRcs) : xtimes rc 255 1 = 1 := (orbit_check rc h).1

/-- No power of `x` is zero. -/
theorem xtimes_ne_zero {rc : Byte} (h : rc ∈ Config.legalRcs) (n : Nat) : xtimes rc n 1 ≠ 0 := by
  intro e
  have h1 : xtimes rc (255 * (n + 1) - n) (xtimes rc n 1) = 1 := by
    rw [← xtimes_add, show 255 * (n + 1) - n + n = 255 * (n + 1) by omega]
    exact (xtimes_eq_iff h _ 0).2 (by omega)
  rw [e, show (0 : Byte) = 0#8 from rfl, xtimes_zero] at h1
  exact absurd h1 (by decide)

/-- Every nonzero byte is a power of `x` (R7: "visits every nonzero byte value exactly once"). -/
theorem exists_xtimes {rc : Byte} (h : rc ∈ Config.legalRcs) {v : Byte} (hv : v ≠ 0) :
    ∃ i, i < 255 ∧ xtimes rc i 1 = v := by
  let f : Fin 255 → (Finset.univ.erase (0 : Byte) : Finset Byte) := fun i =>
    ⟨xtimes rc i 1, Finset.mem_erase.2 ⟨xtimes_ne_zero h i, Finset.mem_univ _⟩⟩
  have hinj : Function.Injective f := by
    intro a b hab
    have e := (xtimes_eq_iff h a b).1 (congrArg Subtype.val hab)
    rw [Nat.mod_eq_of_lt a.isLt, Nat.mod_eq_of_lt b.isLt] at e
    exact Fin.ext e
  have hcard : Fintype.card (Fin 255) = Fintype.card (Finset.univ.erase (0 : Byte) : Finset Byte) := by
    rw [Fintype.card_fin, Fintype.card_coe, Finset.card_erase_of_mem (Finset.mem_univ _), Finset.card_univ,
      ← FinEnum.card_eq_fintypeCard, FinEnum.card_bitVec]
    decide
  have hsurj : Function.Surjective f := ((Fintype.bijective_iff_injective_and_card f).2 ⟨hinj, hcard⟩).2
  obtain ⟨i, hi⟩ := hsurj ⟨v, Finset.mem_erase.2 ⟨hv, Finset.mem_univ _⟩⟩
  exact ⟨i, i.isLt, congrArg Subtype.val hi⟩

end Sys2Proof.Machine
end

