-- ==== Sys2Proof/Laws/Memory.lean ====
section
/-! SUPPORT. Table memories: a read after a write, and every operation keeps the canonical form. -/

namespace Sys2Proof.Machine

@[simp] theorem Memory.read_nil (i : Nat) : Memory.read [] i = none := rfl

theorem Memory.read_cons (c : Host.Cell) (m : Memory) (i : Nat) :
    Memory.read (c :: m) i = if c.1 = i then some c.2 else Memory.read m i := by
  rw [Memory.read, Bool.cond_eq_ite]
  exact if_congr (Iff.of_eq Nat.beq_eq) rfl rfl

@[simp] theorem Memory.write_nil (i : Nat) (v : Byte) : Memory.write [] i v = [(i, v)] := rfl

theorem Memory.write_cons (c : Host.Cell) (m : Memory) (i : Nat) (v : Byte) :
    Memory.write (c :: m) i v =
      if c.1 < i then c :: Memory.write m i v else if c.1 = i then (i, v) :: m else (i, v) :: c :: m := by
  rw [Memory.write, Bool.cond_eq_ite, Bool.cond_eq_ite]
  exact if_congr (Iff.of_eq Nat.blt_eq) rfl (if_congr (Iff.of_eq Nat.beq_eq) rfl rfl)

/-- A read after a write to the same index gives the byte written. -/
@[simp] theorem Memory.read_write_same (m : Memory) (i : Nat) (v : Byte) : (Memory.write m i v).read i = some v := by
  induction m with
  | nil => simp [Memory.read_cons]
  | cons c m ih =>
    rw [Memory.write_cons]
    split
    · next h => simp [Memory.read_cons, ih, Nat.ne_of_lt h]
    · split <;> simp [Memory.read_cons]

/-- A write leaves every other index alone. -/
theorem Memory.read_write_of_ne (m : Memory) {i j : Nat} (v : Byte) (h : j ≠ i) :
    (Memory.write m i v).read j = Memory.read m j := by
  induction m with
  | nil => simp [Memory.read_cons, h.symm]
  | cons c m ih =>
    rw [Memory.write_cons]
    split
    · simp [Memory.read_cons, ih]
    · split
      · next _ hc => simp [Memory.read_cons, hc, h.symm]
      · simp [Memory.read_cons, h.symm]

theorem Memory.read_write (m : Memory) (i j : Nat) (v : Byte) :
    (Memory.write m i v).read j = if j = i then some v else Memory.read m j := by
  split
  · next h => simp [h]
  · next h => exact m.read_write_of_ne v h

/-- The canonical form read off a cell and the rest. -/
theorem Memory.wf_cons (n : Nat) (c : Host.Cell) (m : Memory) :
    Memory.wf n (c :: m) = true ↔ c.1 < n ∧ (∀ d ∈ m.head?, c.1 < d.1) ∧ m.wf n = true := by
  cases m with
  | nil => simp [Memory.wf]
  | cons d m =>
    have below : ∀ (d : Host.Cell) (m : Memory), Memory.wf n (d :: m) = true → d.1 < n := by
      intro d m
      induction m generalizing d with
      | nil => simp [Memory.wf]
      | cons e m ih =>
        intro h
        simp only [Memory.wf, Bool.and_eq_true, decide_eq_true_eq] at h
        exact h.1.trans (ih e h.2)
    simp only [Memory.wf, Bool.and_eq_true, decide_eq_true_eq, List.head?_cons, Option.mem_some_iff, forall_eq']
    exact ⟨fun h => ⟨h.1.trans (below d m h.2), h⟩, fun h => h.2⟩

@[simp] theorem Memory.wf_nil (n : Nat) : Memory.wf n [] = true := rfl

theorem Memory.head_write (m : Memory) (i : Nat) (v : Byte) :
    ∀ d ∈ (Memory.write m i v).head?, d.1 = i ∨ d ∈ m.head? := by
  cases m with
  | nil => simp
  | cons c m =>
    rw [Memory.write_cons]
    split
    · simp
    · split <;> simp

/-- A write inside the table keeps the canonical form (R28). -/
theorem Memory.write_wf {n : Nat} {m : Memory} {i : Nat} (v : Byte) (hm : m.wf n = true) (hi : i < n) :
    (Memory.write m i v).wf n = true := by
  induction m with
  | nil => simpa [Memory.wf] using hi
  | cons c m ih =>
    obtain ⟨hc, hh, hw⟩ := (Memory.wf_cons n c m).1 hm
    rw [Memory.write_cons]
    split
    · next hlt =>
      refine (Memory.wf_cons _ _ _).2 ⟨hc, fun d hd => ?_, ih hw⟩
      rcases Memory.head_write m i v d hd with h | h
      · omega
      · exact hh d h
    · split
      · next _ heq => exact (Memory.wf_cons _ _ _).2 ⟨hi, fun d hd => heq ▸ hh d hd, hw⟩
      · next hlt hne =>
        refine (Memory.wf_cons _ _ _).2 ⟨hi, fun d hd => ?_, hm⟩
        simp only [List.head?_cons, Option.mem_some_iff] at hd
        subst hd
        show i < c.1
        omega

/-- A canonical memory has no value outside the table: every index that reads is below `n`. -/
theorem Memory.read_lt {n : Nat} {m : Memory} (hm : m.wf n = true) {i : Nat} {v : Byte} (h : m.read i = some v) : i < n := by
  induction m with
  | nil => simp at h
  | cons c m ih =>
    obtain ⟨hc, -, hw⟩ := (Memory.wf_cons n c m).1 hm
    rw [Memory.read_cons] at h
    split at h
    · next he => omega
    · exact ih hw h

@[simp] theorem Tables.empty_wf (n : Nat) : Tables.empty.wf n = true := rfl

theorem Tables.wf_iff (n : Nat) (t : Tables) :
    t.wf n = true ↔ t.expT.wf n = true ∧ t.logT.wf n = true ∧ t.invT.wf n = true := by
  simp [Tables.wf, and_assoc]

/-- An iteration of step 2 keeps the form. -/
theorem Tables.record_wf {t : Tables} (ht : t.wf 256 = true) {i : Nat} (hi : i < 256) (v : Byte) :
    (t.record i v).wf 256 = true := by
  obtain ⟨he, hl, hv⟩ := (t.wf_iff 256).1 ht
  exact (Tables.wf_iff _ _).2 ⟨Memory.write_wf v he hi, Memory.write_wf _ hl v.isLt, hv⟩

/-- Step 3 keeps the form. -/
theorem Tables.duplicate_wf {t : Tables} (ht : t.wf 256 = true) : t.duplicate.wf 256 = true := by
  obtain ⟨he, hl, hv⟩ := (t.wf_iff 256).1 ht
  refine (Tables.wf_iff _ _).2 ⟨?_, hl, hv⟩
  show Memory.wf 256 (match t.expT.read 0 with | some b => t.expT.write 255 b | none => t.expT) = true
  split
  · exact Memory.write_wf _ he (by decide)
  · exact he

/-- An iteration of step 4 keeps the form. -/
theorem Tables.invert_wf {t : Tables} (ht : t.wf 256 = true) {v : Nat} (hv : v < 256) : (t.invert v).wf 256 = true := by
  obtain ⟨he, hl, hi⟩ := (t.wf_iff 256).1 ht
  refine (Tables.wf_iff _ _).2 ⟨he, hl, ?_⟩
  show Memory.wf 256 (match t.inverseOf v with | some w => t.invT.write v w | none => t.invT) = true
  split
  · exact Memory.write_wf _ hi hv
  · exact hi

theorem fillFrom_wf (rc : Byte) :
    ∀ (n i : Nat) (v : Byte) (t : Tables), t.wf 256 = true → i + n < 256 → (fillFrom rc n i v t).wf 256 = true
  | 0, _, v, _, ht, hi => Tables.record_wf ht hi v
  | n + 1, i, v, _, ht, hi =>
    fillFrom_wf rc n (i + 1) _ _ (Tables.record_wf ht (by omega) v) (by omega)

theorem invertFrom_wf : ∀ (n v : Nat) (t : Tables), t.wf 256 = true → v + n ≤ 256 → (invertFrom n v t).wf 256 = true
  | 0, _, _, ht, _ => ht
  | n + 1, v, _, ht, hv => invertFrom_wf n (v + 1) _ (Tables.invert_wf ht (by omega)) (by omega)

/-- `Build()` leaves the three tables in canonical form (R28, R61). -/
theorem buildTables_wf (rc : Byte) : (buildTables rc).wf 256 = true :=
  invertFrom_wf 255 1 _ (Tables.duplicate_wf (fillFrom_wf rc 254 0 0x01 _ (Tables.empty_wf 256) (by decide))) (by decide)

/-- A write step of construction keeps the form and stays in range. -/
theorem buildStep_wf (rc : Byte) {p : Progress} {t : Tables} (hp : p.inRange = true) (ht : t.wf 256 = true) :
    (buildStep rc p t).1.inRange = true ∧ (buildStep rc p t).2.wf 256 = true := by
  cases p with
  | fill i v =>
    have hi : i < 255 := by simpa [Progress.inRange] using hp
    refine ⟨?_, Tables.record_wf ht (by omega) v⟩
    by_cases h : i < 254
    · simp [buildStep, h, Progress.inRange]; omega
    · simp [buildStep, h, Progress.inRange]
  | duplicate => exact ⟨rfl, Tables.duplicate_wf ht⟩
  | invert v =>
    have hv : v < 256 := by simpa [Progress.inRange] using hp
    refine ⟨?_, Tables.invert_wf ht hv⟩
    by_cases h : v < 255
    · simp [buildStep, h, Progress.inRange]; omega
    · simp [buildStep, h, Progress.inRange]
  | publish => exact ⟨rfl, ht⟩

/-- The reset state's memory is canonical. -/
theorem reset_tables_wf : State.reset.tables.wf 256 = true := rfl

/-- So are the tables any reset leaves (R27). -/
theorem resetTables_wf (c : Config) : (Config.resetTables c).wf 256 = true := by
  unfold Config.resetTables
  split
  · rfl
  · exact buildTables_wf c.rc

end Sys2Proof.Machine
end

