-- ==== Sys2Proof/Laws/State.lean ====
section
/-! SUPPORT. One lemma per field per update, true by definition, so that no later proof unfolds a record update. -/

namespace Sys2Proof.Machine

/-! ### Configurations -/

/-- What a legal configuration is (R6, R7). -/
theorem Config.legal_iff (c : Config) :
    c.legal = true ↔
      (c.width = 8 ∧ c.nEntries = 256 ∧ c.groupOrder = 255 ∧ c.gen = 0x02) ∧ c.rc ∈ Config.legalRcs ∧ 1 ≤ c.nports := by
  simp [Config.legal, Config.fixedLegal, and_assoc]

/-! ### Building the tables -/

@[simp] theorem build_config (s : State) : (build s).config = s.config := by simp only [build]
@[simp] theorem build_tables (s : State) : (build s).tables = buildTables s.config.rc := by simp only [build]
@[simp] theorem build_tblValid (s : State) : (build s).tblValid = true := by simp only [build]
@[simp] theorem build_builder (s : State) : (build s).builder = none := by simp only [build]
@[simp] theorem build_ports (s : State) : (build s).ports = s.ports := by simp only [build]
@[simp] theorem build_schedule (s : State) : (build s).schedule = s.schedule := by simp only [build]
@[simp] theorem build_active (s : State) : (build s).active = s.active := by simp only [build]

@[simp] theorem claimBuild_config (s : State) : (claimBuild s).config = s.config := by simp only [claimBuild]
@[simp] theorem claimBuild_tables (s : State) : (claimBuild s).tables = Tables.empty := by simp only [claimBuild]
@[simp] theorem claimBuild_tblValid (s : State) : (claimBuild s).tblValid = s.tblValid := by simp only [claimBuild]
@[simp] theorem claimBuild_builder (s : State) : (claimBuild s).builder = some ⟨s.active, Progress.start⟩ := by simp only [claimBuild]
@[simp] theorem claimBuild_ports (s : State) : (claimBuild s).ports = s.ports := by simp only [claimBuild]
@[simp] theorem claimBuild_schedule (s : State) : (claimBuild s).schedule = s.schedule := by simp only [claimBuild]
@[simp] theorem claimBuild_active (s : State) : (claimBuild s).active = s.active := by simp only [claimBuild]

@[simp] theorem advanceBuild_config (b : Builder) (s : State) : (advanceBuild b s).config = s.config := by
  unfold advanceBuild; split <;> rfl
@[simp] theorem advanceBuild_ports (b : Builder) (s : State) : (advanceBuild b s).ports = s.ports := by
  unfold advanceBuild; split <;> rfl
@[simp] theorem advanceBuild_schedule (b : Builder) (s : State) : (advanceBuild b s).schedule = s.schedule := by
  unfold advanceBuild; split <;> rfl
@[simp] theorem advanceBuild_active (b : Builder) (s : State) : (advanceBuild b s).active = s.active := by
  unfold advanceBuild; split <;> rfl

/-- The publish step sets `TBL_VALID` and clears `BUILDING`, and writes no entry (R61). -/
theorem advanceBuild_publish (p : Nat) (s : State) :
    advanceBuild ⟨p, .publish⟩ s = { s with tblValid := true, builder := none } := rfl

/-- Every other turn of the builder is one write step (R61). -/
theorem advanceBuild_write {b : Builder} (s : State) (h : b.progress ≠ .publish) :
    advanceBuild b s =
      { s with
        tables := (buildStep s.config.rc b.progress s.tables).2
        builder := some ⟨b.port, (buildStep s.config.rc b.progress s.tables).1⟩ } := by
  cases b with
  | mk p pr => cases pr <;> first | rfl | exact absurd rfl h

@[simp] theorem withTables_config (s : State) : s.withTables.config = s.config := by
  unfold State.withTables; split <;> simp
@[simp] theorem withTables_ports (s : State) : s.withTables.ports = s.ports := by
  unfold State.withTables; split <;> simp
@[simp] theorem withTables_schedule (s : State) : s.withTables.schedule = s.schedule := by
  unfold State.withTables; split <;> simp
@[simp] theorem withTables_active (s : State) : s.withTables.active = s.active := by
  unfold State.withTables; split <;> simp
@[simp] theorem withTables_tblValid (s : State) : s.withTables.tblValid = true := by
  unfold State.withTables
  cases h : s.tblValid <;> simp [h]

/-! ### Answering -/

@[simp] theorem answered_config (s : State) (r : Response) : (s.answered r).config = s.config := rfl
@[simp] theorem answered_tables (s : State) (r : Response) : (s.answered r).tables = s.tables := rfl
@[simp] theorem answered_tblValid (s : State) (r : Response) : (s.answered r).tblValid = s.tblValid := rfl
@[simp] theorem answered_builder (s : State) (r : Response) : (s.answered r).builder = s.builder := rfl
@[simp] theorem answered_ports (s : State) (r : Response) :
    (s.answered r).ports = s.ports.modify s.active (·.answer r) := rfl
@[simp] theorem answered_schedule (s : State) (r : Response) : (s.answered r).schedule = s.schedule := rfl
@[simp] theorem answered_active (s : State) (r : Response) : (s.answered r).active = s.active := rfl

@[simp] theorem answer_queue (q : Port) (r : Response) : (q.answer r).queue = q.queue := rfl
@[simp] theorem answer_inProgress (q : Port) (r : Response) : (q.answer r).inProgress = none := rfl
@[simp] theorem answer_responses (q : Port) (r : Response) : (q.answer r).responses = q.responses ++ [r] := rfl

/-! ### Turns -/

@[simp] theorem turnOf_config (s : State) (p : Nat) (ts : List Turn) : (s.turnOf p ts).config = s.config := rfl
@[simp] theorem turnOf_tables (s : State) (p : Nat) (ts : List Turn) : (s.turnOf p ts).tables = s.tables := rfl
@[simp] theorem turnOf_tblValid (s : State) (p : Nat) (ts : List Turn) : (s.turnOf p ts).tblValid = s.tblValid := rfl
@[simp] theorem turnOf_builder (s : State) (p : Nat) (ts : List Turn) : (s.turnOf p ts).builder = s.builder := rfl
@[simp] theorem turnOf_ports (s : State) (p : Nat) (ts : List Turn) : (s.turnOf p ts).ports = s.ports := rfl
@[simp] theorem turnOf_schedule (s : State) (p : Nat) (ts : List Turn) : (s.turnOf p ts).schedule = ts := rfl
@[simp] theorem turnOf_active (s : State) (p : Nat) (ts : List Turn) : (s.turnOf p ts).active = p := rfl

@[simp] theorem taking_config (s : State) (i : Instr) (ws : List CommandWord) : (s.taking i ws).config = s.config := rfl
@[simp] theorem taking_tables (s : State) (i : Instr) (ws : List CommandWord) : (s.taking i ws).tables = s.tables := rfl
@[simp] theorem taking_tblValid (s : State) (i : Instr) (ws : List CommandWord) : (s.taking i ws).tblValid = s.tblValid := rfl
@[simp] theorem taking_builder (s : State) (i : Instr) (ws : List CommandWord) : (s.taking i ws).builder = s.builder := rfl
@[simp] theorem taking_ports (s : State) (i : Instr) (ws : List CommandWord) :
    (s.taking i ws).ports = s.ports.modify s.active (fun q => { q with inProgress := some i, queue := ws }) := rfl
@[simp] theorem taking_schedule (s : State) (i : Instr) (ws : List CommandWord) : (s.taking i ws).schedule = s.schedule := rfl
@[simp] theorem taking_active (s : State) (i : Instr) (ws : List CommandWord) : (s.taking i ws).active = s.active := rfl

/-! ### Reset -/

@[simp] theorem resetEngine_config (s : State) : (resetEngine s).config = s.config := rfl
@[simp] theorem resetEngine_tables (s : State) : (resetEngine s).tables = Config.resetTables s.config := rfl
@[simp] theorem resetEngine_tblValid (s : State) : (resetEngine s).tblValid = Config.resetValid s.config := rfl
@[simp] theorem resetEngine_builder (s : State) : (resetEngine s).builder = none := rfl
@[simp] theorem resetEngine_ports (s : State) : (resetEngine s).ports = s.ports.map Port.abandon := rfl
@[simp] theorem resetEngine_schedule (s : State) : (resetEngine s).schedule = s.schedule := rfl
@[simp] theorem resetEngine_active (s : State) : (resetEngine s).active = s.active := rfl

@[simp] theorem abandon_queue (q : Port) : q.abandon.queue = q.queue := rfl
@[simp] theorem abandon_inProgress (q : Port) : q.abandon.inProgress = none := rfl
@[simp] theorem abandon_responses (q : Port) : q.abandon.responses = q.responses := rfl

@[simp] theorem resetFor_config (c : Config) : (State.resetFor c).config = c := rfl
@[simp] theorem resetFor_tables (c : Config) : (State.resetFor c).tables = Config.resetTables c := rfl
@[simp] theorem resetFor_tblValid (c : Config) : (State.resetFor c).tblValid = Config.resetValid c := rfl
@[simp] theorem resetFor_builder (c : Config) : (State.resetFor c).builder = none := rfl
@[simp] theorem resetFor_ports (c : Config) : (State.resetFor c).ports = List.replicate c.nports Port.idle := rfl
@[simp] theorem resetFor_schedule (c : Config) : (State.resetFor c).schedule = [] := rfl
@[simp] theorem resetFor_active (c : Config) : (State.resetFor c).active = 0 := rfl

end Sys2Proof.Machine
end

