-- ==== Sys2Proof/Laws/Ops.lean ====
section
/-! SUPPORT. For each shared operation, one lemma that says everything it can do; proofs cite these and do not unfold the operation. -/

namespace Sys2Proof.Machine

/-! ### Reads and answers -/

/-- A command's read of an entry, once the tables exist (R33). -/
theorem memRead_of_valid {s : State} (h : s.tblValid = true) (t : TableId) (i : Nat) :
    memRead t i s = (s.tables.get t).read i := by simp [memRead, h]

/-- No entry is readable while `TBL_VALID = 0` (R20). -/
theorem memRead_of_invalid {s : State} (h : s.tblValid = false) (t : TableId) (i : Nat) : memRead t i s = none := by
  simp [memRead, h]

theorem withEntry_some {t : TableId} {i : Nat} {s : State} {v : Byte} (h : memRead t i s = some v) (k : Byte → Result) :
    withEntry t i s k = k v := by simp [withEntry, h]

/-- A read either goes on with the entry's byte or is the model's fault. -/
theorem withEntry_cases (t : TableId) (i : Nat) (s : State) (k : Byte → Result) :
    (∃ v, memRead t i s = some v ∧ withEntry t i s k = k v) ∨
      memRead t i s = none ∧ withEntry t i s k = .fault (.unreadableEntry t i) := by
  cases h : memRead t i s with
  | none => exact .inr ⟨rfl, by simp [withEntry, h]⟩
  | some v => exact .inl ⟨v, rfl, withEntry_some h k⟩

/-- A logarithm read back from the byte it is carried in (R10). -/
@[simp] theorem logOf_logByte (l : Logarithm) : logOf (logByte l) = some l := by
  have hl := l.exponent.isLt
  have h : (logByte l).toNat = l.exponent.val := by rw [logByte, BitVec.toNat_ofNat, Nat.mod_eq_of_lt (by omega)]
  rw [logOf, dif_pos (by omega)]
  congr 2
  exact Fin.ext h

/-- A read of an entry that holds a logarithm. -/
theorem withLog_some {a : Elem} {s : State} {l : Logarithm} (h : memRead .log a.byte.toNat s = some (logByte l))
    (k : Logarithm → Result) : withLog a s k = k l := by
  rw [withLog, withEntry_some h, logOf_logByte]

/-- A read of a logarithm goes on with it, or is one of the two faults of the model. -/
theorem withLog_cases (a : Elem) (s : State) (k : Logarithm → Result) :
    (∃ l, (memRead .log a.byte.toNat s).bind logOf = some l ∧ withLog a s k = k l) ∨
    (∃ v, memRead .log a.byte.toNat s = some v ∧ logOf v = none ∧ withLog a s k = .fault (.notALogarithm v)) ∨
      memRead .log a.byte.toNat s = none ∧ withLog a s k = .fault (.unreadableEntry .log a.byte.toNat) := by
  cases hr : memRead .log a.byte.toNat s with
  | none => exact .inr (.inr ⟨rfl, by simp only [withLog, withEntry, hr]⟩)
  | some v =>
    cases hl : logOf v with
    | some l => exact .inl ⟨l, hl, by simp only [withLog, withEntry, hr, hl]⟩
    | none => exact .inr (.inl ⟨v, rfl, hl, by simp only [withLog, withEntry, hr, hl]⟩)

/-- A command of a port there is gets its response. -/
theorem respond_eq {s : State} (h : s.HasActivePort) (r : Response) : respond r s = .next (s.answered r) := if_pos h

/-- Everything `respond` can do. -/
theorem respond_cases (r : Response) (s : State) :
    s.HasActivePort ∧ respond r s = .next (s.answered r) ∨
      ¬ s.HasActivePort ∧ respond r s = .refused (.noSuchPort s.active) := by
  by_cases h : s.HasActivePort
  · exact .inl ⟨h, if_pos h⟩
  · exact .inr ⟨h, if_neg h⟩

theorem respond_next {r : Response} {s t : State} (h : respond r s = .next t) : t = s.answered r := by
  rcases respond_cases r s with ⟨-, e⟩ | ⟨-, e⟩ <;> rw [e] at h <;> simp_all

/-! ### EnsureTables -/

/-- Everything `EnsureTables()` can come to (R66). -/
theorem ensureTables_cases (s : State) :
    s.tblValid = true ∧ ensureTables s = .ready s ∨
    s.tblValid = false ∧ s.builder = none ∧ s.config.grain = .atomic ∧ ensureTables s = .ready (build s) ∨
    s.tblValid = false ∧ s.builder = none ∧ s.config.grain = .stepwise ∧ ensureTables s = .held (claimBuild s) ∨
    (∃ b, s.tblValid = false ∧ s.builder = some b ∧ b.port = s.active ∧ ensureTables s = .held (advanceBuild b s)) ∨
    (∃ b, s.tblValid = false ∧ s.builder = some b ∧ b.port ≠ s.active ∧ ensureTables s = .held s) := by
  cases hv : s.tblValid with
  | true => exact .inl ⟨rfl, by simp [ensureTables, hv]⟩
  | false =>
    cases hb : s.builder with
    | none =>
      cases hg : s.config.grain with
      | atomic => exact .inr (.inl ⟨rfl, rfl, rfl, by simp [ensureTables, hv, hb, hg]⟩)
      | stepwise => exact .inr (.inr (.inl ⟨rfl, rfl, rfl, by simp [ensureTables, hv, hb, hg]⟩))
    | some b =>
      by_cases hp : b.port = s.active
      · exact .inr (.inr (.inr (.inl ⟨b, rfl, rfl, hp, by simp [ensureTables, hv, hb, hp]⟩)))
      · exact .inr (.inr (.inr (.inr ⟨b, rfl, rfl, hp, by simp [ensureTables, hv, hb, hp]⟩)))

/-- An available state gets its tables at once. -/
theorem ensureTables_available {s : State} (h : s.Available) : ensureTables s = .ready s.withTables := by
  rcases h.unblocked with hv | ⟨hb, hg⟩
  · simp [ensureTables, State.withTables, hv]
  · cases hv : s.tblValid <;> simp [ensureTables, State.withTables, hv, hb, hg]

theorem afterTables_available {s : State} (h : s.Available) (k : State → Result) : afterTables s k = k s.withTables := by
  simp only [afterTables, ensureTables_available h]

theorem afterTables_ready {s t : State} (h : ensureTables s = .ready t) (k : State → Result) : afterTables s k = k t := by
  simp only [afterTables, h]

theorem afterTables_held {s t : State} (h : ensureTables s = .held t) (k : State → Result) : afterTables s k = .next t := by
  simp only [afterTables, h]

/-- `EnsureTables()` touches the tables and the two bits alone. -/
theorem ensureTables_frame (s : State) :
    ∀ t, (ensureTables s = .ready t ∨ ensureTables s = .held t) →
      t.config = s.config ∧ t.ports = s.ports ∧ t.schedule = s.schedule ∧ t.active = s.active := by
  rintro t h
  rcases ensureTables_cases s with ⟨-, e⟩ | ⟨-, -, -, e⟩ | ⟨-, -, -, e⟩ | ⟨b, -, -, -, e⟩ | ⟨b, -, -, -, e⟩ <;>
    rw [e] at h <;> rcases h with h | h <;> cases h <;> simp

/-- A command goes on only with existing tables (R66). -/
theorem ensureTables_ready_valid {s t : State} (h : ensureTables s = .ready t) : t.tblValid = true := by
  rcases ensureTables_cases s with ⟨hv, e⟩ | ⟨-, -, -, e⟩ | ⟨-, -, -, e⟩ | ⟨b, -, -, -, e⟩ | ⟨b, -, -, -, e⟩ <;>
    rw [e] at h <;> cases h
  · exact hv
  · simp

/-- What a command that needs the tables goes on with in an available state: the tables, built for `RC`. -/
theorem Available_withTables_tables {s : State} (h : s.Available) :
    s.withTables.tables = buildTables s.config.rc := by
  cases hv : s.tblValid with
  | true => simpa [State.withTables, hv] using h.tablesBuilt hv
  | false => simp [State.withTables, hv]

/-- A read in an available state, after `EnsureTables()`. -/
theorem memRead_withTables {s : State} (h : s.Available) (t : TableId) (i : Nat) :
    memRead t i s.withTables = ((buildTables s.config.rc).get t).read i := by
  rw [memRead_of_valid (by simp), Available_withTables_tables h]

theorem Available_hasActivePort_withTables {s : State} (h : s.Available) : s.withTables.HasActivePort := by
  simpa [State.HasActivePort] using h.activePort

/-! ### Commands -/

/-- The state the command `i` is answered in: `s` itself if `i` needs no tables, else one `EnsureTables()` left ready (R68). -/
def ReadyFor (i : Instr) (s t : State) : Prop :=
  needsTables i = false ∧ t = s ∨ needsTables i = true ∧ ensureTables s = .ready t

theorem ReadyFor.frame {i : Instr} {s t : State} (h : ReadyFor i s t) :
    t.config = s.config ∧ t.ports = s.ports ∧ t.schedule = s.schedule ∧ t.active = s.active := by
  rcases h with ⟨-, rfl⟩ | ⟨-, h⟩
  · exact ⟨rfl, rfl, rfl, rfl⟩
  · exact ensureTables_frame s t (.inl h)

/-- What one command can come to: an answer to the active port, a hold, a read of an entry without a value, or of one that is no logarithm, or no port to answer on. -/
inductive CommandOutcome (i : Instr) (s : State) : Result → Prop where
  | answered (t : State) (r : Response) (h : ReadyFor i s t) (hp : s.HasActivePort) : CommandOutcome i s (.next (t.answered r))
  | held (t : State) (hi : needsTables i = true) (h : ensureTables s = .held t) : CommandOutcome i s (.next t)
  | unreadable (t : State) (T : TableId) (k : Nat) (hi : needsTables i = true) (h : ensureTables s = .ready t)
      (hr : memRead T k t = none) : CommandOutcome i s (.fault (.unreadableEntry T k))
  | notALogarithm (t : State) (k : Nat) (v : Byte) (hi : needsTables i = true) (h : ensureTables s = .ready t)
      (hr : memRead .log k t = some v) (hv : logOf v = none) : CommandOutcome i s (.fault (.notALogarithm v))
  | noPort (h : ¬ s.HasActivePort) : CommandOutcome i s (.refused (.noSuchPort s.active))

theorem CommandOutcome.respond {i : Instr} {s t : State} (h : ReadyFor i s t) (r : Response) :
    CommandOutcome i s (respond r t) := by
  obtain ⟨-, hports, -, hactive⟩ := h.frame
  rcases respond_cases r t with ⟨hp, e⟩ | ⟨hp, e⟩ <;> rw [e] <;> simp only [State.HasActivePort, hports, hactive] at hp ⊢
  · exact .answered t r h hp
  · exact .noPort hp

theorem CommandOutcome.withEntry {i : Instr} {s t : State} (hi : needsTables i = true) (h : ensureTables s = .ready t)
    (T : TableId) (n : Nat) {k : Byte → Result} (hk : ∀ v, CommandOutcome i s (k v)) :
    CommandOutcome i s (withEntry T n t k) := by
  rcases withEntry_cases T n t k with ⟨v, -, e⟩ | ⟨hr, e⟩ <;> rw [e]
  · exact hk v
  · exact .unreadable t T n hi h hr

theorem CommandOutcome.withLog {i : Instr} {s t : State} (hi : needsTables i = true) (h : ensureTables s = .ready t)
    (a : Elem) {k : Logarithm → Result} (hk : ∀ l, CommandOutcome i s (k l)) : CommandOutcome i s (withLog a t k) := by
  rcases withLog_cases a t k with ⟨l, -, e⟩ | ⟨v, hr, hv, e⟩ | ⟨hr, e⟩ <;> rw [e]
  · exact hk l
  · exact .notALogarithm t _ v hi h hr hv
  · exact .unreadable t .log _ hi h hr

theorem CommandOutcome.afterTables {i : Instr} {s : State} (hi : needsTables i = true) {k : State → Result}
    (hk : ∀ t, ensureTables s = .ready t → CommandOutcome i s (k t)) : CommandOutcome i s (afterTables s k) := by
  cases h : ensureTables s with
  | ready t => rw [afterTables_ready h]; exact hk t h
  | held t => rw [afterTables_held h]; exact .held t hi h

/-- Every command comes to one of these. -/
theorem exec_outcome (i : Instr) (s : State) : CommandOutcome i s (exec i s) := by
  cases i with
  | zero => exact .respond (.inl ⟨rfl, rfl⟩) _
  | one => exact .respond (.inl ⟨rfl, rfl⟩) _
  | fromByte b => exact .respond (.inl ⟨rfl, rfl⟩) _
  | toByte x => exact .respond (.inl ⟨rfl, rfl⟩) _
  | add a b => exact .respond (.inl ⟨rfl, rfl⟩) _
  | sub a b => exact .respond (.inl ⟨rfl, rfl⟩) _
  | reserved op => exact .respond (.inl ⟨rfl, rfl⟩) _
  | log a =>
    refine .afterTables rfl fun t ht => ?_
    split
    · exact .respond (.inr ⟨rfl, ht⟩) _
    · exact .withLog rfl ht _ fun _ => .respond (.inr ⟨rfl, ht⟩) _
  | xexp p => exact .afterTables rfl fun t ht => .withEntry rfl ht _ _ fun _ => .respond (.inr ⟨rfl, ht⟩) _
  | exp a p =>
    refine .afterTables rfl fun t ht => ?_
    split
    · exact .respond (.inr ⟨rfl, ht⟩) _
    · exact .withLog rfl ht _ fun _ => .withEntry rfl ht _ _ fun _ => .respond (.inr ⟨rfl, ht⟩) _
  | mul a b =>
    refine .afterTables rfl fun t ht => ?_
    split
    · exact .respond (.inr ⟨rfl, ht⟩) _
    · exact .withLog rfl ht _ fun _ => .withLog rfl ht _ fun _ => .withEntry rfl ht _ _ fun _ =>
        .respond (.inr ⟨rfl, ht⟩) _
  | div a b =>
    refine .afterTables rfl fun t ht => ?_
    split
    · exact .respond (.inr ⟨rfl, ht⟩) _
    · split
      · exact .respond (.inr ⟨rfl, ht⟩) _
      · exact .withLog rfl ht _ fun _ => .withLog rfl ht _ fun _ => .withEntry rfl ht _ _ fun _ =>
          .respond (.inr ⟨rfl, ht⟩) _
  | inv a =>
    refine .afterTables rfl fun t ht => ?_
    split
    · exact .respond (.inr ⟨rfl, ht⟩) _
    · exact .withLog rfl ht _ fun _ => .withEntry rfl ht _ _ fun _ => .respond (.inr ⟨rfl, ht⟩) _

/-- Everything a command that gives a next state has done: it is answered, or held. -/
theorem exec_next {i : Instr} {s t : State} (h : exec i s = .next t) :
    (∃ u r, ReadyFor i s u ∧ s.HasActivePort ∧ t = u.answered r) ∨ needsTables i = true ∧ ensureTables s = .held t := by
  generalize ho : exec i s = o at h
  have hc := exec_outcome i s
  rw [ho] at hc
  cases hc with
  | answered u r hu hp => cases h; exact .inl ⟨u, r, hu, hp, rfl⟩
  | held u hi hu => cases h; exact .inr ⟨hi, hu⟩
  | unreadable => cases h
  | notALogarithm => cases h
  | noPort => cases h

/-- A command that needs the tables runs as it does where they exist already (R66, R68). -/
theorem exec_ready {i : Instr} {s t : State} (hi : needsTables i = true) (h : ensureTables s = .ready t) :
    exec i s = exec i t := by
  have ht : ensureTables t = .ready t := by simp only [ensureTables, ensureTables_ready_valid h, if_true]
  have e : ∀ k, afterTables s k = afterTables t k := fun k => by rw [afterTables_ready h, afterTables_ready ht]
  cases i <;> simp only [needsTables, Bool.false_eq_true] at hi <;> exact e _

/-- A command that needs the tables is held when `EnsureTables()` holds it, whatever its operands are (R68). -/
theorem exec_held {i : Instr} {s t : State} (hi : needsTables i = true) (h : ensureTables s = .held t) :
    exec i s = .next t := by
  cases i <;> first | exact afterTables_held h _ | simp [needsTables] at hi

/-! ### Turns -/

/-- Everything a turn can come to (R23, R55), for a legal configuration. -/
theorem fetch_cases (s : State) :
    s.config.legal = false ∧ fetch s = .refused .illegalConfiguration ∨
    s.config.legal = true ∧
      (s.schedule = [] ∧ fetch s = .settled s ∨
       (∃ ts, s.schedule = .reset :: ts ∧ fetch s = .settled { resetEngine s with schedule := ts }) ∨
       (∃ p ts, s.schedule = .port p :: ts ∧ s.ports[p]? = none ∧ fetch s = .refused (.noSuchPort p)) ∨
       (∃ p ts q i, s.schedule = .port p :: ts ∧ s.ports[p]? = some q ∧ q.inProgress = some i ∧
          fetch s = .run i (s.turnOf p ts)) ∨
       (∃ p ts q, s.schedule = .port p :: ts ∧ s.ports[p]? = some q ∧ q.inProgress = none ∧ q.queue = [] ∧
          fetch s = .settled (s.turnOf p ts)) ∨
       (∃ p ts q w ws, s.schedule = .port p :: ts ∧ s.ports[p]? = some q ∧ q.inProgress = none ∧ q.queue = w :: ws ∧
          fetch s = .run (decodeCommand w) ((s.turnOf p ts).taking (decodeCommand w) ws))) := by
  cases hl : s.config.legal with
  | false => exact .inl ⟨rfl, by simp [fetch, hl]⟩
  | true =>
    refine .inr ⟨rfl, ?_⟩
    cases hs : s.schedule with
    | nil => exact .inl ⟨rfl, by simp [fetch, hl, hs]⟩
    | cons turn ts =>
      cases turn with
      | reset => exact .inr (.inl ⟨ts, rfl, by simp [fetch, hl, hs]⟩)
      | port p =>
        cases hp : s.ports[p]? with
        | none => exact .inr (.inr (.inl ⟨p, ts, rfl, hp, by simp [fetch, hl, hs, hp]⟩))
        | some q =>
          cases hi : q.inProgress with
          | some i =>
            exact .inr (.inr (.inr (.inl ⟨p, ts, q, i, rfl, hp, hi, by simp [fetch, hl, hs, hp, hi]⟩)))
          | none =>
            cases hq : q.queue with
            | nil =>
              exact .inr (.inr (.inr (.inr (.inl ⟨p, ts, q, rfl, hp, hi, hq, by simp [fetch, hl, hs, hp, hi, hq]⟩))))
            | cons w ws =>
              exact .inr (.inr (.inr (.inr (.inr ⟨p, ts, q, w, ws, rfl, hp, hi, hq, by
                simp [fetch, hl, hs, hp, hi, hq]⟩))))

theorem step_of_run {s t : State} {i : Instr} (h : fetch s = .run i t) : step s = exec i t := by simp only [step, h]

theorem step_of_settled {s t : State} (h : fetch s = .settled t) : step s = .next t := by simp only [step, h]

theorem step_of_refused {s : State} {r : Refusal} (h : fetch s = .refused r) : step s = .refused r := by
  simp only [step, h]

/-- Everything a step that gives a next state has done: nothing was scheduled, a reset, a turn with nothing to do, or a command
of the port whose turn it was, in progress already or just taken (R23, R55, R118). -/
theorem step_next {s t : State} (h : step s = .next t) :
    s.config.legal = true ∧
      (s.schedule = [] ∧ t = s ∨
       (∃ ts, s.schedule = .reset :: ts ∧ t = { resetEngine s with schedule := ts }) ∨
       ∃ p ts q, s.schedule = .port p :: ts ∧ s.ports[p]? = some q ∧
         (q.inProgress = none ∧ q.queue = [] ∧ t = s.turnOf p ts ∨
          (∃ i, q.inProgress = some i ∧ exec i (s.turnOf p ts) = .next t) ∨
          ∃ w ws, q.inProgress = none ∧ q.queue = w :: ws ∧
            exec (decodeCommand w) ((s.turnOf p ts).taking (decodeCommand w) ws) = .next t)) := by
  rcases fetch_cases s with ⟨-, e⟩ | ⟨hl, ⟨hs, e⟩ | ⟨ts, hs, e⟩ | ⟨p, ts, -, -, e⟩ | ⟨p, ts, q, i, hs, hp, hi, e⟩ |
    ⟨p, ts, q, hs, hp, hi, hq, e⟩ | ⟨p, ts, q, w, ws, hs, hp, hi, hq, e⟩⟩
  · rw [step_of_refused e] at h
    cases h
  · rw [step_of_settled e] at h
    cases h
    exact ⟨hl, .inl ⟨hs, rfl⟩⟩
  · rw [step_of_settled e] at h
    cases h
    exact ⟨hl, .inr (.inl ⟨ts, hs, rfl⟩)⟩
  · rw [step_of_refused e] at h
    cases h
  · rw [step_of_run e] at h
    exact ⟨hl, .inr (.inr ⟨p, ts, q, hs, hp, .inr (.inl ⟨i, hi, h⟩)⟩)⟩
  · rw [step_of_settled e] at h
    cases h
    exact ⟨hl, .inr (.inr ⟨p, ts, q, hs, hp, .inl ⟨hi, hq, rfl⟩⟩)⟩
  · rw [step_of_run e] at h
    exact ⟨hl, .inr (.inr ⟨p, ts, q, hs, hp, .inr (.inr ⟨w, ws, hi, hq, h⟩)⟩)⟩

end Sys2Proof.Machine
end

