-- ==== Sys2Proof/Laws/PerInstr.lean ====
section
/-! SUPPORT. Instruction by instruction: the encoding of a command selects the row of the opcode map that has its mnemonic (R47). -/

namespace Sys2Proof.Laws.EncodedRow

/-- The encoding of a well-formed command selects the row of its mnemonic. -/
def Statement (i : Instr) : Prop :=
  i.wellFormed = true → ∃ r ∈ opcodeMap, r.mnemonic = mnemonicOf i ∧ r.selects (encode i) = true

/-- Whether a row whose mask reaches no further than `OP` is selected depends on `OP` alone. -/
theorem selects_commandWord (m : String) (value mask op : BitVec 4) (a b : Byte) (h : op &&& mask = value) :
    (OpcodeRow.mk m (value ++ 0#16) (mask ++ 0#16)).selects (commandWord op a b) = true := by
  rw [OpcodeRow.selects, commandWord, BitVec.and_append, BitVec.and_zero, h, beq_self_eq_true]

theorem zero : Statement (.zero) := fun _ =>
  ⟨⟨"ZERO", 0x00000, 0xF0000⟩, by decide, rfl, selects_commandWord "ZERO" 0x0 0xF 0x0 0 0 rfl⟩

theorem one : Statement (.one) := fun _ =>
  ⟨⟨"ONE", 0x10000, 0xF0000⟩, by decide, rfl, selects_commandWord "ONE" 0x1 0xF 0x1 0 0 rfl⟩

theorem fromByte (b : Byte) : Statement (.fromByte b) := fun _ =>
  ⟨⟨"FROM_BYTE", 0x20000, 0xF0000⟩, by decide, rfl, selects_commandWord "FROM_BYTE" 0x2 0xF 0x2 b 0 rfl⟩

theorem toByte (x : Elem) : Statement (.toByte x) := fun _ =>
  ⟨⟨"TO_BYTE", 0x30000, 0xF0000⟩, by decide, rfl, selects_commandWord "TO_BYTE" 0x3 0xF 0x3 x.byte 0 rfl⟩

theorem add (a b : Elem) : Statement (.add a b) := fun _ =>
  ⟨⟨"ADD", 0x40000, 0xF0000⟩, by decide, rfl, selects_commandWord "ADD" 0x4 0xF 0x4 a.byte b.byte rfl⟩

theorem sub (a b : Elem) : Statement (.sub a b) := fun _ =>
  ⟨⟨"SUB", 0x50000, 0xF0000⟩, by decide, rfl, selects_commandWord "SUB" 0x5 0xF 0x5 a.byte b.byte rfl⟩

theorem log (a : Elem) : Statement (.log a) := fun _ =>
  ⟨⟨"LOG", 0x60000, 0xF0000⟩, by decide, rfl, selects_commandWord "LOG" 0x6 0xF 0x6 a.byte 0 rfl⟩

theorem xexp (p : Power) : Statement (.xexp p) := fun _ =>
  ⟨⟨"XEXP", 0x70000, 0xF0000⟩, by decide, rfl, selects_commandWord "XEXP" 0x7 0xF 0x7 p.byte 0 rfl⟩

theorem exp (a : Elem) (p : Power) : Statement (.exp a p) := fun _ =>
  ⟨⟨"EXP", 0x80000, 0xF0000⟩, by decide, rfl, selects_commandWord "EXP" 0x8 0xF 0x8 a.byte p.byte rfl⟩

theorem mul (a b : Elem) : Statement (.mul a b) := fun _ =>
  ⟨⟨"MUL", 0x90000, 0xF0000⟩, by decide, rfl, selects_commandWord "MUL" 0x9 0xF 0x9 a.byte b.byte rfl⟩

theorem div (a b : Elem) : Statement (.div a b) := fun _ =>
  ⟨⟨"DIV", 0xA0000, 0xF0000⟩, by decide, rfl, selects_commandWord "DIV" 0xA 0xF 0xA a.byte b.byte rfl⟩

theorem inv (a : Elem) : Statement (.inv a) := fun _ =>
  ⟨⟨"INV", 0xB0000, 0xF0000⟩, by decide, rfl, selects_commandWord "INV" 0xB 0xF 0xB a.byte 0 rfl⟩

theorem reserved (op : BitVec 4) : Statement (.reserved op) := fun h =>
  ⟨⟨"RESERVED", 0xC0000, 0xC0000⟩, by decide, rfl, selects_commandWord "RESERVED" 0xC 0xC op 0 0 (by revert op; decide)⟩

end Sys2Proof.Laws.EncodedRow
end

