-- ==== Sys2Proof/Laws/Tables.lean ====
section
/-! SUPPORT. What `Build()` leaves in the three tables (R15 to R17, R61, R64), entry by entry. -/

namespace Sys2Proof.Machine

/-! ### Step 2 -/

@[simp] theorem record_expT (t : Tables) (i : Nat) (v : Byte) : (t.record i v).expT = t.expT.write i v := rfl
@[simp] theorem record_logT (t : Tables) (i : Nat) (v : Byte) :
    (t.record i v).logT = t.logT.write v.toNat (BitVec.ofNat 8 i) := rfl
@[simp] theorem record_invT (t : Tables) (i : Nat) (v : Byte) : (t.record i v).invT = t.invT := rfl

/-- `EXP_T` after step 2: the powers of `x` from the starting value on. -/
theorem fillFrom_expT (rc : Byte) :
    ∀ (n i : Nat) (v : Byte) (t : Tables) (j : Nat),
      (fillFrom rc n i v t).expT.read j = if i ≤ j ∧ j ≤ i + n then some (xtimes rc (j - i) v) else t.expT.read j
  | 0, i, v, t, j => by
    rw [fillFrom, record_expT, Memory.read_write]
    by_cases h : j = i
    · simp [h]
    · rw [if_neg h, if_neg (by omega)]
  | n + 1, i, v, t, j => by
    rw [fillFrom, fillFrom_expT rc n, record_expT, Memory.read_write]
    by_cases h : i + 1 ≤ j ∧ j ≤ i + 1 + n
    · rw [if_pos h, if_pos (by omega), ← xtimes_succ', show j - (i + 1) + 1 = j - i by omega]
    · rw [if_neg h]
      by_cases hj : j = i
      · simp [hj]
      · rw [if_neg hj, if_neg (by omega)]

@[simp] theorem fillFrom_invT (rc : Byte) : ∀ (n i : Nat) (v : Byte) (t : Tables), (fillFrom rc n i v t).invT = t.invT
  | 0, _, _, _ => rfl
  | n + 1, i, v, t => by rw [fillFrom, fillFrom_invT rc n, record_invT]

/-- `LOG_T` at a byte that is none of the values recorded keeps what it held. -/
theorem fillFrom_logT_of_ne (rc : Byte) :
    ∀ (n i : Nat) (v : Byte) (t : Tables) (k : Nat), (∀ m, m ≤ n → (xtimes rc m v).toNat ≠ k) →
      (fillFrom rc n i v t).logT.read k = t.logT.read k
  | 0, i, v, t, k, h => by
    rw [fillFrom, record_logT, Memory.read_write_of_ne _ _ (Ne.symm (show v.toNat ≠ k from h 0 (Nat.le_refl 0)))]
  | n + 1, i, v, t, k, h => by
    rw [fillFrom, fillFrom_logT_of_ne rc n _ _ _ k, record_logT,
      Memory.read_write_of_ne _ _ (Ne.symm (show v.toNat ≠ k from h 0 (Nat.zero_le _)))]
    intro m hm
    rw [← xtimes_succ']
    exact h (m + 1) (by omega)

/-- `LOG_T` at the value of an iteration that no later iteration has again holds that iteration's index. -/
theorem fillFrom_logT (rc : Byte) :
    ∀ (n i : Nat) (v : Byte) (t : Tables) (j : Nat), j ≤ n → (∀ m, j < m → m ≤ n → xtimes rc m v ≠ xtimes rc j v) →
      (fillFrom rc n i v t).logT.read (xtimes rc j v).toNat = some (BitVec.ofNat 8 (i + j))
  | 0, i, v, t, j, hj, _ => by
    obtain rfl : j = 0 := by omega
    rw [fillFrom, record_logT, xtimes_zero_left, Memory.read_write_same, Nat.add_zero]
  | n + 1, i, v, t, 0, _, h => by
    rw [fillFrom, fillFrom_logT_of_ne, record_logT, xtimes_zero_left, Memory.read_write_same, Nat.add_zero]
    intro m hm e
    rw [← xtimes_succ'] at e
    exact h (m + 1) (by omega) (by omega) (BitVec.eq_of_toNat_eq e)
  | n + 1, i, v, t, j + 1, hj, h => by
    rw [fillFrom, xtimes_succ', fillFrom_logT rc n _ _ _ j (by omega), show i + 1 + j = i + (j + 1) by omega]
    intro m hm hn
    rw [← xtimes_succ', ← xtimes_succ']
    exact h (m + 1) (by omega) (by omega)

/-! ### Steps 3 and 4 -/

@[simp] theorem duplicate_logT (t : Tables) : t.duplicate.logT = t.logT := rfl
@[simp] theorem duplicate_invT (t : Tables) : t.duplicate.invT = t.invT := rfl

theorem duplicate_expT {t : Tables} {b : Byte} (h : t.expT.read 0 = some b) : t.duplicate.expT = t.expT.write 255 b := by
  simp only [Tables.duplicate, h]

@[simp] theorem invert_expT (t : Tables) (v : Nat) : (t.invert v).expT = t.expT := rfl
@[simp] theorem invert_logT (t : Tables) (v : Nat) : (t.invert v).logT = t.logT := rfl

theorem inverseOf_congr {t u : Tables} (he : t.expT = u.expT) (hl : t.logT = u.logT) (v : Nat) :
    t.inverseOf v = u.inverseOf v := by simp only [Tables.inverseOf, he, hl]

@[simp] theorem invertFrom_expT : ∀ (n v : Nat) (t : Tables), (invertFrom n v t).expT = t.expT
  | 0, _, _ => rfl
  | n + 1, v, t => by rw [invertFrom, invertFrom_expT n, invert_expT]

@[simp] theorem invertFrom_logT : ∀ (n v : Nat) (t : Tables), (invertFrom n v t).logT = t.logT
  | 0, _, _ => rfl
  | n + 1, v, t => by rw [invertFrom, invertFrom_logT n, invert_logT]

/-- `INV_T` outside the entries written keeps what it held. -/
theorem invertFrom_invT_of_lt : ∀ (n v : Nat) (t : Tables) (k : Nat), (k < v ∨ v + n ≤ k) →
    (invertFrom n v t).invT.read k = t.invT.read k
  | 0, _, _, _, _ => rfl
  | n + 1, v, t, k, hk => by
    rw [invertFrom, invertFrom_invT_of_lt n _ _ k (by omega), Tables.invert]
    show Memory.read (match t.inverseOf v with | some w => t.invT.write v w | none => t.invT) k = _
    split
    · exact Memory.read_write_of_ne _ _ (by omega)
    · rfl

/-- `INV_T` at an entry written holds the inverse read off the other two tables. -/
theorem invertFrom_invT : ∀ (n v : Nat) (t : Tables) (k : Nat) (w : Byte), v ≤ k → k < v + n → t.inverseOf k = some w →
    (invertFrom n v t).invT.read k = some w
  | 0, _, _, _, _, _, _, _ => by omega
  | n + 1, v, t, k, w, hv, hk, hw => by
    by_cases e : k = v
    · subst e
      rw [invertFrom, invertFrom_invT_of_lt n _ _ k (by omega)]
      show Memory.read (match t.inverseOf k with | some w => t.invT.write k w | none => t.invT) k = _
      rw [hw]
      exact Memory.read_write_same _ _ _
    · rw [invertFrom]
      exact invertFrom_invT n _ _ k w (by omega) (by omega) ((inverseOf_congr (u := t) rfl rfl k).trans hw)

/-! ### The tables `Build()` writes -/

/-- The tables between step 3 and step 4. -/
def filledTables (rc : Byte) : Tables := (fillFrom rc 254 0 0x01 Tables.empty).duplicate

theorem filled_exp_zero (rc : Byte) : (fillFrom rc 254 0 0x01 Tables.empty).expT.read 0 = some 0x01 := by
  rw [fillFrom_expT, if_pos (by omega)]
  rfl

theorem buildTables_eq (rc : Byte) : buildTables rc = invertFrom 255 1 (filledTables rc) := by
  rw [buildTables, filledTables]

theorem buildTables_expT (rc : Byte) : (buildTables rc).expT = (filledTables rc).expT := by
  rw [buildTables_eq, invertFrom_expT]

theorem buildTables_logT (rc : Byte) : (buildTables rc).logT = (filledTables rc).logT := by
  rw [buildTables_eq, invertFrom_logT]

/-- `exp[i] = x^i` for `i` in 0..254 (R15). -/
theorem read_exp (rc : Byte) {i : Nat} (hi : i < 255) : (buildTables rc).expT.read i = some (xtimes rc i 1) := by
  rw [buildTables_expT, filledTables, duplicate_expT (filled_exp_zero rc), Memory.read_write_of_ne _ _ (by omega),
    fillFrom_expT, if_pos (by omega)]
  rfl

/-- `exp[255] = exp[0] = 0x01` (R15, R62). -/
theorem read_exp_255 (rc : Byte) : (buildTables rc).expT.read 255 = some 0x01 := by
  rw [buildTables_expT, filledTables, duplicate_expT (filled_exp_zero rc), Memory.read_write_same]

/-- Under a legal `RC` every index of `EXP_T` holds the power of `x`, 255 included. -/
theorem read_exp_legal {rc : Byte} (h : rc ∈ Config.legalRcs) {i : Nat} (hi : i ≤ 255) :
    (buildTables rc).expT.read i = some (xtimes rc i 1) := by
  by_cases e : i = 255
  · subst e
    rw [read_exp_255, xtimes_255 h]
  · exact read_exp rc (by omega)

/-- `log[x^i] = i` for `i` in 0..254 (R16). -/
theorem read_log {rc : Byte} (h : rc ∈ Config.legalRcs) {i : Nat} (hi : i < 255) :
    (buildTables rc).logT.read (xtimes rc i 1).toNat = some (BitVec.ofNat 8 i) := by
  rw [buildTables_logT, filledTables, duplicate_logT,
    show (xtimes rc i 1) = xtimes rc i 0x01 from rfl, fillFrom_logT rc 254 0 0x01 _ i (by omega), Nat.zero_add]
  intro m hm hn e
  have := (xtimes_eq_iff h m i).1 e
  omega

/-- `log[0]` is never written (R18, R64). -/
theorem read_log_zero {rc : Byte} (h : rc ∈ Config.legalRcs) : (buildTables rc).logT.read 0 = none := by
  rw [buildTables_logT, filledTables, duplicate_logT, fillFrom_logT_of_ne]
  · rfl
  · intro m _ e
    exact xtimes_ne_zero h m (BitVec.eq_of_toNat_eq e)

/-- The logarithm of a nonzero byte: it is in 0..254, `LOG_T` holds it, and `x` raised to it is the byte (R16). -/
theorem exists_log {rc : Byte} (h : rc ∈ Config.legalRcs) {v : Byte} (hv : v ≠ 0) :
    ∃ i, i < 255 ∧ xtimes rc i 1 = v ∧ (buildTables rc).logT.read v.toNat = some (BitVec.ofNat 8 i) := by
  obtain ⟨i, hi, rfl⟩ := exists_xtimes h hv
  exact ⟨i, hi, rfl, read_log h hi⟩

theorem toNat_log {i : Nat} (hi : i < 255) : (BitVec.ofNat 8 i).toNat = i := by
  rw [BitVec.toNat_ofNat, Nat.mod_eq_of_lt (by omega)]

/-- The logarithm the byte of an exponent in 0..254 stands for. -/
theorem logOf_ofNat {i : Nat} (hi : i < 255) : logOf (BitVec.ofNat 8 i) = some ⟨⟨i, hi⟩⟩ := logOf_logByte ⟨⟨i, hi⟩⟩

theorem filled_inverseOf {rc : Byte} (h : rc ∈ Config.legalRcs) {i : Nat} (hi : i < 255) :
    (filledTables rc).inverseOf (xtimes rc i 1).toNat = some (xtimes rc ((255 - i) % 255) 1) := by
  have hl := read_log h hi
  rw [buildTables_logT] at hl
  simp only [Tables.inverseOf, hl, Option.bind_some, logOf_ofNat hi, buildInvIndex, buildInvSum]
  rw [← buildTables_expT, read_exp rc (by omega)]

/-- `inv[x^i] = x^((255 - i) mod 255)` (R17, R63). -/
theorem read_inv {rc : Byte} (h : rc ∈ Config.legalRcs) {i : Nat} (hi : i < 255) :
    (buildTables rc).invT.read (xtimes rc i 1).toNat = some (xtimes rc ((255 - i) % 255) 1) := by
  have hne : (xtimes rc i 1).toNat ≠ 0 := fun e => xtimes_ne_zero h i (BitVec.eq_of_toNat_eq e)
  have hlt := (xtimes rc i 1).isLt
  rw [buildTables_eq]
  exact invertFrom_invT 255 1 _ _ _ (by omega) (by omega) (filled_inverseOf h hi)

/-- `inv[0]` is never written (R18, R64). -/
theorem read_inv_zero (rc : Byte) : (buildTables rc).invT.read 0 = none := by
  rw [buildTables_eq, invertFrom_invT_of_lt 255 1 _ 0 (by omega), filledTables, duplicate_invT, fillFrom_invT]
  rfl

end Sys2Proof.Machine
end

