-- ==== Sys2Proof/Tests/Slice0.lean ====
section
/-! SUPPORT. The model's own tests: expected results are those of spec/95_test_vectors.md and of the encodings of R47. Then, for every obligation that
has hypotheses, a witness that meets them. -/

namespace Sys2Proof.Tests

open Sys2Proof Sys2Proof.Machine

/-! ### The spec's tables for `RC = 0x1D` -/

/-- `exp` of spec/95_test_vectors.md section 3, indices 0..255. -/
def specExp : List Byte :=
  [0x01, 0x02, 0x04, 0x08, 0x10, 0x20, 0x40, 0x80, 0x1D, 0x3A, 0x74, 0xE8, 0xCD, 0x87, 0x13, 0x26] ++
  [0x4C, 0x98, 0x2D, 0x5A, 0xB4, 0x75, 0xEA, 0xC9, 0x8F, 0x03, 0x06, 0x0C, 0x18, 0x30, 0x60, 0xC0] ++
  [0x9D, 0x27, 0x4E, 0x9C, 0x25, 0x4A, 0x94, 0x35, 0x6A, 0xD4, 0xB5, 0x77, 0xEE, 0xC1, 0x9F, 0x23] ++
  [0x46, 0x8C, 0x05, 0x0A, 0x14, 0x28, 0x50, 0xA0, 0x5D, 0xBA, 0x69, 0xD2, 0xB9, 0x6F, 0xDE, 0xA1] ++
  [0x5F, 0xBE, 0x61, 0xC2, 0x99, 0x2F, 0x5E, 0xBC, 0x65, 0xCA, 0x89, 0x0F, 0x1E, 0x3C, 0x78, 0xF0] ++
  [0xFD, 0xE7, 0xD3, 0xBB, 0x6B, 0xD6, 0xB1, 0x7F, 0xFE, 0xE1, 0xDF, 0xA3, 0x5B, 0xB6, 0x71, 0xE2] ++
  [0xD9, 0xAF, 0x43, 0x86, 0x11, 0x22, 0x44, 0x88, 0x0D, 0x1A, 0x34, 0x68, 0xD0, 0xBD, 0x67, 0xCE] ++
  [0x81, 0x1F, 0x3E, 0x7C, 0xF8, 0xED, 0xC7, 0x93, 0x3B, 0x76, 0xEC, 0xC5, 0x97, 0x33, 0x66, 0xCC] ++
  [0x85, 0x17, 0x2E, 0x5C, 0xB8, 0x6D, 0xDA, 0xA9, 0x4F, 0x9E, 0x21, 0x42, 0x84, 0x15, 0x2A, 0x54] ++
  [0xA8, 0x4D, 0x9A, 0x29, 0x52, 0xA4, 0x55, 0xAA, 0x49, 0x92, 0x39, 0x72, 0xE4, 0xD5, 0xB7, 0x73] ++
  [0xE6, 0xD1, 0xBF, 0x63, 0xC6, 0x91, 0x3F, 0x7E, 0xFC, 0xE5, 0xD7, 0xB3, 0x7B, 0xF6, 0xF1, 0xFF] ++
  [0xE3, 0xDB, 0xAB, 0x4B, 0x96, 0x31, 0x62, 0xC4, 0x95, 0x37, 0x6E, 0xDC, 0xA5, 0x57, 0xAE, 0x41] ++
  [0x82, 0x19, 0x32, 0x64, 0xC8, 0x8D, 0x07, 0x0E, 0x1C, 0x38, 0x70, 0xE0, 0xDD, 0xA7, 0x53, 0xA6] ++
  [0x51, 0xA2, 0x59, 0xB2, 0x79, 0xF2, 0xF9, 0xEF, 0xC3, 0x9B, 0x2B, 0x56, 0xAC, 0x45, 0x8A, 0x09] ++
  [0x12, 0x24, 0x48, 0x90, 0x3D, 0x7A, 0xF4, 0xF5, 0xF7, 0xF3, 0xFB, 0xEB, 0xCB, 0x8B, 0x0B, 0x16] ++
  [0x2C, 0x58, 0xB0, 0x7D, 0xFA, 0xE9, 0xCF, 0x83, 0x1B, 0x36, 0x6C, 0xD8, 0xAD, 0x47, 0x8E, 0x01]

/-- `log` of section 3, indices 1..255: entry 0 has no value. -/
def specLog : List Byte :=
  [0x00, 0x01, 0x19, 0x02, 0x32, 0x1A, 0xC6, 0x03, 0xDF, 0x33, 0xEE, 0x1B, 0x68, 0xC7, 0x4B] ++
  [0x04, 0x64, 0xE0, 0x0E, 0x34, 0x8D, 0xEF, 0x81, 0x1C, 0xC1, 0x69, 0xF8, 0xC8, 0x08, 0x4C, 0x71] ++
  [0x05, 0x8A, 0x65, 0x2F, 0xE1, 0x24, 0x0F, 0x21, 0x35, 0x93, 0x8E, 0xDA, 0xF0, 0x12, 0x82, 0x45] ++
  [0x1D, 0xB5, 0xC2, 0x7D, 0x6A, 0x27, 0xF9, 0xB9, 0xC9, 0x9A, 0x09, 0x78, 0x4D, 0xE4, 0x72, 0xA6] ++
  [0x06, 0xBF, 0x8B, 0x62, 0x66, 0xDD, 0x30, 0xFD, 0xE2, 0x98, 0x25, 0xB3, 0x10, 0x91, 0x22, 0x88] ++
  [0x36, 0xD0, 0x94, 0xCE, 0x8F, 0x96, 0xDB, 0xBD, 0xF1, 0xD2, 0x13, 0x5C, 0x83, 0x38, 0x46, 0x40] ++
  [0x1E, 0x42, 0xB6, 0xA3, 0xC3, 0x48, 0x7E, 0x6E, 0x6B, 0x3A, 0x28, 0x54, 0xFA, 0x85, 0xBA, 0x3D] ++
  [0xCA, 0x5E, 0x9B, 0x9F, 0x0A, 0x15, 0x79, 0x2B, 0x4E, 0xD4, 0xE5, 0xAC, 0x73, 0xF3, 0xA7, 0x57] ++
  [0x07, 0x70, 0xC0, 0xF7, 0x8C, 0x80, 0x63, 0x0D, 0x67, 0x4A, 0xDE, 0xED, 0x31, 0xC5, 0xFE, 0x18] ++
  [0xE3, 0xA5, 0x99, 0x77, 0x26, 0xB8, 0xB4, 0x7C, 0x11, 0x44, 0x92, 0xD9, 0x23, 0x20, 0x89, 0x2E] ++
  [0x37, 0x3F, 0xD1, 0x5B, 0x95, 0xBC, 0xCF, 0xCD, 0x90, 0x87, 0x97, 0xB2, 0xDC, 0xFC, 0xBE, 0x61] ++
  [0xF2, 0x56, 0xD3, 0xAB, 0x14, 0x2A, 0x5D, 0x9E, 0x84, 0x3C, 0x39, 0x53, 0x47, 0x6D, 0x41, 0xA2] ++
  [0x1F, 0x2D, 0x43, 0xD8, 0xB7, 0x7B, 0xA4, 0x76, 0xC4, 0x17, 0x49, 0xEC, 0x7F, 0x0C, 0x6F, 0xF6] ++
  [0x6C, 0xA1, 0x3B, 0x52, 0x29, 0x9D, 0x55, 0xAA, 0xFB, 0x60, 0x86, 0xB1, 0xBB, 0xCC, 0x3E, 0x5A] ++
  [0xCB, 0x59, 0x5F, 0xB0, 0x9C, 0xA9, 0xA0, 0x51, 0x0B, 0xF5, 0x16, 0xEB, 0x7A, 0x75, 0x2C, 0xD7] ++
  [0x4F, 0xAE, 0xD5, 0xE9, 0xE6, 0xE7, 0xAD, 0xE8, 0x74, 0xD6, 0xF4, 0xEA, 0xA8, 0x50, 0x58, 0xAF]

/-- `inv` of section 3, indices 1..255: entry 0 has no value. -/
def specInv : List Byte :=
  [0x01, 0x8E, 0xF4, 0x47, 0xA7, 0x7A, 0xBA, 0xAD, 0x9D, 0xDD, 0x98, 0x3D, 0xAA, 0x5D, 0x96] ++
  [0xD8, 0x72, 0xC0, 0x58, 0xE0, 0x3E, 0x4C, 0x66, 0x90, 0xDE, 0x55, 0x80, 0xA0, 0x83, 0x4B, 0x2A] ++
  [0x6C, 0xED, 0x39, 0x51, 0x60, 0x56, 0x2C, 0x8A, 0x70, 0xD0, 0x1F, 0x4A, 0x26, 0x8B, 0x33, 0x6E] ++
  [0x48, 0x89, 0x6F, 0x2E, 0xA4, 0xC3, 0x40, 0x5E, 0x50, 0x22, 0xCF, 0xA9, 0xAB, 0x0C, 0x15, 0xE1] ++
  [0x36, 0x5F, 0xF8, 0xD5, 0x92, 0x4E, 0xA6, 0x04, 0x30, 0x88, 0x2B, 0x1E, 0x16, 0x67, 0x45, 0x93] ++
  [0x38, 0x23, 0x68, 0x8C, 0x81, 0x1A, 0x25, 0x61, 0x13, 0xC1, 0xCB, 0x63, 0x97, 0x0E, 0x37, 0x41] ++
  [0x24, 0x57, 0xCA, 0x5B, 0xB9, 0xC4, 0x17, 0x4D, 0x52, 0x8D, 0xEF, 0xB3, 0x20, 0xEC, 0x2F, 0x32] ++
  [0x28, 0xD1, 0x11, 0xD9, 0xE9, 0xFB, 0xDA, 0x79, 0xDB, 0x77, 0x06, 0xBB, 0x84, 0xCD, 0xFE, 0xFC] ++
  [0x1B, 0x54, 0xA1, 0x1D, 0x7C, 0xCC, 0xE4, 0xB0, 0x49, 0x31, 0x27, 0x2D, 0x53, 0x69, 0x02, 0xF5] ++
  [0x18, 0xDF, 0x44, 0x4F, 0x9B, 0xBC, 0x0F, 0x5C, 0x0B, 0xDC, 0xBD, 0x94, 0xAC, 0x09, 0xC7, 0xA2] ++
  [0x1C, 0x82, 0x9F, 0xC6, 0x34, 0xC2, 0x46, 0x05, 0xCE, 0x3B, 0x0D, 0x3C, 0x9C, 0x08, 0xBE, 0xB7] ++
  [0x87, 0xE5, 0xEE, 0x6B, 0xEB, 0xF2, 0xBF, 0xAF, 0xC5, 0x64, 0x07, 0x7B, 0x95, 0x9A, 0xAE, 0xB6] ++
  [0x12, 0x59, 0xA5, 0x35, 0x65, 0xB8, 0xA3, 0x9E, 0xD2, 0xF7, 0x62, 0x5A, 0x85, 0x7D, 0xA8, 0x3A] ++
  [0x29, 0x71, 0xC8, 0xF6, 0xF9, 0x43, 0xD7, 0xD6, 0x10, 0x73, 0x76, 0x78, 0x99, 0x0A, 0x19, 0x91] ++
  [0x14, 0x3F, 0xE6, 0xF0, 0x86, 0xB1, 0xE2, 0xF1, 0xFA, 0x74, 0xF3, 0xB4, 0x6D, 0x21, 0xB2, 0x6A] ++
  [0xE3, 0xE7, 0xB5, 0xEA, 0x03, 0x8F, 0xD3, 0xC9, 0x42, 0xD4, 0xE8, 0x75, 0x7F, 0xFF, 0x7E, 0xFD]

/-- A memory that holds the bytes from index `i` on. -/
def cellsFrom : Nat → List Byte → Memory
  | _, [] => []
  | i, b :: bs => (i, b) :: cellsFrom (i + 1) bs

def specTables : Tables where
  expT := cellsFrom 0 specExp
  logT := cellsFrom 1 specLog
  invT := cellsFrom 1 specInv

/-- `Build()` writes the spec's tables (R61 and section 3). -/
theorem test_build_exp : (buildTables 0x1D).expT = specTables.expT := by decide +kernel

theorem test_build_log : (buildTables 0x1D).logT = specTables.logT := by decide +kernel

theorem test_build_inv : (buildTables 0x1D).invT = specTables.invT := by decide +kernel

theorem specTables_eq : buildTables 0x1D = specTables := by
  have he := test_build_exp
  have hl := test_build_log
  have hi := test_build_inv
  generalize buildTables 0x1D = t at he hl hi ⊢
  cases t
  cases he
  cases hl
  cases hi
  rfl

/-! ### States and replies -/

/-- `State.reset` with the spec's tables already built. -/
def built : State := { State.reset with tables := specTables, tblValid := true }

def nextOf : Result → Option State
  | .next t => some t
  | .fault _ => none
  | .refused _ => none

def faultOf : Result → Option Fault
  | .fault f => some f
  | .next _ => none
  | .refused _ => none

/-- What port 0 has been answered last. -/
def lastReply (t : State) : Option ResponseWord :=
  match t.ports with
  | q :: _ => q.responses.getLast?.map Response.toWire
  | [] => none

/-- What port 0 is answered in one step when the word `w` is presented to it in `s`. -/
def replyTo (s : State) (w : CommandWord) : Option ResponseWord := (nextOf (step (s.withFetchWord 20 w.toNat))).bind lastReply

/-- `TBL_VALID` after that step. -/
def validAfter (s : State) (w : CommandWord) : Option Bool := (nextOf (step (s.withFetchWord 20 w.toNat))).map (·.tblValid)

/-! ### Well-formedness and decoding -/

/-- `OP` of a reserved command is one of 0xC..0xF (R51). -/
theorem test_wellFormed_reserved :
    (Instr.reserved 0xB).wellFormed = false ∧ (Instr.reserved 0x0).wellFormed = false ∧
    (Instr.reserved 0xC).wellFormed = true ∧ (Instr.reserved 0xF).wellFormed = true := by decide

/-- One word per row of R47, written out bit by bit: `OP`, then `A`, then `B`. -/
theorem test_decode_value_ops :
    decodeCommand 0b0000_10101010_01010101 = .zero ∧ decodeCommand 0b0001_00000000_11111111 = .one ∧
    decodeCommand 0b0010_01001011_00000000 = .fromByte 0x4B ∧ decodeCommand 0b0011_10101110_00000000 = .toByte ⟨0xAE⟩ := by
  decide

theorem test_decode_additive_ops :
    decodeCommand 0b0100_00000101_10101011 = .add ⟨0x05⟩ ⟨0xAB⟩ ∧
    decodeCommand 0b0101_10101110_00000101 = .sub ⟨0xAE⟩ ⟨0x05⟩ := by decide

theorem test_decode_log_exp_ops :
    decodeCommand 0b0110_00000011_00000000 = .log ⟨0x03⟩ ∧ decodeCommand 0b0111_11111110_00000000 = .xexp ⟨0xFE⟩ ∧
    decodeCommand 0b1000_00000011_11111110 = .exp ⟨0x03⟩ ⟨0xFE⟩ := by decide

theorem test_decode_multiplicative_ops :
    decodeCommand 0b1001_01010011_11001010 = .mul ⟨0x53⟩ ⟨0xCA⟩ ∧
    decodeCommand 0b1010_00000101_00000000 = .div ⟨0x05⟩ ⟨0x00⟩ ∧ decodeCommand 0b1011_10001110_00000000 = .inv ⟨0x8E⟩ := by
  decide

theorem test_decode_reserved :
    decodeCommand 0b1100_00000000_00000000 = .reserved 0xC ∧ decodeCommand 0b1101_00010010_00110100 = .reserved 0xD ∧
    decodeCommand 0b1110_00000000_00000000 = .reserved 0xE ∧ decodeCommand 0b1111_11111111_11111111 = .reserved 0xF := by
  decide

/-- A number wider than a command is rejected by name (R45); the table's numbering is the word's own. -/
theorem test_decode_width :
    decode 0x100000 = .error .widerThanACommand ∧ decodeTableWord 20 0x953CA = some (.mul ⟨0x53⟩ ⟨0xCA⟩) ∧
    decodeTableWord 24 0x1953CA = none := by decide

/-- The encoder, against the `CMD` column of sections 2.2 to 4.6. -/
theorem test_encode :
    encode .zero = 0x00000 ∧ encode .one = 0x10000 ∧ encode (.fromByte 0x4B) = 0x24B00 ∧ encode (.toByte ⟨0xAE⟩) = 0x3AE00 ∧
    encode (.add ⟨0x05⟩ ⟨0xAB⟩) = 0x405AB ∧ encode (.sub ⟨0xAE⟩ ⟨0x05⟩) = 0x5AE05 ∧ encode (.log ⟨0x03⟩) = 0x60300 ∧
    encode (.xexp ⟨25⟩) = 0x71900 ∧ encode (.exp ⟨0x03⟩ ⟨254⟩) = 0x803FE ∧ encode (.mul ⟨0x53⟩ ⟨0xCA⟩) = 0x953CA ∧
    encode (.div ⟨0x05⟩ ⟨0x00⟩) = 0xA0500 ∧ encode (.inv ⟨0x02⟩) = 0xB0200 ∧ encode (.reserved 0xC) = 0xC0000 := by decide

/-! ### One step per command -/

/-- ZERO: spec/95_test_vectors.md section 2.2. -/
theorem test_zero :
    [0x00000, 0x0FFFF].map (replyTo State.reset) =
      [some 0x000, some 0x000] := by decide +kernel

/-- ONE: section 2.2. -/
theorem test_one :
    [0x10000, 0x1ABCD].map (replyTo State.reset) =
      [some 0x001, some 0x001] := by decide +kernel

/-- FROM_BYTE: section 2.2. -/
theorem test_from_byte :
    [0x20000, 0x24B00, 0x2FF77].map (replyTo State.reset) =
      [some 0x000, some 0x04B, some 0x0FF] := by decide +kernel

/-- TO_BYTE: section 2.2. -/
theorem test_to_byte :
    [0x3AE00].map (replyTo State.reset) =
      [some 0x0AE] := by decide +kernel

/-- ADD: sections 1 (S1) and 2.2. -/
theorem test_add :
    [0x40000, 0x4FFFF, 0x4AA55, 0x405AB, 0x4AB05].map (replyTo State.reset) =
      [some 0x000, some 0x000, some 0x0FF, some 0x0AE, some 0x0AE] := by decide +kernel

/-- SUB: section 2.2. -/
theorem test_sub :
    [0x5AE05, 0x5AEAB, 0x500AB, 0x53737].map (replyTo State.reset) =
      [some 0x0AB, some 0x005, some 0x0AB, some 0x000] := by decide +kernel

/-- LOG: sections 2.3 and 4.2. -/
theorem test_log :
    [0x60000, 0x60100, 0x68000, 0x60300, 0x61D00, 0x68E00, 0x6FF00].map (replyTo built) =
      [some 0x100, some 0x000, some 0x007, some 0x019, some 0x008, some 0x0FE, some 0x0AF] := by decide +kernel

/-- XEXP: sections 2.3 and 4.2. -/
theorem test_xexp :
    [0x70000, 0x70700, 0x70800, 0x77F00, 0x78000, 0x7FE00, 0x7FF00].map (replyTo built) =
      [some 0x001, some 0x080, some 0x01D, some 0x0CC, some 0x085, some 0x08E, some 0x001] := by decide +kernel

/-- EXP: sections 1 (S6), 2.3 and 4.3. -/
theorem test_exp :
    [0x80000, 0x800FF, 0x88F00, 0x88F01, 0x88FFF, 0x803FE, 0x8D603, 0x8FFFE, 0x88EFF, 0x8CA55].map (replyTo built) =
      [some 0x000, some 0x000, some 0x001, some 0x08F, some 0x001, some 0x0F4, some 0x001, some 0x0FD, some 0x001, some 0x0D6] := by decide +kernel

/-- MUL: sections 1 (S2, S3), 2.3 and 4.4. -/
theorem test_mul :
    [0x90000, 0x9007F, 0x97F00, 0x9014B, 0x953CA, 0x9028E, 0x98E8E, 0x9FFFF, 0x905AB].map (replyTo built) =
      [some 0x000, some 0x000, some 0x000, some 0x04B, some 0x08F, some 0x001, some 0x047, some 0x0E2, some 0x03D] := by decide +kernel

/-- DIV: sections 1 (S4, S5), 2.3 and 4.5. -/
theorem test_div :
    [0xA0500, 0xA0000, 0xA0005, 0xA3737, 0xA0101, 0xA53CA, 0xACA53, 0xA8E01, 0xA018E].map (replyTo built) =
      [some 0x200, some 0x200, some 0x000, some 0x001, some 0x001, some 0x06D, some 0x0EC, some 0x08E, some 0x002] := by decide +kernel

/-- INV: sections 2.3 and 4.6. -/
theorem test_inv :
    [0xB0000, 0xB0100, 0xB0200, 0xB8E00, 0xB3700, 0xBFF00].map (replyTo built) =
      [some 0x100, some 0x001, some 0x08E, some 0x002, some 0x05E, some 0x0FD] := by decide +kernel

/-- RESERVED: section 2.4. -/
theorem test_reserved :
    [0xC0000, 0xD1234, 0xE0000, 0xFFFFF].map (replyTo State.reset) =
      [some 0x300, some 0x300, some 0x300, some 0x300] := by decide +kernel

/-- The first table command after reset builds the tables and is answered in the same step (programs P1 and P2, section 5; D16): so with a zero operand. -/
theorem test_first_use :
    replyTo State.reset 0x953CA = some 0x08F ∧ validAfter State.reset 0xB0000 = some true ∧
    validAfter State.reset 0x53737 = some false ∧ validAfter State.reset 0xFFFFF = some false := by decide +kernel

/-! ### Construction and `xtime` -/

/-- Sections 2.1 and 4.1. -/
theorem test_xtime :
    xtime 0x1D 0x00 = 0x00 ∧ xtime 0x1D 0x01 = 0x02 ∧ xtime 0x1D 0x40 = 0x80 ∧ xtime 0x1D 0x7F = 0xFE ∧
    xtime 0x1D 0x80 = 0x1D ∧ xtime 0x1D 0x81 = 0x1F ∧ xtime 0x1D 0xFF = 0xE3 ∧ xtime 0x1D 0x74 = 0xE8 ∧
    xtime 0x1D 0xE8 = 0xCD ∧ xtime 0x1D 0x8E = 0x01 := by decide

/-- Section 2.5, for every legal `RC`: `exp[254]`, `mul(0x53,0xCA)`, and the byte that is `inv(0x03)`, by the arithmetic without tables. -/
theorem test_every_rc :
    Config.legalRcs.map (fun rc => (genPow rc 254).byte) =
      [0x8E, 0x95, 0x96, 0xA6, 0xAF, 0xB1, 0xB2, 0xB4, 0xB8, 0xC3, 0xC6, 0xD4, 0xE1, 0xE7, 0xF3, 0xFA] ∧
    Config.legalRcs.map (fun rc => clmul rc 0x53 0xCA) =
      [0x8F, 0xDD, 0x4B, 0x94, 0x31, 0xA2, 0x1A, 0x03, 0x19, 0xA8, 0x21, 0x1B, 0x12, 0x6D, 0x50, 0x2B] ∧
    List.zipWith (fun rc w => clmul rc 0x03 w) Config.legalRcs
      [0xF4, 0xE6, 0xE4, 0xC4, 0xCA, 0xDE, 0xDC, 0xD8, 0xD0, 0x82, 0x84, 0x98, 0xBE, 0xBA, 0xA2, 0xAC] =
      List.replicate 16 0x01 := by decide +kernel

/-- Section 2.5: `log[0x03]` and `log[0xFF]` for three of them. -/
theorem test_log_every_rc :
    discreteLog 0x2B ⟨0x03⟩ = some 243 ∧ discreteLog 0x2B ⟨0xFF⟩ = some 171 ∧ discreteLog 0x8D ⟨0x03⟩ = some 59 ∧
    discreteLog 0xF5 ⟨0xFF⟩ = some 173 := by decide +kernel

/-- Under 0x1B the orbit of 0x01 closes after 51 steps, and the configuration is refused (R7, D3). -/
theorem test_illegal_rc : xtimes 0x1B 51 0x01 = 0x01 := by decide +kernel

theorem test_illegal_configuration :
    step { State.reset with config := { Config.default with rc := 0x1B } } = .refused .illegalConfiguration := rfl

/-! ### The host's notation -/

/-- The example of R56, and lines of programs P1 and P2. -/
theorem test_assemble :
    assemble "MUL 0x02, 0x80" = some 0x90280 ∧ assemble "one ; no operand" = some 0x10000 ∧
    assemble "XEXP 255" = some 0x7FF00 ∧ assemble "ADD 1, 256" = none ∧ assemble "INV" = none := by decide +kernel

theorem test_forwarding :
    (parseLine "r2 = DIV r1, 0x53").bind (lineWord [("r1".toList, .value (.elem ⟨0x8F⟩))]) = some 0xA8F53 ∧
    (parseLine "r3 = ADD r2, 0x05").bind (lineWord [("r2".toList, .absent)]) = none ∧
    stopsProgram .divisionByZero = true ∧ stopsProgram .absent = false := by decide +kernel

/-! ### Ports and reset -/

/-- Two ports and construction shown turn by turn, port 0 holding `MUL 0x53, 0xCA` as the builder (program P6). -/
def waiting : State :=
  { State.resetFor { Config.default with nports := 2, grain := .stepwise } with
    builder := some ⟨0, Progress.start⟩
    ports := [⟨[], some (.mul ⟨0x53⟩ ⟨0xCA⟩), []⟩, ⟨[0xB0200, 0x40101], none, []⟩]
    schedule := [.port 1, .port 0] }

/-- A table command waits while another port builds (R66). -/
theorem test_held :
    (nextOf (step waiting)).map (·.ports) =
      some [⟨[], some (.mul ⟨0x53⟩ ⟨0xCA⟩), []⟩, ⟨[0x40101], some (.inv ⟨0x02⟩), []⟩] := by decide +kernel

/-- The builder's own turn writes `exp[0]` and `log[1]` first (R61). -/
theorem test_builder_turn :
    (nextOf (step { waiting with schedule := [.port 0] })).map (fun t => (t.tables.expT, t.tables.logT, t.tblValid)) =
      some ([(0, 0x01)], [(1, 0x00)], false) := by decide +kernel

/-- `ADD` needs no table and does not wait (program P6). -/
theorem test_add_does_not_wait :
    (nextOf (step { waiting with ports := [⟨[], some (.mul ⟨0x53⟩ ⟨0xCA⟩), []⟩, ⟨[0x40101], none, []⟩] })).map (·.ports) =
      some [⟨[], some (.mul ⟨0x53⟩ ⟨0xCA⟩), []⟩, ⟨[], none, [.value (.elem ⟨0x00⟩)]⟩] := by decide +kernel

/-- A reset in the middle of construction abandons it and the command (R120). -/
theorem test_reset_abandons :
    (nextOf (step { waiting with tables := ⟨[(0, 0x01)], [(1, 0x00)], []⟩, schedule := [.reset] })).map
        (fun t => (t.tables.expT, t.tblValid, t.building, t.ports.map (·.inProgress))) =
      some ([], false, false, [none, none]) := by decide +kernel

/-- No entry without a value is read as a byte, and no byte that is no logarithm as one: the model faults (R10, R18, D20). -/
theorem test_unreadable_entry :
    faultOf (withEntry .log 0 built fun _ => .next built) = some (.unreadableEntry .log 0) ∧
    faultOf (withEntry .inv 0 built fun _ => .next built) = some (.unreadableEntry .inv 0) ∧
    faultOf (withEntry .exp 0 State.reset fun _ => .next built) = some (.unreadableEntry .exp 0) ∧
    faultOf (withLog ⟨0x01⟩ { built with tables := ⟨[], [(1, 0xFF)], []⟩ } fun _ => .next built) =
      some (.notALogarithm 0xFF) := by decide +kernel

/-! ### States the witnesses use -/

theorem reset_active : State.reset.HasActivePort := by show 0 < 1; decide

theorem reset_available : State.reset.Available where
  legal := by decide
  activePort := reset_active
  tablesBuilt := fun h => nomatch h
  unblocked := .inr ⟨rfl, rfl⟩

theorem built_available : built.Available where
  legal := by decide
  activePort := by show 0 < 1; decide
  tablesBuilt := fun _ => specTables_eq.symm
  unblocked := .inl rfl

theorem reset_inv : State.reset.Inv where
  legal := by decide
  portCount := rfl
  activePort := reset_active
  built := fun h => nomatch h
  absent := fun _ _ => rfl
  partway := fun _ h => nomatch h
  builderPort := fun _ h => nomatch h
  grain := fun _ => rfl
  constant := fun h => nomatch h
  heldNeedsTables := by decide

/-- The tables exist, and port 0 has the turn with `MUL 0x53, 0xCA` presented. -/
def busy : State := { built with ports := [⟨[0x953CA], none, []⟩], schedule := [.port 0] }

theorem busy_inv : busy.Inv where
  legal := by decide
  portCount := rfl
  activePort := by show 0 < 1; decide
  built := fun _ => specTables_eq.symm
  absent := fun h => nomatch h
  partway := fun _ h => nomatch h
  builderPort := fun _ h => nomatch h
  grain := fun _ => rfl
  constant := fun h => nomatch h
  heldNeedsTables := by decide

theorem waiting_inv (ts : List Turn) : State.Inv { waiting with schedule := ts } where
  legal := by show waiting.config.legal = true; decide
  portCount := rfl
  activePort := by show 0 < 2; decide
  built := fun h => nomatch h
  absent := fun _ h => nomatch h
  partway := fun b h => by
    obtain rfl : (⟨0, Progress.start⟩ : Builder) = b := Option.some.inj h
    exact ⟨rfl, 0, by decide, rfl⟩
  builderPort := fun b h => by
    obtain rfl : (⟨0, Progress.start⟩ : Builder) = b := Option.some.inj h
    exact ⟨_, _, rfl, rfl⟩
  grain := fun h => nomatch h
  constant := fun h => nomatch h
  heldNeedsTables := by show ∀ q ∈ waiting.ports, ∀ i, q.inProgress = some i → needsTables i = true; decide

/-- Two ports and stepwise construction not begun, with `MUL 0x53, 0xCA` presented on port 0, and `INV 0x02` and `ADD` on port 1. -/
def sharing (ts : List Turn) : State :=
  { State.resetFor { Config.default with nports := 2, grain := .stepwise } with
    ports := [⟨[0x953CA], none, []⟩, ⟨[0xB0200, 0x40101], none, []⟩]
    schedule := ts }

theorem sharing_inv (ts : List Turn) : (sharing ts).Inv where
  legal := by show (sharing []).config.legal = true; decide
  portCount := rfl
  activePort := by show 0 < 2; decide
  built := fun h => nomatch h
  absent := fun _ _ => rfl
  partway := fun _ h => nomatch h
  builderPort := fun _ h => nomatch h
  grain := fun h => nomatch h
  constant := fun h => nomatch h
  heldNeedsTables := by show ∀ q ∈ (sharing []).ports, ∀ i, q.inProgress = some i → needsTables i = true; decide

/-- `n` turns of port 1, each followed by one of port 0. -/
def alternate : Nat → List Turn
  | 0 => []
  | n + 1 => .port 1 :: .port 0 :: alternate n

theorem count_alternate : ∀ n, (alternate n).count (.port 0) = n ∧ (alternate n).count (.port 1) = n
  | 0 => ⟨rfl, rfl⟩
  | n + 1 => by
    obtain ⟨h0, h1⟩ := count_alternate n
    constructor <;> simp [alternate, h0, h1]

theorem mem_alternate : ∀ {n : Nat} {a : Turn}, a ∈ alternate n → ∃ r, r < 2 ∧ a = .port r
  | n + 1, a, h => by
    rcases List.mem_cons.1 h with e | h
    · exact ⟨1, by decide, e⟩
    · rcases List.mem_cons.1 h with e | h
      · exact ⟨0, by decide, e⟩
      · exact mem_alternate h

/-! ### Witnesses: for every obligation with hypotheses, a state and operands that meet them -/

theorem witness_EveryWordDecodesByItsOpcode :
    2 ^ 20 ≤ 0x100000 ∧
    [0x0FFFF, 0x1FFFF, 0x2FFFF, 0x3FFFF, 0x4FFFF, 0x5FFFF, 0x6FFFF, 0x7FFFF, 0x8FFFF, 0x9FFFF, 0xAFFFF, 0xBFFFF].map opField =
      [0x0, 0x1, 0x2, 0x3, 0x4, 0x5, 0x6, 0x7, 0x8, 0x9, 0xA, 0xB] ∧
    0xC ≤ (opField 0xC0000).toNat ∧ 0xC ≤ (opField 0xFFFFF).toNat := by decide

theorem witness_EveryWordSelectsOneOpcodeRow :
    (⟨"RESERVED", 0xC0000, 0xC0000⟩ : OpcodeRow) ∈ opcodeMap ∧
    OpcodeRow.selects ⟨"RESERVED", 0xC0000, 0xC0000⟩ 0xFFFFF = true := by decide

theorem witness_DecodingAnEncodingGivesTheCommand :
    (Instr.mul ⟨0x53⟩ ⟨0xCA⟩).wellFormed = true ∧ (Instr.reserved 0xC).wellFormed = true ∧
    (Instr.reserved 0xF).wellFormed = true := by decide

theorem witness_UnusedFieldsDoNotMatter :
    (opField 0x0FFFF = opField 0x00000 ∧ (opField 0x0FFFF).toNat = 0x0) ∧
    (opField 0xBFF77 = opField 0xBFF00 ∧ fieldA 0xBFF77 = fieldA 0xBFF00 ∧ (opField 0xBFF77).toNat ∉ [0x4, 0x5, 0x8, 0x9, 0xA]) ∧
    (opField 0x4AA55 = opField 0x4AA55 ∧ fieldA 0x4AA55 = fieldA 0x4AA55 ∧ fieldB 0x4AA55 = fieldB 0x4AA55) := by decide

theorem witness_ReservedOpcodesAnswerIllegal :
    0xC ≤ (opField 0xC0000).toNat ∧ 0xC ≤ (opField 0xFFFFF).toNat ∧ 0xC ≤ (0xC : BitVec 4).toNat ∧
    State.reset.HasActivePort := ⟨by decide, by decide, by decide, reset_active⟩

theorem witness_ResponseWordIsStatusThenResult :
    Response.absent.status ≠ 0 ∧ Response.divisionByZero.status ≠ 0 ∧ Response.illegal.status ≠ 0 := by decide

theorem witness_OutcomesThatAreNoValue :
    (∀ i ∈ [Instr.log ⟨0x00⟩, .log ⟨0x01⟩, .inv ⟨0x00⟩, .div ⟨0x00⟩ ⟨0x00⟩, .div ⟨0x00⟩ ⟨0x01⟩, .reserved 0xC], i.wellFormed = true) ∧
    State.reset.Available ∧ built.Available := ⟨by decide, reset_available, built_available⟩

theorem witness_ZeroAnswersTheAdditiveIdentity : opField 0x0FFFF = 0x0 ∧ State.reset.HasActivePort ∧ built.Available :=
  ⟨by decide, reset_active, built_available⟩

theorem witness_OneAnswersTheMultiplicativeIdentity : opField 0x1ABCD = 0x1 ∧ State.reset.HasActivePort ∧ built.Available :=
  ⟨by decide, reset_active, built_available⟩

theorem witness_FromByteAnswersTheElementOfTheByte : opField 0x2FF77 = 0x2 ∧ State.reset.HasActivePort :=
  ⟨by decide, reset_active⟩

theorem witness_ToByteAnswersTheByteOfTheElement : opField 0x3AE00 = 0x3 ∧ State.reset.HasActivePort := ⟨by decide, reset_active⟩

theorem witness_AddAnswersTheXor : opField 0x405AB = 0x4 ∧ State.reset.HasActivePort ∧ 0 < 8 ∧ 7 < 8 :=
  ⟨by decide, reset_active, by decide, by decide⟩

theorem witness_SubAnswersTheXor : opField 0x5AE05 = 0x5 ∧ State.reset.HasActivePort ∧ 0 < 8 ∧ 7 < 8 :=
  ⟨by decide, reset_active, by decide, by decide⟩

theorem witness_LogAnswersTheDiscreteLogarithm :
    opField 0x60300 = 0x6 ∧ State.reset.Available ∧ built.Available ∧ built.config.rc = 0x1D ∧
    (⟨0x01⟩ : Elem).byte ≠ 0x00 ∧ (⟨0xFF⟩ : Elem).byte ≠ 0x00 :=
  ⟨by decide, reset_available, built_available, rfl, by decide, by decide⟩

theorem witness_XexpAnswersThePowerOfTheGenerator :
    opField 0x7FE00 = 0x7 ∧ State.reset.Available ∧ built.Available ∧ built.config.rc = 0x1D ∧
    (⟨0⟩ : Power).byte.toNat ≤ 254 ∧ (⟨254⟩ : Power).byte.toNat ≤ 254 ∧ Gives (.xexp ⟨0⟩) built ⟨0x01⟩ :=
  ⟨by decide, reset_available, built_available, rfl, by decide, by decide, rfl⟩

theorem witness_ExpAnswersThePower :
    State.reset.Available ∧ built.Available ∧ (⟨0x01⟩ : Elem).byte ≠ 0x00 ∧ (⟨0xFF⟩ : Elem).byte ≠ 0x00 ∧
    (0 : Byte).toNat < 255 ∧ (254 : Byte).toNat < 255 :=
  ⟨reset_available, built_available, by decide, by decide, by decide, by decide⟩

theorem witness_MulAnswersTheProduct :
    State.reset.Available ∧ built.Available ∧ ((⟨0x00⟩ : Elem).byte = 0x00 ∨ (⟨0x7F⟩ : Elem).byte = 0x00) ∧
    ((⟨0x7F⟩ : Elem).byte = 0x00 ∨ (⟨0x00⟩ : Elem).byte = 0x00) ∧ (⟨0x01⟩ : Elem).byte ≠ 0x00 ∧ (⟨0x8E⟩ : Elem).byte ≠ 0x00 :=
  ⟨reset_available, built_available, by decide, by decide, by decide, by decide⟩

theorem witness_DivAnswersTheQuotientOrTheFailure :
    State.reset.Available ∧ built.Available ∧ (⟨0x8E⟩ : Elem).byte ≠ 0x00 ∧ (⟨0x01⟩ : Elem).byte ≠ 0x00 :=
  ⟨reset_available, built_available, by decide, by decide⟩

theorem witness_InvAnswersTheInverse :
    State.reset.Available ∧ built.Available ∧ (⟨0x01⟩ : Elem).byte ≠ 0x00 ∧ (⟨0x8E⟩ : Elem).byte ≠ 0x00 :=
  ⟨reset_available, built_available, by decide, by decide⟩

theorem witness_MulIsThePolynomialProduct : State.reset.Available ∧ built.Available := ⟨reset_available, built_available⟩

theorem witness_DivisionRecoversAFactor :
    State.reset.Available ∧ (⟨0x53⟩ : Elem).byte ≠ 0x00 ∧ (⟨0x01⟩ : Elem).byte ≠ 0x00 :=
  ⟨reset_available, by decide, by decide⟩

theorem witness_MulDistributesOverAdd : State.reset.Available ∧ built.Available := ⟨reset_available, built_available⟩

theorem witness_AddAndMulCommute : State.reset.Available ∧ built.Available := ⟨reset_available, built_available⟩

theorem witness_AddAndMulAssociate : State.reset.Available ∧ built.Available := ⟨reset_available, built_available⟩

theorem witness_InverseTimesElementIsOne : State.reset.Available ∧ (⟨0x01⟩ : Elem).byte ≠ 0x00 ∧ (⟨0xFF⟩ : Elem).byte ≠ 0x00 :=
  ⟨reset_available, by decide, by decide⟩

theorem witness_PowersAtTheCorners : State.reset.Available ∧ (⟨0x01⟩ : Elem).byte ≠ 0x00 ∧ (⟨0x8F⟩ : Elem).byte ≠ 0x00 :=
  ⟨reset_available, by decide, by decide⟩

theorem witness_IdentitiesOfAddAndMul : State.reset.Available ∧ built.Available := ⟨reset_available, built_available⟩

theorem witness_InvAnswersTheInvTableEntry :
    State.reset.Available ∧ (⟨0x01⟩ : Elem).byte ≠ 0x00 ∧ (⟨0xFF⟩ : Elem).byte ≠ 0x00 :=
  ⟨reset_available, by decide, by decide⟩

theorem witness_LogAndXexpAreInverse :
    State.reset.Available ∧ built.Available ∧ (⟨0x01⟩ : Elem).byte ≠ 0x00 ∧ (⟨0xFF⟩ : Elem).byte ≠ 0x00 :=
  ⟨reset_available, built_available, by decide, by decide⟩

theorem witness_DivAndInvTreatZeroDifferently : State.reset.Available ∧ (⟨0x01⟩ : Elem).byte ≠ 0x00 :=
  ⟨reset_available, by decide⟩

theorem witness_XtimeMultipliesByX : 0 < 8 ∧ 7 < 8 ∧ (0x7F : Byte).toNat < 0x80 := by decide

theorem witness_LegalReductionConstantsAreThePrimitiveOnes :
    (0x1D : Byte) ∈ Config.legalRcs ∧ (0x1B : Byte) ∉ Config.legalRcs ∧ 0 < 254 ∧ 254 < 255 := by decide

theorem witness_ExpTableHoldsThePowersOfTheGenerator :
    Config.default.legal = true ∧ (0x1D : Byte) ∈ Config.legalRcs ∧ (0xF5 : Byte) ∈ Config.legalRcs ∧ (0x01 : Byte) ≠ 0x00 ∧
    (buildTables 0x1D).expT.read 254 = some 0x8E := by
  rw [specTables_eq]
  exact ⟨by decide, by decide, by decide, by decide, by decide +kernel⟩

theorem witness_LogTableInvertsTheExpTable :
    (0x1D : Byte) ∈ Config.legalRcs ∧ (0x01 : Byte) ≠ 0x00 ∧ (254 : Byte).toNat ≤ 254 ∧
    (buildTables 0x1D).expT.read 0 = some 0x01 ∧ (buildTables 0x1D).logT.read (0x8E : Byte).toNat = some 254 := by
  rw [specTables_eq]
  exact ⟨by decide, by decide, by decide, by decide +kernel, by decide +kernel⟩

theorem witness_InvTableHoldsTheInverses : (0x1D : Byte) ∈ Config.legalRcs ∧ (0x01 : Byte) ≠ 0x00 ∧ (0x02 : Byte) ≠ 0x00 := by
  decide

theorem witness_TableInvariantsHoldOnceValid : busy.Inv ∧ busy.tblValid = true ∧ (0x01 : Byte) ≠ 0x00 ∧ 255 ≤ 255 :=
  ⟨busy_inv, rfl, by decide, by decide⟩

theorem witness_ConstructionWritesEveryEntryOnce :
    (0x1D : Byte) ∈ Config.legalRcs ∧ ((buildAfter 0x1D 1).2.get .exp).read 0 = some 0x01 := by decide +kernel

theorem witness_TableFactsSharedByEveryReductionConstant :
    (0x1D : Byte) ∈ Config.legalRcs ∧ 8 ≤ 254 ∧ 254 ≤ 254 ∧ 3 ∉ [1, 2, 4, 8, 16, 32, 64, 128] ∧
    255 ∉ [1, 2, 4, 8, 16, 32, 64, 128] ∧ 2 ≤ 255 := by decide

theorem witness_EnsureTablesBuildsOrHolds :
    needsTables (.log ⟨0x00⟩) = true ∧
    (State.reset.tblValid = false ∧ State.reset.builder = none ∧ State.reset.config.grain = .atomic) ∧
    ((sharing []).tblValid = false ∧ (sharing []).builder = none ∧ (sharing []).config.grain = .stepwise) ∧
    (waiting.tblValid = false ∧ ∃ b, waiting.builder = some b ∧ b.port = waiting.active) ∧
    ∃ b, (waiting.turnOf 1 []).builder = some b ∧ b.port ≠ (waiting.turnOf 1 []).active :=
  ⟨rfl, ⟨rfl, rfl, rfl⟩, ⟨rfl, rfl, rfl⟩, ⟨rfl, _, rfl, rfl⟩, _, rfl, by decide⟩

theorem witness_ExactlySixCommandsEnsureTheTables :
    State.reset.Available ∧ built.Available ∧ needsTables (.reserved 0xC) = false ∧ State.reset.HasActivePort :=
  ⟨reset_available, built_available, rfl, reset_active⟩

theorem witness_ResponseDependsOnCommandAndRcAlone :
    State.reset.TablesSound ∧ built.TablesSound ∧ State.reset.config.rc = built.config.rc ∧
    RepliesWith (.log ⟨0x00⟩) State.reset .absent ∧ RepliesWith (.log ⟨0x00⟩) built .absent ∧ State.reset.Available := by
  have reply : ∀ s : State, s.Available → s.ports = [Port.idle] → s.active = 0 → RepliesWith (.log ⟨0x00⟩) s .absent := by
    intro s h hp ha
    have hs : s.withTables.ports = [Port.idle] ∧ s.withTables.active = 0 := by simp [hp, ha]
    refine ⟨s.withTables.answered .absent, Port.idle, ?_, by rw [hp, ha]; rfl, by rw [answered_ports, hs.1, hs.2, ha]; rfl⟩
    show afterTables s _ = _
    rw [afterTables_available h]
    exact respond_eq (Available_hasActivePort_withTables h) _
  exact ⟨⟨reset_available.legal, reset_available.tablesBuilt⟩, ⟨built_available.legal, built_available.tablesBuilt⟩, rfl,
    reply _ reset_available rfl rfl, reply _ built_available rfl rfl, reset_available⟩

theorem witness_TableMachineComputesFieldArithmetic : State.reset.Available ∧ built.Available :=
  ⟨reset_available, built_available⟩

theorem witness_FrameOfEveryCommand :
    (∃ t, exec .one State.reset = .next t) ∧ needsTables .one = false ∧
    (∃ t, exec (.inv ⟨0x02⟩) (waiting.turnOf 1 []) = .next t) ∧ (∃ t, exec (.inv ⟨0x00⟩) built = .next t) ∧ built.tblValid = true :=
  ⟨⟨_, rfl⟩, rfl, ⟨_, rfl⟩, ⟨_, rfl⟩, rfl⟩

theorem witness_ForbiddenEntriesAreNeverRead : built.tblValid = true := rfl

/-- Two ports, the failure on port 0, a later command on port 0 or on port 1. -/
theorem witness_FailureIsNotSticky :
    State.Available { built with ports := [Port.idle, Port.idle] } ∧ State.reset.Available ∧
    0 < [Port.idle, Port.idle].length ∧ 1 < [Port.idle, Port.idle].length ∧ 1 ≠ built.active :=
  ⟨⟨built_available.legal, by show 0 < 2; decide, built_available.tablesBuilt, built_available.unblocked⟩, reset_available,
    by decide, by decide, by decide⟩

theorem witness_StepRunsTheDecodedCommand :
    (busy.config.legal = true ∧ busy.schedule = .port 0 :: [] ∧ busy.ports[0]? = some ⟨[0x953CA], none, []⟩) ∧
    State.reset.config.legal = true ∧ 0x00000 % 2 ^ 20 < 2 ^ 20 ∧ 0xFFFFF % 2 ^ 24 < 2 ^ 20 :=
  ⟨⟨by decide, rfl, rfl⟩, by decide, by decide, by decide⟩

/-- One state for each clause: a command in progress, nothing to do, no turn, a port one past the last, an illegal `RC`, no port, a reset. -/
theorem witness_TurnsThatTakeNoCommand :
    (waiting.config.legal = true ∧ State.schedule { waiting with schedule := [.port 0] } = .port 0 :: [] ∧
      waiting.ports[0]? = some ⟨[], some (.mul ⟨0x53⟩ ⟨0xCA⟩), []⟩) ∧
    (State.reset.config.legal = true ∧ State.schedule { State.reset with schedule := [.port 0] } = .port 0 :: [] ∧
      State.reset.ports[0]? = some Port.idle ∧ Port.idle.inProgress = none ∧ Port.idle.queue = []) ∧
    State.reset.schedule = [] ∧
    (State.schedule { State.reset with schedule := [.port 1] } = .port 1 :: [] ∧ State.reset.ports.length ≤ 1) ∧
    ((0x1B : Byte) ∉ Config.legalRcs ∧ Config.nports { Config.default with nports := 0 } = 0 ∧
      Config.width { Config.default with width := 16 } ≠ 8 ∧ Config.nEntries { Config.default with nEntries := 255 } ≠ 256 ∧
      Config.groupOrder { Config.default with groupOrder := 256 } ≠ 255 ∧ Config.gen { Config.default with gen := 0x03 } ≠ 0x02) ∧
    ∃ t, step { waiting with schedule := [.reset] } = .next t :=
  ⟨⟨by decide, rfl, rfl⟩, ⟨by decide, rfl, rfl, rfl, rfl⟩, rfl, ⟨rfl, by decide⟩,
    ⟨by decide, rfl, by decide, by decide, by decide, by decide⟩, _, rfl⟩

theorem witness_ResetRestoresTheEngine :
    (waiting.config.legal = true ∧ waiting.config.tableInit = .lazy ∧
      State.schedule { waiting with schedule := [.reset] } = .reset :: []) ∧
    Config.legal { Config.default with tableInit := .constant } = true ∧
    State.Inv { busy with config := { Config.default with tableInit := .constant }, schedule := [.reset] } :=
  ⟨⟨by decide, rfl, rfl⟩, by decide,
    { legal := by decide
      portCount := rfl
      activePort := busy_inv.activePort
      built := busy_inv.built
      absent := busy_inv.absent
      partway := busy_inv.partway
      builderPort := busy_inv.builderPort
      grain := busy_inv.grain
      constant := fun _ => rfl
      heldNeedsTables := busy_inv.heldNeedsTables }⟩

theorem witness_EveryCommandGetsExactlyOneResponse :
    (∃ t, step waiting = .next t) ∧ waiting.schedule.head? ≠ some .reset ∧
    waiting.ports[1]? = some ⟨[0xB0200, 0x40101], none, []⟩ := ⟨⟨_, rfl⟩, by decide, rfl⟩

theorem witness_TablesAreWriteOnceThenImmutable :
    (State.Inv { waiting with schedule := [.port 0] } ∧ ∃ t, step { waiting with schedule := [.port 0] } = .next t) ∧
    (State.Inv { busy with ports := [⟨[0x10000], none, []⟩] } ∧ ∃ t, step { busy with ports := [⟨[0x10000], none, []⟩] } = .next t) ∧
    busy.schedule.head? ≠ some .reset ∧ busy.tblValid = true ∧ (busy.tables.get .exp).read 0 = some 0x01 :=
  ⟨⟨waiting_inv _, _, rfl⟩,
    ⟨{ legal := busy_inv.legal
       portCount := rfl
       activePort := busy_inv.activePort
       built := busy_inv.built
       absent := busy_inv.absent
       partway := busy_inv.partway
       builderPort := fun _ h => nomatch h
       grain := busy_inv.grain
       constant := busy_inv.constant
       heldNeedsTables := by
        show ∀ q ∈ [(⟨[0x10000], none, []⟩ : Port)], ∀ i, q.inProgress = some i → needsTables i = true
        decide }, _, rfl⟩,
    by decide, rfl, rfl⟩

theorem witness_EveryStepKeepsTheInvariant :
    State.reset.Inv ∧ (∃ t, step State.reset = .next t) ∧ waiting.Inv ∧ ∃ t, step waiting = .next t :=
  ⟨reset_inv, ⟨_, rfl⟩, waiting_inv _, _, rfl⟩

theorem witness_ResetMeetsTheInvariant :
    Config.default.legal = true ∧
    Config.legal { Config.default with rc := 0xF5, tableInit := .constant, nports := 3, grain := .stepwise } = true ∧
    Port.idle ∈ (State.resetFor { Config.default with nports := 3 }).ports ∧ Port.idle ∈ State.reset.ports := by decide

theorem witness_NoStepFaults :
    waiting.Inv ∧ ∀ p ts, waiting.schedule = .port p :: ts → p < waiting.ports.length :=
  ⟨waiting_inv _, fun p ts h => by
    obtain ⟨h, -⟩ := List.cons.inj h
    cases h
    decide⟩

theorem witness_StepsKeepTheTablesCanonical :
    waiting.Canonical ∧ (∃ t, step waiting = .next t) ∧ Config.default.legal = true :=
  ⟨⟨rfl, fun b h => by cases h; rfl⟩, ⟨_, rfl⟩, by decide⟩

/-- The two clauses: port 0 presents `MUL` while port 1, which has commands of its own, moves between its turns. -/
theorem witness_ConstructionEndsAndTheCommandIsAnswered :
    (∀ ts, (sharing ts).Inv) ∧ (sharing []).config.grain = .stepwise ∧ (sharing []).tblValid = false ∧
    (sharing []).builder = none ∧ (sharing []).ports[0]? = some ⟨[0x953CA], none, []⟩ ∧
    needsTables (decodeCommand 0x953CA) = true ∧
    (sharing (.port 0 :: (alternate 513 ++ []))).schedule = .port 0 :: (alternate 513 ++ []) ∧
    (sharing (.port 0 :: (alternate 512 ++ .port 0 :: []))).schedule = .port 0 :: (alternate 512 ++ .port 0 :: []) ∧
    (∀ n, ∀ a ∈ alternate n, ∃ r, r < (sharing []).ports.length ∧ a = .port r) ∧
    (alternate 513).count (.port 0) = 513 ∧ ∀ r, r < (sharing []).ports.length → 512 ≤ (alternate 512).count (.port r) :=
  ⟨sharing_inv, rfl, rfl, rfl, rfl, by decide, rfl, rfl, fun n a h => mem_alternate h, (count_alternate 513).1, fun r hr => by
    have hr : r < 2 := hr
    interval_cases r
    · rw [(count_alternate 512).1]
    · rw [(count_alternate 512).2]⟩

theorem witness_HostNotationGivesTheCommandWord :
    (Response.divisionByZero = .divisionByZero ∨ Response.divisionByZero = .illegal) ∧
    Response.absent ≠ .divisionByZero ∧ Response.absent ≠ .illegal ∧
    "mUl".toList.map Char.toUpper = "MUL".toList.map Char.toUpper := by decide

end Sys2Proof.Tests
end

section
/-! R7: the legal reduction constants are those under which the powers of `x` have order 255. One direction is the order already read off
under a legal `RC` (`xtimes_eq_iff`); the other runs R59 for each of the 256 bytes, as the spec does, but only up to 255 and its maximal
proper divisors. -/

namespace Sys2Proof.Machine

/-- The converse of `orbit_check`: a byte that is not legal does not close at 255, or closes already at 85, 51 or 15. -/
theorem mem_legalRcs_of_orbit_check : ∀ rc : Byte,
    xtimes rc 255 1 = 1 → xtimes rc 85 1 ≠ 1 → xtimes rc 51 1 ≠ 1 → xtimes rc 15 1 ≠ 1 → rc ∈ Config.legalRcs := by
  decide +kernel

/-- Under a legal `RC` no power of `x` below 255, but the zeroth, is 0x01. -/
theorem xtimes_ne_one {rc : Byte} (h : rc ∈ Config.legalRcs) {n : Nat} (h0 : 0 < n) (hn : n < 255) : xtimes rc n 1 ≠ 1 := by
  intro e
  have hmod : n % 255 = 0 % 255 := (xtimes_eq_iff h n 0).1 e
  omega

/-- Settles O35: a legal constant has order 255, and order 255 rules out the shorter orbits of the bytes that are not legal. -/
theorem legalReductionConstantsAreThePrimitiveOnes : Obligations.LegalReductionConstantsAreThePrimitiveOnes := by
  refine ⟨rfl, fun rc => ⟨fun h => ⟨xtimes_255 h, fun _ => xtimes_ne_one h⟩, fun ⟨hclose, hfirst⟩ => ?_⟩⟩
  exact mem_legalRcs_of_orbit_check rc hclose (hfirst 85 (by decide) (by decide)) (hfirst 51 (by decide) (by decide))
    (hfirst 15 (by decide) (by decide))

end Sys2Proof.Machine
end

section
/-! The polynomial product of R85 on powers of `x`: it is linear in its first factor, and on 0x01 it is the identity, so it adds exponents. -/

namespace Sys2Proof.Machine

/-! ### Small powers -/

/-- A byte below 0x80 is shifted and not reduced (R59). -/
theorem xtime_of_bit7_clear (rc : Byte) {v : Byte} (h : v.getLsbD 7 = false) : xtime rc v = v <<< 1 :=
  if_neg (by rw [h]; decide)

/-- No reduction happens below `x^8` (R15: `exp[0..7]` are the powers of two). -/
theorem xtimes_two_pow (rc : Byte) {i : Nat} (hi : i ≤ 7) : xtimes rc i 1 = BitVec.ofNat 8 (2 ^ i) := by
  induction i with
  | zero => rfl
  | succ i ih =>
    have shift : ∀ k < 7, (BitVec.ofNat 8 (2 ^ k)).getLsbD 7 = false ∧
        BitVec.ofNat 8 (2 ^ k) <<< 1 = BitVec.ofNat 8 (2 ^ (k + 1)) := by decide
    obtain ⟨hclear, hshift⟩ := shift i (by omega)
    rw [xtimes_succ, ih (by omega), xtime_of_bit7_clear rc hclear, hshift]

/-- `x^8` reduces to `RC` (R15). -/
theorem xtimes_eight (rc : Byte) : xtimes rc 8 1 = rc := by
  rw [xtimes_succ, xtimes_two_pow rc (by decide)]
  exact BitVec.zero_xor

/-! ### The product -/

/-- A product is a sum over the bits of its second factor, so it commutes with multiplication of the first by `x`. -/
theorem clmul_xtime_left (rc a b : Byte) : clmul rc (xtime rc a) b = xtime rc (clmul rc a b) := by
  have along : ∀ (l : List Nat) (acc : Byte),
      l.foldl (fun acc i => if b.getLsbD i then acc ^^^ xtimes rc i (xtime rc a) else acc) (xtime rc acc) =
        xtime rc (l.foldl (fun acc i => if b.getLsbD i then acc ^^^ xtimes rc i a else acc) acc) := by
    intro l
    induction l with
    | nil => exact fun acc => rfl
    | cons i l ih =>
      intro acc
      rw [List.foldl_cons, List.foldl_cons, ← ih, ← xtimes_succ', xtimes_succ]
      split
      · rw [xtime_xor]
      · rfl
  exact along (List.range 8) 0

theorem clmul_xtimes_left (rc a b : Byte) (i : Nat) : clmul rc (xtimes rc i a) b = xtimes rc i (clmul rc a b) := by
  induction i with
  | zero => rfl
  | succ i ih => rw [xtimes_succ, clmul_xtime_left, ih, xtimes_succ]

/-- 0x01 is the identity: a byte is the sum of the powers of two at its bits. -/
theorem clmul_one_left (rc b : Byte) : clmul rc 1 b = b := by
  have bits : ∀ b : Byte, (List.range 8).foldl (fun acc i => if b.getLsbD i then acc ^^^ BitVec.ofNat 8 (2 ^ i) else acc) 0 = b := by
    decide +kernel
  refine (List.foldl_ext _ _ _ fun acc i hi => ?_).trans (bits b)
  rw [xtimes_two_pow rc (by have := List.mem_range.1 hi; omega)]

/-- Multiplying powers of `x` adds their exponents. -/
theorem clmul_xtimes (rc : Byte) (i j : Nat) : clmul rc (xtimes rc i 1) (xtimes rc j 1) = xtimes rc (i + j) 1 := by
  rw [clmul_xtimes_left, clmul_one_left, xtimes_add]

/-- Multiplying by the generator is `xtime` (R60). -/
theorem clmul_two_right (rc a : Byte) : clmul rc a 0x02 = xtime rc a :=
  BitVec.zero_xor

/-- Repeated multiplication by the generator is repeated `xtime` (R15, R60). -/
theorem elemPow_gen (rc : Byte) (n : Nat) : (elemPow rc ⟨0x02⟩ n).byte = xtimes rc n 1 := by
  induction n with
  | zero => rfl
  | succ n ih => rw [xtimes_succ, ← ih]; exact clmul_two_right rc _

end Sys2Proof.Machine
end

section
/-! R15 to R17, R19: the built tables, read through the powers of `x`. Every nonzero byte is one, with an exponent in 0..254 that is unique. -/

namespace Sys2Proof.Machine

/-! ### EXP_T -/

/-- Exponents in 0..254 are unique (R16). -/
theorem xtimes_inj {rc : Byte} (h : rc ∈ Config.legalRcs) {i j : Nat} (hi : i < 255) (hj : j < 255)
    (e : xtimes rc i 1 = xtimes rc j 1) : i = j := by
  have hmod : i % 255 = j % 255 := (xtimes_eq_iff h i j).1 e
  omega

/-- An entry of `EXP_T` below 255 determines its index. -/
theorem read_exp_eq_xtimes_iff {rc : Byte} (h : rc ∈ Config.legalRcs) {i j : Nat} (hi : i < 255) (hj : j < 255) :
    (buildTables rc).expT.read j = some (xtimes rc i 1) ↔ j = i := by
  rw [read_exp rc hj, Option.some.injEq]
  exact ⟨xtimes_inj h hj hi, fun e => by rw [e]⟩

/-- Settles O36: `EXP_T` holds the orbit of 0x01 under `xtime`, which visits every nonzero byte once. -/
theorem expTableHoldsThePowersOfTheGenerator : Obligations.ExpTableHoldsThePowersOfTheGenerator := by
  refine ⟨fun c hc i hi => ?_, fun rc h => ⟨read_exp rc (by decide), read_exp_255 rc, fun i hi => ?_, fun v hv => ?_,
    fun i hi => ?_, ?_⟩⟩
  · obtain ⟨⟨-, -, -, hgen⟩, -, -⟩ := (Config.legal_iff c).1 hc
    rw [hgen, elemPow_gen, read_exp c.rc (by omega)]
  · exact ⟨_, read_exp_legal h hi, xtimes_ne_zero h i⟩
  · obtain ⟨i, hi, rfl⟩ := exists_xtimes h hv
    exact ⟨i, by omega, read_exp rc hi, fun j hj => (read_exp_eq_xtimes_iff h hi (by omega)).1⟩
  · rw [read_exp rc (by omega), xtimes_two_pow rc hi]
  · rw [read_exp rc (by decide), xtimes_eight]

/-! ### LOG_T -/

/-- An entry of `LOG_T` determines its index: only the power of `x` it names holds it. -/
theorem eq_xtimes_of_read_log {rc : Byte} (h : rc ∈ Config.legalRcs) {u : Byte} {i : Nat} (hi : i < 255)
    (hu : (buildTables rc).logT.read u.toNat = some (BitVec.ofNat 8 i)) : u = xtimes rc i 1 := by
  have hne : u ≠ 0 := by
    rintro rfl
    have hnone : (buildTables rc).logT.read (0 : Byte).toNat = none := read_log_zero h
    rw [hnone] at hu
    cases hu
  obtain ⟨j, hj, rfl, hlog⟩ := exists_log h hne
  rw [hlog, Option.some.injEq] at hu
  rw [← toNat_log hj, hu, toNat_log hi]

/-- `log[2^i] = i` for `i` in 0..7 (R16). -/
theorem read_log_two_pow {rc : Byte} (h : rc ∈ Config.legalRcs) {i : Nat} (hi : i ≤ 7) :
    (buildTables rc).logT.read (2 ^ i) = some (BitVec.ofNat 8 i) := by
  have hlt : 2 ^ i < 2 ^ 8 := Nat.pow_lt_pow_right (by decide) (by omega)
  have hlog := read_log h (i := i) (by omega)
  rwa [xtimes_two_pow rc hi, BitVec.toNat_ofNat, Nat.mod_eq_of_lt hlt] at hlog

/-- `log[RC] = 8` (R16). -/
theorem read_log_rc {rc : Byte} (h : rc ∈ Config.legalRcs) : (buildTables rc).logT.read rc.toNat = some 8 := by
  have hlog := read_log h (i := 8) (by decide)
  rwa [xtimes_eight] at hlog

/-- Settles O37: `LOG_T` holds the one exponent of every nonzero byte. -/
theorem logTableInvertsTheExpTable : Obligations.LogTableInvertsTheExpTable := by
  refine fun rc h => ⟨fun v hv => ?_, fun l hl => ?_, read_log_zero h, read_log_two_pow h (i := 0) (by decide),
    fun i => read_log_two_pow h, read_log_rc h⟩
  · obtain ⟨i, hi, rfl, hlog⟩ := exists_log h hv
    refine ⟨_, hlog, ?_⟩
    rw [toNat_log hi]
    exact ⟨by omega, read_exp rc hi, fun j hj => (read_exp_eq_xtimes_iff h hi (by omega)).1⟩
  · have hi : l.toNat < 255 := by omega
    have hl' : BitVec.ofNat 8 l.toNat = l := BitVec.ofNat_toNat 8 l
    refine ⟨xtimes rc l.toNat 1, xtimes_ne_zero h _, ?_, fun u hu => ?_⟩
    · rw [read_log h hi, hl']
    · exact eq_xtimes_of_read_log h hi (by rw [hu, hl'])

/-! ### INV_T -/

/-- The exponents of an element and of its inverse add up to the group order (R17). -/
theorem xtimes_add_inverse {rc : Byte} (h : rc ∈ Config.legalRcs) {i : Nat} (hi : i < 255) :
    xtimes rc (i + (255 - i) % 255) 1 = 1 :=
  (xtimes_eq_iff h _ 0).2 (by omega)

/-- Settles O38: `inv[x^i]` is `x^(255 - i)`, the exponents taken modulo 255, which is an odd number: `i` and `255 - i` agree for 0 alone. -/
theorem invTableHoldsTheInverses : Obligations.InvTableHoldsTheInverses := by
  refine fun rc h => ⟨fun v hv => ?_, read_inv h (i := 0) (by decide), read_inv_zero rc⟩
  obtain ⟨i, hi, rfl⟩ := exists_xtimes h hv
  have hk : (255 - i) % 255 < 255 := by omega
  refine ⟨_, read_inv h hi, xtimes_ne_zero h _, ?_, ?_, ?_⟩
  · rw [clmul_xtimes]
    exact xtimes_add_inverse h hi
  · rw [read_inv h hk, show (255 - (255 - i) % 255) % 255 = i by omega]
  · have fixed : xtimes rc ((255 - i) % 255) 1 = xtimes rc i 1 ↔ (255 - i) % 255 % 255 = i % 255 := xtimes_eq_iff h _ _
    have unit : xtimes rc i 1 = 1 ↔ i % 255 = 0 % 255 := xtimes_eq_iff h i 0
    exact fixed.trans (Iff.trans (by omega) unit.symm)

/-! ### Commands on built tables -/

/-- A command of an invariant state with tables completes at once. -/
theorem State.Inv.available {s : State} (h : s.Inv) (hv : s.tblValid = true) : s.Available :=
  ⟨h.legal, h.activePort, h.built, .inl hv⟩

/-- `MUL` of two powers of `x` answers the power at the sum of their exponents (R80). -/
theorem mul_xtimes_gives {s : State} (h : s.Available) {i j : Nat} (hi : i < 255) (hj : j < 255) :
    Gives (.mul ⟨xtimes s.config.rc i 1⟩ ⟨xtimes s.config.rc j 1⟩) s ⟨xtimes s.config.rc (i + j) 1⟩ := by
  obtain ⟨⟨-, -, hgroup, -⟩, hrc, -⟩ := (Config.legal_iff s.config).1 h.legal
  have notZero : ∀ n, isZero ⟨xtimes s.config.rc n 1⟩ = false := fun n => beq_false_of_ne (xtimes_ne_zero hrc n)
  have logAt : ∀ n (hn : n < 255) (k : Logarithm → Result),
      withLog ⟨xtimes s.config.rc n 1⟩ s.withTables k = k ⟨⟨n, hn⟩⟩ := fun n hn =>
    withLog_some (by rw [memRead_withTables h]; exact read_log hrc hn)
  have hexp : memRead .exp ((i + j) % 255) s.withTables = some (xtimes s.config.rc (i + j) 1) := by
    rw [memRead_withTables h, ← xtimes_mod hrc (i + j)]
    exact read_exp s.config.rc (by omega)
  show afterTables s _ = .next (s.withTables.answered _)
  rw [afterTables_available h, notZero, notZero, Bool.or_false, if_neg (by decide), logAt i hi, logAt j hj, withTables_config, hgroup]
  exact (withEntry_some hexp _).trans (respond_eq (Available_hasActivePort_withTables h) _)

/-- Settles O39: the tables of such a state are the built ones, and every nonzero byte is a power of `x`. -/
theorem tableInvariantsHoldOnceValid : Obligations.TableInvariantsHoldOnceValid := by
  intro s hs hv
  obtain ⟨-, h, -⟩ := (Config.legal_iff s.config).1 hs.legal
  have readBuilt : ∀ T i, memRead T i s = ((buildTables s.config.rc).get T).read i := fun T i => by
    rw [memRead_of_valid hv, hs.built hv]
  simp only [readBuilt]
  refine ⟨fun v hne => ?_, fun i hi => ?_, fun v hne => ?_, read_exp_255 _, read_exp _ (by decide)⟩
  · obtain ⟨i, hi, rfl, hlog⟩ := exists_log h hne
    exact ⟨_, hlog, by rw [toNat_log hi]; exact read_exp _ hi⟩
  · refine ⟨_, read_exp_legal h hi, ?_⟩
    rw [← xtimes_mod h i]
    exact read_log h (by omega)
  · obtain ⟨i, hi, rfl⟩ := exists_xtimes h hne
    refine ⟨_, read_inv h hi, ?_⟩
    have hmul := mul_xtimes_gives (hs.available hv) (i := (255 - i) % 255) (j := i) (by omega) hi
    rwa [Nat.add_comm, xtimes_add_inverse h hi] at hmul

end Sys2Proof.Machine
end

section
/-! R26, R61, R21: construction turn by turn. Whatever a builder has written, finishing its work from there gives the tables of `Build()`, and
each write step leaves one step fewer; and every write goes to an entry that has no value yet. -/

namespace Sys2Proof.Machine

/-! ### The steps still to take -/

/-- How many write steps stand before the publish step (R61). -/
def Progress.writesLeft : Progress → Nat
  | .fill i _ => 511 - i
  | .duplicate => 256
  | .invert v => 256 - v
  | .publish => 0

/-- The tables after all those write steps, taken at once (R61). -/
def Progress.finish (rc : Byte) : Progress → Tables → Tables
  | .fill i v, t => invertFrom 255 1 (fillFrom rc (254 - i) i v t).duplicate
  | .duplicate, t => invertFrom 255 1 t.duplicate
  | .invert v, t => invertFrom (256 - v) v t
  | .publish, t => t

/-- Only the publish step has no write before it. -/
theorem eq_publish_of_writesLeft {p : Progress} (hp : p.inRange = true) (h : p.writesLeft = 0) : p = .publish := by
  cases p with
  | fill i v =>
    have hi : i < 255 := of_decide_eq_true hp
    simp only [Progress.writesLeft] at h
    omega
  | duplicate => cases h
  | invert v =>
    have hv : v < 256 := of_decide_eq_true hp
    simp only [Progress.writesLeft] at h
    omega
  | publish => rfl

/-- A write step is one of the steps left to take. -/
theorem writesLeft_buildStep (rc : Byte) {p : Progress} (t : Tables) (hp : p.inRange = true) :
    (buildStep rc p t).1.writesLeft = p.writesLeft - 1 := by
  cases p with
  | fill i v =>
    have hi : i < 255 := of_decide_eq_true hp
    simp only [buildStep]
    split <;> simp only [Progress.writesLeft] <;> omega
  | duplicate => rfl
  | invert v =>
    have hv : v < 256 := of_decide_eq_true hp
    simp only [buildStep]
    split <;> simp only [Progress.writesLeft] <;> omega
  | publish => rfl

/-- A write step does the first of the work left and leaves the rest. -/
theorem finish_buildStep (rc : Byte) {p : Progress} (t : Tables) (hp : p.inRange = true) :
    (buildStep rc p t).1.finish rc (buildStep rc p t).2 = p.finish rc t := by
  cases p with
  | fill i v =>
    have hi : i < 255 := of_decide_eq_true hp
    by_cases h : i < 254
    · simp only [buildStep, if_pos h, Progress.finish]
      rw [show 254 - i = 254 - (i + 1) + 1 by omega, fillFrom]
    · obtain rfl : i = 254 := by omega
      rfl
  | duplicate => rfl
  | invert v =>
    have hv : v < 256 := of_decide_eq_true hp
    by_cases h : v < 255
    · simp only [buildStep, if_pos h, Progress.finish]
      rw [show 256 - v = 256 - (v + 1) + 1 by omega, invertFrom]
    · obtain rfl : v = 255 := by omega
      rfl
  | publish => rfl

/-! ### After `n` write steps -/

theorem buildAfter_succ (rc : Byte) (n : Nat) :
    buildAfter rc (n + 1) = buildStep rc (buildAfter rc n).1 (buildAfter rc n).2 := rfl

/-- A builder never leaves the tables, and keeps them in canonical form. -/
theorem buildAfter_wf (rc : Byte) (n : Nat) :
    (buildAfter rc n).1.inRange = true ∧ (buildAfter rc n).2.wf 256 = true := by
  induction n with
  | zero => exact ⟨rfl, rfl⟩
  | succ n ih => exact buildStep_wf rc ih.1 ih.2

theorem writesLeft_buildAfter (rc : Byte) (n : Nat) : (buildAfter rc n).1.writesLeft = 511 - n := by
  induction n with
  | zero => rfl
  | succ n ih =>
    rw [buildAfter_succ, writesLeft_buildStep rc _ (buildAfter_wf rc n).1, ih]
    omega

/-- The work still left always leads to the tables of `Build()`. -/
theorem finish_buildAfter (rc : Byte) (n : Nat) : (buildAfter rc n).1.finish rc (buildAfter rc n).2 = buildTables rc := by
  induction n with
  | zero => rfl
  | succ n ih => rw [buildAfter_succ, finish_buildStep rc _ (buildAfter_wf rc n).1, ih]

/-- Where the publish step is next, the tables are those of `Build()` (R61). -/
theorem tables_of_publish {rc : Byte} {n : Nat} (h : (buildAfter rc n).1 = .publish) : (buildAfter rc n).2 = buildTables rc := by
  have hfinish := finish_buildAfter rc n
  rwa [h] at hfinish

/-- After 511 write steps none is left, so the publish step is next (R61). -/
theorem buildAfter_of_le (rc : Byte) {n : Nat} (hn : 511 ≤ n) : buildAfter rc n = (.publish, buildTables rc) := by
  have hnone : (buildAfter rc n).1.writesLeft = 0 := by rw [writesLeft_buildAfter, Nat.sub_eq_zero_of_le hn]
  have hpublish := eq_publish_of_writesLeft (buildAfter_wf rc n).1 hnone
  have htables := tables_of_publish hpublish
  rw [← hpublish, ← htables]

/-- Settles O42. -/
theorem buildingStepByStepEqualsBuildingAtOnce : Obligations.BuildingStepByStepEqualsBuildingAtOnce :=
  fun rc => buildAfter_of_le rc le_rfl

/-- Where a write is next, fewer than 511 have been taken. -/
theorem lt_511_of_ne_publish {rc : Byte} {n : Nat} (h : (buildAfter rc n).1 ≠ .publish) : n < 511 := by
  by_contra hn
  exact h (congrArg Prod.fst (buildAfter_of_le rc (Nat.le_of_not_lt hn)))

/-! ### Every write goes to an entry without a value -/

/-- Every entry of `t` that has a value has the same one in `u` (R21). -/
def Tables.Within (t u : Tables) : Prop := ∀ T i v, (t.get T).read i = some v → (u.get T).read i = some v

@[simp] theorem Tables.within_refl (t : Tables) : t.Within t := fun _ _ _ h => h

@[simp] theorem Tables.empty_within (t : Tables) : Tables.empty.Within t := by
  intro T i v h
  cases T <;> cases h

/-- A write to an entry without a value keeps every value there is. -/
theorem Memory.read_write_of_unwritten {m : Memory} {i : Nat} (hi : m.read i = none) (v : Byte) {j : Nat} {w : Byte}
    (hj : m.read j = some w) : (m.write i v).read j = some w := by
  have hne : j ≠ i := by
    rintro rfl
    rw [hi] at hj
    cases hj
  rw [m.read_write_of_ne v hne, hj]

/-- An iteration of step 4 writes the one entry it is for. -/
theorem invert_invT_of_ne (t : Tables) {v k : Nat} (h : k ≠ v) : (t.invert v).invT.read k = t.invT.read k :=
  invertFrom_invT_of_lt 1 v t k (by omega)

/-- The entries the write steps still to take will write have no value; and the value of step 2 is the power of `x` at its index. -/
def Progress.Unwritten (rc : Byte) : Progress → Tables → Prop
  | .fill i v, t => v = xtimes rc i 1 ∧ (∀ j, i ≤ j → t.expT.read j = none) ∧
      (∀ j, i ≤ j → j < 255 → t.logT.read (xtimes rc j 1).toNat = none) ∧ ∀ k, t.invT.read k = none
  | .duplicate, t => t.expT.read 255 = none ∧ ∀ k, t.invT.read k = none
  | .invert v, t => ∀ k, v ≤ k → t.invT.read k = none
  | .publish, _ => True

/-- So a write step overwrites nothing (R21). -/
theorem within_buildStep {rc : Byte} {p : Progress} {t : Tables} (hp : p.inRange = true) (h : p.Unwritten rc t) :
    t.Within (buildStep rc p t).2 := by
  cases p with
  | fill i v =>
    obtain ⟨rfl, hexp, hlog, -⟩ := h
    intro T j w hj
    cases T with
    | exp => exact Memory.read_write_of_unwritten (hexp i le_rfl) _ hj
    | log => exact Memory.read_write_of_unwritten (hlog i le_rfl (of_decide_eq_true hp)) _ hj
    | inv => exact hj
  | duplicate =>
    obtain ⟨hexp, -⟩ := h
    intro T j w hj
    cases T with
    | exp =>
      change t.expT.read j = some w at hj
      show t.duplicate.expT.read j = some w
      cases h0 : t.expT.read 0 with
      | some b => rw [duplicate_expT h0, Memory.read_write_of_unwritten hexp b hj]
      | none => simpa only [Tables.duplicate, h0] using hj
    | log => exact hj
    | inv => exact hj
  | invert v =>
    intro T j w hj
    cases T with
    | exp => exact hj
    | log => exact hj
    | inv =>
      have hne : j ≠ v := by
        rintro rfl
        have hnone := h j le_rfl
        exact absurd (hnone.symm.trans hj) (by simp)
      exact (invert_invT_of_ne t hne).trans hj
  | publish => exact Tables.within_refl t

/-- A write step leaves the entries after its own unwritten: under a legal `RC` no power of `x` comes back (R7). -/
theorem unwritten_buildStep {rc : Byte} (hrc : rc ∈ Config.legalRcs) {p : Progress} {t : Tables} (hp : p.inRange = true)
    (h : p.Unwritten rc t) : (buildStep rc p t).1.Unwritten rc (buildStep rc p t).2 := by
  cases p with
  | fill i v =>
    have hi : i < 255 := of_decide_eq_true hp
    obtain ⟨rfl, hexp, hlog, hinv⟩ := h
    have hexp' : ∀ j, i + 1 ≤ j → (t.record i (xtimes rc i 1)).expT.read j = none := fun j hj => by
      rw [record_expT, Memory.read_write_of_ne _ _ (by omega), hexp j (by omega)]
    have hlog' : ∀ j, i + 1 ≤ j → j < 255 → (t.record i (xtimes rc i 1)).logT.read (xtimes rc j 1).toNat = none := by
      intro j hj hlt
      have hne : (xtimes rc j 1).toNat ≠ (xtimes rc i 1).toNat := fun e => by
        have := xtimes_inj hrc hlt (by omega) (BitVec.eq_of_toNat_eq e)
        omega
      rw [record_logT, Memory.read_write_of_ne _ _ hne, hlog j (by omega) hlt]
    by_cases hlast : i < 254
    · simp only [buildStep, if_pos hlast]
      exact ⟨rfl, hexp', hlog', hinv⟩
    · simp only [buildStep, if_neg hlast]
      exact ⟨hexp' 255 (by omega), hinv⟩
  | duplicate =>
    obtain ⟨-, hinv⟩ := h
    exact fun k _ => hinv k
  | invert v =>
    have hinv : ∀ k, v + 1 ≤ k → (t.invert v).invT.read k = none := fun k hk => by
      rw [invert_invT_of_ne t (by omega), h k (by omega)]
    simp only [buildStep]
    split
    · exact hinv
    · trivial
  | publish => trivial

theorem unwritten_buildAfter {rc : Byte} (hrc : rc ∈ Config.legalRcs) (n : Nat) :
    (buildAfter rc n).1.Unwritten rc (buildAfter rc n).2 := by
  induction n with
  | zero => exact ⟨rfl, fun _ _ => rfl, fun _ _ _ => rfl, fun _ => rfl⟩
  | succ n ih => exact unwritten_buildStep hrc (buildAfter_wf rc n).1 ih

/-- Every entry a builder has written keeps its value at the next write step (R21). -/
theorem within_buildAfter_succ {rc : Byte} (hrc : rc ∈ Config.legalRcs) (n : Nat) :
    (buildAfter rc n).2.Within (buildAfter rc (n + 1)).2 :=
  within_buildStep (buildAfter_wf rc n).1 (unwritten_buildAfter hrc n)

end Sys2Proof.Machine
end

section
/-! What a command and a turn leave unchanged (R20, R21, R24, R55, R66, R116). -/

namespace Sys2Proof.Machine

/-! ### Commands -/

/-- Existing tables are gone on with as they are (R66). -/
theorem ensureTables_of_valid {s : State} (hv : s.tblValid = true) : ensureTables s = .ready s := if_pos hv

/-- A command is held only while the tables do not exist (R66). -/
theorem tblValid_of_held {s t : State} (h : ensureTables s = .held t) : s.tblValid = false := by
  refine Bool.eq_false_iff.2 fun hv => ?_
  rw [ensureTables_of_valid hv] at h
  cases h

/-- A command that needs no table, or finds them there, builds nothing. -/
theorem ReadyFor.eq_of_nothing_to_build {i : Instr} {s t : State} (h : ReadyFor i s t)
    (hs : needsTables i = false ∨ s.tblValid = true) : t = s := by
  rcases h with ⟨-, rfl⟩ | ⟨hi, hready⟩
  · rfl
  · rcases hs with hno | hv
    · exact absurd (hno.symm.trans hi) Bool.false_ne_true
    · rw [ensureTables_of_valid hv] at hready
      cases hready
      rfl

/-- Settles O47: an answer changes the active port alone, a hold no port, and `EnsureTables()` the tables and its two bits alone. -/
theorem frameOfEveryCommand : Obligations.FrameOfEveryCommand := by
  intro i s t h
  rcases exec_next h with ⟨u, r, hready, hport, rfl⟩ | ⟨hi, hheld⟩
  · obtain ⟨hconfig, hports, hschedule, hactive⟩ := hready.frame
    refine ⟨hconfig, hschedule, hactive, ?_⟩
    rw [answered_ports, hports, hactive]
    refine ⟨List.length_modify _ _ _, fun p hp => List.getElem?_modify_ne _ _ hp.symm, .inr ?_, fun hs => ?_⟩
    · refine ⟨s.ports[s.active], r, List.getElem?_eq_getElem hport, ?_⟩
      rw [List.getElem?_modify_eq, List.getElem?_eq_getElem hport]
      rfl
    · obtain rfl := hready.eq_of_nothing_to_build hs
      exact ⟨rfl, rfl, rfl, fun _ _ => rfl⟩
  · obtain ⟨hconfig, hports, hschedule, hactive⟩ := ensureTables_frame s t (.inr hheld)
    have hv := tblValid_of_held hheld
    refine ⟨hconfig, hschedule, hactive, by rw [hports], fun p _ => by rw [hports], .inl ⟨hports, hi, hv⟩, fun hs => ?_⟩
    rcases hs with hno | hyes
    · exact absurd (hno.symm.trans hi) Bool.false_ne_true
    · exact absurd (hv.symm.trans hyes) Bool.false_ne_true

/-- A builder's turn is its next write step; at the publish step it writes nothing (R61). -/
theorem advanceBuild_tables (b : Builder) (s : State) :
    (advanceBuild b s).tables = (buildStep s.config.rc b.progress s.tables).2 := by
  obtain ⟨p, progress⟩ := b
  cases progress <;> rfl

/-- What can become of the tables from `s` to `t` without a reset: they stay; or they did not exist, and either nobody was building them yet or
the builder took its next write step (R26, R66). -/
def TablesMove (s t : State) : Prop :=
  t.tables = s.tables ∧ t.tblValid = s.tblValid ∨
  s.tblValid = false ∧ s.builder = none ∨
  s.tblValid = false ∧ ∃ b, s.builder = some b ∧ t.tables = (buildStep s.config.rc b.progress s.tables).2

theorem ensureTables_tables {s t : State} (h : ensureTables s = .ready t ∨ ensureTables s = .held t) : TablesMove s t := by
  rcases ensureTables_cases s with ⟨-, e⟩ | ⟨hv, hb, -, -⟩ | ⟨hv, hb, -, -⟩ | ⟨b, hv, hb, -, e⟩ | ⟨b, -, -, -, e⟩
  · rcases h with h | h <;> cases e.symm.trans h
    exact .inl ⟨rfl, rfl⟩
  · exact .inr (.inl ⟨hv, hb⟩)
  · exact .inr (.inl ⟨hv, hb⟩)
  · rcases h with h | h <;> cases e.symm.trans h
    exact .inr (.inr ⟨hv, b, hb, advanceBuild_tables b s⟩)
  · rcases h with h | h <;> cases e.symm.trans h
    exact .inl ⟨rfl, rfl⟩

/-- A command touches the tables through `EnsureTables()` alone (R21, R68). -/
theorem exec_tables {i : Instr} {s t : State} (h : exec i s = .next t) : TablesMove s t := by
  rcases exec_next h with ⟨u, r, ⟨-, rfl⟩ | ⟨-, hready⟩, -, rfl⟩ | ⟨-, hheld⟩
  · exact .inl ⟨rfl, rfl⟩
  · have hmove : TablesMove s u := ensureTables_tables (.inl hready)
    exact hmove
  · exact ensureTables_tables (.inr hheld)

/-! ### Turns -/

/-- A step in which an idle port has the turn takes its oldest command and runs it (R23, R55). -/
theorem step_takes {s : State} {p : Nat} {ts : List Turn} {q : Port} {w : CommandWord} {ws : List CommandWord}
    (hl : s.config.legal = true) (hs : s.schedule = .port p :: ts) (hp : s.ports[p]? = some q) (hi : q.inProgress = none)
    (hq : q.queue = w :: ws) :
    step s = exec (decodeCommand w) ((s.turnOf p ts).taking (decodeCommand w) ws) :=
  step_of_run (by simp only [fetch, hl, hs, hp, hi, hq, if_true])

/-- The port that has taken a command holds it in progress, its other words still waiting. -/
theorem taking_active_port {s : State} {p : Nat} {ts : List Turn} {q : Port} (i : Instr) (ws : List CommandWord)
    (hp : s.ports[p]? = some q) : ((s.turnOf p ts).taking i ws).ports[p]? = some ⟨ws, some i, q.responses⟩ := by
  rw [taking_ports, turnOf_active, turnOf_ports, List.getElem?_modify_eq, hp]
  rfl

/-- A number of at most 20 bits is decoded as the word presented for it. -/
theorem decodeTableWord_of_lt {nbits w : Nat} (h : w % 2 ^ nbits < 2 ^ 20) :
    decodeTableWord nbits w = some (decodeCommand (BitVec.ofNat 20 (w % 2 ^ nbits))) := by
  simp only [decodeTableWord, decode, if_pos h]

/-- Presenting a word makes it the next one port 0 takes, ahead of everything else. -/
theorem presentNext_port_zero (s : State) (w : CommandWord) :
    ∃ q, (presentNext s w).ports[0]? = some q ∧ q.inProgress = none ∧ ∃ ws, q.queue = w :: ws := by
  obtain ⟨config, tables, tblValid, builder, ports, schedule, active⟩ := s
  cases ports with
  | nil => exact ⟨_, rfl, rfl, _, rfl⟩
  | cons q qs => exact ⟨_, rfl, rfl, _, rfl⟩

/-- Settles O50: the state the command runs in is the one with its turn taken and the command in progress. -/
theorem stepRunsTheDecodedCommand : Obligations.StepRunsTheDecodedCommand := by
  refine ⟨fun s p ts q w ws hl hs hp hi hq => ?_, fun s nbits w hl hw => ?_⟩
  · refine ⟨_, step_takes hl hs hp hi hq, rfl, rfl, rfl, rfl, rfl, rfl, List.length_modify _ _ _,
      taking_active_port _ ws hp, fun p' hp' => List.getElem?_modify_ne _ _ hp'.symm⟩
  · obtain ⟨q, hp, hi, ws, hq⟩ := presentNext_port_zero s (BitVec.ofNat 20 (w % 2 ^ nbits))
    refine ⟨_, ((presentNext s (BitVec.ofNat 20 (w % 2 ^ nbits))).turnOf 0 s.schedule).taking _ ws, decodeTableWord_of_lt hw, ?_,
      rfl, rfl, rfl, rfl, rfl, rfl, _, taking_active_port _ ws hp, rfl⟩
    rw [State.withFetchWord, if_pos hw]
    exact step_takes hl rfl hp hi hq

/-- A turn touches the tables through its command alone (R21). -/
theorem step_tables {s t : State} (h : step s = .next t) (hr : s.schedule.head? ≠ some .reset) : TablesMove s t := by
  obtain ⟨-, ⟨-, rfl⟩ | ⟨ts, hs, -⟩ | ⟨p, ts, q, -, -, ⟨-, -, rfl⟩ | ⟨i, -, he⟩ | ⟨w, ws, -, -, he⟩⟩⟩ := step_next h
  · exact .inl ⟨rfl, rfl⟩
  · exact absurd (by rw [hs]; rfl) hr
  · exact .inl ⟨rfl, rfl⟩
  · exact exec_tables (s := s.turnOf p ts) he
  · exact exec_tables (s := (s.turnOf p ts).taking (decodeCommand w) ws) he

/-- Settles O54: tables that do not exist and are not being built have no entry to keep, and a builder writes only entries without a value. -/
theorem tablesAreWriteOnceThenImmutable : Obligations.TablesAreWriteOnceThenImmutable := by
  intro s t hs h hr
  obtain ⟨-, hrc, -⟩ := (Config.legal_iff s.config).1 hs.legal
  show s.tables.Within t.tables ∧ _
  rcases step_tables h hr with ⟨htables, hvalid⟩ | ⟨hv, hb⟩ | ⟨hv, b, hb, htables⟩
  · rw [htables, hvalid]
    exact ⟨Tables.within_refl _, fun hyes => ⟨rfl, hyes⟩⟩
  · rw [hs.absent hv hb, hv]
    exact ⟨Tables.empty_within _, nofun⟩
  · obtain ⟨-, n, -, hafter⟩ := hs.partway b hb
    have hwithin := within_buildAfter_succ hrc n
    rw [buildAfter_succ, hafter, ← htables] at hwithin
    rw [hv]
    exact ⟨hwithin, nofun⟩

end Sys2Proof.Machine
end

section
/-! The invariant of the machine (R19 to R21, R26, R55, R67, R69), one lemma per operation a step is made of; then every step keeps it. -/

namespace Sys2Proof.Machine

/-! ### Reset -/

/-- The two reset values of the tables and of `TBL_VALID` (R27). -/
theorem resetTables_cases (c : Config) :
    c.tableInit = .lazy ∧ Config.resetValid c = false ∧ Config.resetTables c = Tables.empty ∨
      c.tableInit = .constant ∧ Config.resetValid c = true ∧ Config.resetTables c = buildTables c.rc := by
  cases h : c.tableInit <;> simp [Config.resetValid, Config.resetTables, h]

/-- A machine whose tables have their reset values and whose ports are all idle meets the invariant (R27, R118 to R120). -/
theorem State.Inv.of_reset_values {s : State} (hl : s.config.legal = true) (hcount : s.ports.length = s.config.nports)
    (hactive : s.HasActivePort) (htables : s.tables = Config.resetTables s.config)
    (hvalid : s.tblValid = Config.resetValid s.config) (hbuilder : s.builder = none)
    (hidle : ∀ q ∈ s.ports, q.inProgress = none) : s.Inv := by
  have noBuilder : ∀ b, s.builder ≠ some b := fun b hb => by cases hbuilder.symm.trans hb
  have idle : ∀ q ∈ s.ports, ∀ i, q.inProgress = some i → needsTables i = true := fun q hq i hi => by
    cases (hidle q hq).symm.trans hi
  rcases resetTables_cases s.config with ⟨hlazy, hv, ht⟩ | ⟨hconst, hv, ht⟩ <;> rw [ht] at htables <;> rw [hv] at hvalid
  · exact ⟨hl, hcount, hactive, by simp [hvalid], fun _ _ => htables, fun b hb => absurd hb (noBuilder b),
      fun b hb => absurd hb (noBuilder b), fun _ => hbuilder, by simp [hlazy], idle⟩
  · exact ⟨hl, hcount, hactive, fun _ => htables, by simp [hvalid], fun b hb => absurd hb (noBuilder b),
      fun b hb => absurd hb (noBuilder b), fun _ => hbuilder, fun _ => hvalid, idle⟩

theorem resetFor_idle (c : Config) : ∀ q ∈ (State.resetFor c).ports, q.inProgress = none := by
  intro q hq
  rw [List.eq_of_mem_replicate hq]
  rfl

/-- Settles O56: every port is idle after reset, and the tables have their reset values. -/
theorem resetMeetsTheInvariant : Obligations.ResetMeetsTheInvariant := by
  refine ⟨fun c hc => ?_, resetFor_idle, resetFor_idle Config.default, rfl, rfl, rfl, fun T i => memRead_of_invalid rfl T i⟩
  obtain ⟨-, -, hports⟩ := (Config.legal_iff c).1 hc
  exact .of_reset_values hc List.length_replicate (hports.trans_eq List.length_replicate.symm) rfl rfl rfl (resetFor_idle c)

/-- A reset in the middle of anything meets the invariant (R118 to R120). -/
theorem State.Inv.resetEngine {s : State} (h : s.Inv) (ts : List Turn) : State.Inv { resetEngine s with schedule := ts } := by
  refine .of_reset_values h.legal ((List.length_map _).trans h.portCount) (h.activePort.trans_eq (List.length_map _).symm)
    rfl rfl rfl fun q hq => ?_
  obtain ⟨q', -, rfl⟩ := List.mem_map.1 hq
  rfl

/-! ### Turns and the active port -/

/-- A turn goes to a port there is. -/
theorem State.Inv.turnOf {s : State} (h : s.Inv) {p : Nat} (hp : p < s.ports.length) (ts : List Turn) : (s.turnOf p ts).Inv where
  legal := h.legal
  portCount := h.portCount
  activePort := hp
  built := h.built
  absent := h.absent
  partway := h.partway
  builderPort := h.builderPort
  grain := h.grain
  constant := h.constant
  heldNeedsTables := h.heldNeedsTables

/-- The active port may change as long as only a table command is in progress on it, and one is where it builds. -/
theorem State.Inv.modifyActive {s : State} (h : s.Inv) (f : Port → Port)
    (hheld : ∀ q i, (f q).inProgress = some i → needsTables i = true)
    (hbuilder : ∀ b, s.builder = some b → b.port = s.active → ∀ q, ∃ i, (f q).inProgress = some i) :
    State.Inv { s with ports := s.ports.modify s.active f } where
  legal := h.legal
  portCount := (List.length_modify _ _ _).trans h.portCount
  activePort := h.activePort.trans_eq (List.length_modify _ _ _).symm
  built := h.built
  absent := h.absent
  partway := h.partway
  builderPort b hb := by
    obtain ⟨q, i, hq, hi⟩ := h.builderPort b hb
    by_cases hp : b.port = s.active
    · obtain ⟨j, hj⟩ := hbuilder b hb hp q
      refine ⟨f q, j, ?_, hj⟩
      simp only [← hp, List.getElem?_modify_eq, hq]
      rfl
    · exact ⟨q, i, (List.getElem?_modify_ne _ _ (Ne.symm hp)).trans hq, hi⟩
  grain := h.grain
  constant := h.constant
  heldNeedsTables q hq i hi := by
    obtain ⟨k, hk⟩ := List.mem_iff_getElem?.1 hq
    by_cases hp : s.active = k
    · subst hp
      simp only [List.getElem?_modify_eq, Option.map_eq_map, Option.map_eq_some_iff] at hk
      obtain ⟨q', -, rfl⟩ := hk
      exact hheld q' i hi
    · simp only [List.getElem?_modify_ne _ _ hp] at hk
      exact h.heldNeedsTables q (List.mem_of_getElem? hk) i hi

/-- A response to a port that is not the builder (R55, R66). -/
theorem State.Inv.answered {s : State} (h : s.Inv) (hb : ∀ b, s.builder = some b → b.port ≠ s.active) (r : Response) :
    (s.answered r).Inv :=
  h.modifyActive _ (fun _ _ hi => by cases hi) fun b hsome hp => absurd hp (hb b hsome)

/-- A command taken that needs the tables (R55, R66). -/
theorem State.Inv.taking {s : State} (h : s.Inv) {i : Instr} (hi : needsTables i = true) (ws : List CommandWord) :
    (s.taking i ws).Inv :=
  h.modifyActive _ (fun _ _ hj => by cases hj; exact hi) fun _ _ _ _ => ⟨i, rfl⟩

/-- A command taken and answered at once, on a port that is not the builder. -/
theorem State.Inv.taking_answered {s : State} (h : s.Inv) (hb : ∀ b, s.builder = some b → b.port ≠ s.active)
    (i : Instr) (ws : List CommandWord) (r : Response) : ((s.taking i ws).answered r).Inv := by
  have hinv := h.modifyActive (fun q => Port.answer { q with inProgress := some i, queue := ws } r)
    (fun _ _ hj => by cases hj) fun b hsome hp => absurd hp (hb b hsome)
  simpa only [State.answered, State.taking, List.modify_modify_eq, Function.comp_def] using hinv

/-! ### Building the tables -/

/-- `Build()` as one transition (R26, R61). -/
theorem State.Inv.build {s : State} (h : s.Inv) : (build s).Inv where
  legal := by rw [build_config]; exact h.legal
  portCount := by rw [build_config, build_ports]; exact h.portCount
  activePort := by rw [State.HasActivePort, build_active, build_ports]; exact h.activePort
  built _ := by rw [build_config, build_tables]
  absent hv := by rw [build_tblValid] at hv; cases hv
  partway _ hb := by rw [build_builder] at hb; cases hb
  builderPort _ hb := by rw [build_builder] at hb; cases hb
  grain _ := build_builder s
  constant _ := build_tblValid s
  heldNeedsTables := by rw [build_ports]; exact h.heldNeedsTables

/-- The guard won, with nothing written yet (R66). -/
theorem State.Inv.claimBuild {s : State} (h : s.Inv) (hv : s.tblValid = false) (hgrain : s.config.grain = .stepwise)
    {q : Port} {i : Instr} (hq : s.ports[s.active]? = some q) (hi : q.inProgress = some i) : (claimBuild s).Inv where
  legal := h.legal
  portCount := h.portCount
  activePort := h.activePort
  built hv' := by rw [claimBuild_tblValid, hv] at hv'; cases hv'
  absent _ hb := by cases hb
  partway b hb := by cases hb; exact ⟨hv, 0, Nat.zero_le _, rfl⟩
  builderPort b hb := by cases hb; exact ⟨q, i, hq, hi⟩
  grain hatomic := by rw [claimBuild_config, hgrain] at hatomic; cases hatomic
  constant := h.constant
  heldNeedsTables := h.heldNeedsTables

/-- The builder's turn: the publish step leaves the tables of `Build()`, every other one more write step (R61, R69). -/
theorem State.Inv.advanceBuild {s : State} (h : s.Inv) {b : Builder} (hb : s.builder = some b) : (advanceBuild b s).Inv := by
  obtain ⟨hv, n, -, hafter⟩ := h.partway b hb
  by_cases hp : b.progress = .publish
  · have htables : s.tables = buildTables s.config.rc := by
      have hbuilt := tables_of_publish (rc := s.config.rc) (n := n) (by rw [hafter, hp])
      rwa [hafter] at hbuilt
    obtain ⟨port, progress⟩ := b
    obtain rfl : progress = .publish := hp
    exact {
      legal := h.legal
      portCount := h.portCount
      activePort := h.activePort
      built := fun _ => htables
      absent := fun hv' => by cases hv'
      partway := fun _ hb' => by cases hb'
      builderPort := fun _ hb' => by cases hb'
      grain := fun _ => rfl
      constant := fun _ => rfl
      heldNeedsTables := h.heldNeedsTables }
  · have hlt : n < 511 := lt_511_of_ne_publish (rc := s.config.rc) (by rwa [hafter])
    rw [advanceBuild_write s hp]
    exact {
      legal := h.legal
      portCount := h.portCount
      activePort := h.activePort
      built := fun hv' => absurd (hv.symm.trans hv') Bool.false_ne_true
      absent := fun _ hb' => by cases hb'
      partway := fun b' hb' => by
        cases hb'
        exact ⟨hv, n + 1, hlt, by rw [buildAfter_succ, hafter]⟩
      builderPort := fun b' hb' => by
        cases hb'
        exact h.builderPort b hb
      grain := fun hatomic => absurd (h.grain hatomic) (by rw [hb]; simp)
      constant := h.constant
      heldNeedsTables := h.heldNeedsTables }

/-! ### Commands -/

/-- `EnsureTables()` lets a command go on only in an invariant state without a builder (R66). -/
theorem State.Inv.ready {s t : State} (h : s.Inv) (hready : ensureTables s = .ready t) : t.Inv ∧ t.builder = none := by
  rcases ensureTables_cases s with ⟨hv, e⟩ | ⟨-, -, -, e⟩ | ⟨-, -, -, e⟩ | ⟨b, -, -, -, e⟩ | ⟨b, -, -, -, e⟩ <;>
    rw [e] at hready <;> cases hready
  · refine ⟨h, Option.eq_none_iff_forall_not_mem.2 fun b hb => ?_⟩
    obtain ⟨hv', -⟩ := h.partway b hb
    exact absurd (hv'.symm.trans hv) Bool.false_ne_true
  · exact ⟨h.build, build_builder s⟩

/-- `EnsureTables()` holds the command in progress of the active port in an invariant state (R66). -/
theorem State.Inv.held {s t : State} (h : s.Inv) {q : Port} {i : Instr} (hq : s.ports[s.active]? = some q)
    (hi : q.inProgress = some i) (hheld : ensureTables s = .held t) : t.Inv := by
  rcases ensureTables_cases s with ⟨-, e⟩ | ⟨-, -, -, e⟩ | ⟨hv, -, hgrain, e⟩ | ⟨b, -, hb, -, e⟩ | ⟨b, -, -, -, e⟩ <;>
    rw [e] at hheld <;> cases hheld
  · exact h.claimBuild hv hgrain hq hi
  · exact h.advanceBuild hb
  · exact h

/-- A table command in progress on the active port keeps the invariant. -/
theorem State.Inv.exec_of_needsTables {s t : State} (h : s.Inv) {q : Port} {i : Instr} (hi : needsTables i = true)
    (hq : s.ports[s.active]? = some q) (hprogress : q.inProgress = some i) (he : exec i s = .next t) : t.Inv := by
  rcases exec_next he with ⟨u, r, ⟨hno, -⟩ | ⟨-, hready⟩, -, rfl⟩ | ⟨-, hheld⟩
  · exact absurd (hno.symm.trans hi) Bool.false_ne_true
  · obtain ⟨hinv, hnone⟩ := h.ready hready
    exact hinv.answered (fun b hb => by cases hnone.symm.trans hb) r
  · exact h.held hq hprogress hheld

/-- A command that needs no table, taken by an idle port, keeps the invariant. -/
theorem State.Inv.exec_of_not_needsTables {s t : State} (h : s.Inv) {q : Port} {i : Instr} {ws : List CommandWord}
    (hi : needsTables i = false) (hq : s.ports[s.active]? = some q) (hidle : q.inProgress = none)
    (he : exec i (s.taking i ws) = .next t) : t.Inv := by
  have notBuilder : ∀ b, s.builder = some b → b.port ≠ s.active := by
    intro b hb hp
    obtain ⟨q', j, hq', hj⟩ := h.builderPort b hb
    rw [hp, hq] at hq'
    cases hq'
    cases hidle.symm.trans hj
  rcases exec_next he with ⟨u, r, hready, -, rfl⟩ | ⟨hyes, -⟩
  · obtain rfl := hready.eq_of_nothing_to_build (.inl hi)
    exact h.taking_answered notBuilder i ws r
  · exact absurd (hi.symm.trans hyes) Bool.false_ne_true

/-- Settles O55: a step is a reset, a turn with nothing to do, or a command in progress or just taken; only the last may need no table. -/
theorem everyStepKeepsTheInvariant : Obligations.EveryStepKeepsTheInvariant := by
  intro s t h hstep
  obtain ⟨-, ⟨-, rfl⟩ | ⟨ts, -, rfl⟩ | ⟨p, ts, q, -, hq, hturn⟩⟩ := step_next hstep
  · exact h
  · exact h.resetEngine ts
  · have hinv : (s.turnOf p ts).Inv := h.turnOf (List.getElem?_eq_some_iff.1 hq).1 ts
    rcases hturn with ⟨-, -, rfl⟩ | ⟨i, hi, he⟩ | ⟨w, ws, hidle, -, he⟩
    · exact hinv
    · have hneeds : needsTables i = true := h.heldNeedsTables q (List.mem_of_getElem? hq) i hi
      exact hinv.exec_of_needsTables hneeds hq hi he
    · cases hneeds : needsTables (decodeCommand w) with
      | true => exact (hinv.taking hneeds ws).exec_of_needsTables hneeds (taking_active_port _ ws hq) rfl he
      | false => exact hinv.exec_of_not_needsTables hneeds hq hidle he

end Sys2Proof.Machine
end

section
/-! R34, R61, R64: how many entries construction has written. A write to an entry without a value adds one, and every write step of a builder
has a byte to write. -/

namespace Sys2Proof.Machine

/-! ### Entries of a memory -/

/-- The entries listed are those that have a value (R18). -/
theorem Memory.mem_indices_iff (m : Memory) (i : Nat) : i ∈ m.map Prod.fst ↔ ∃ v, m.read i = some v := by
  induction m with
  | nil => simp
  | cons c m ih =>
    rw [List.map_cons, List.mem_cons, ih, Memory.read_cons]
    by_cases h : c.1 = i
    · simp [h]
    · simp [h, Ne.symm h]

/-- In canonical form no index is listed twice (R28). -/
theorem Memory.nodup_indices {n : Nat} {m : Memory} (hm : m.wf n = true) : (m.map Prod.fst).Nodup := by
  have hchain : (m.map Prod.fst).IsChain (· < ·) := by
    induction m with
    | nil => exact .nil
    | cons c m ih =>
      obtain ⟨-, hhead, hwf⟩ := (Memory.wf_cons n c m).1 hm
      rw [List.map_cons, List.isChain_cons, List.head?_map]
      refine ⟨fun i hi => ?_, ih hwf⟩
      obtain ⟨d, hd, rfl⟩ := Option.mem_map.1 hi
      exact hhead d hd
  exact (List.isChain_iff_pairwise.1 hchain).imp Nat.ne_of_lt

/-- So a canonical memory lists as many entries as there are indices with a value. -/
theorem Memory.length_eq_card {n : Nat} {m : Memory} (hm : m.wf n = true) {S : Finset Nat}
    (hS : ∀ i, i ∈ S ↔ ∃ v, m.read i = some v) : m.length = S.card := by
  have hset : (m.map Prod.fst).toFinset = S := by
    ext i
    rw [List.mem_toFinset, Memory.mem_indices_iff, hS]
  rw [← hset, List.toFinset_card_of_nodup (Memory.nodup_indices hm), List.length_map]

/-- A write to an entry without a value adds one entry (R34). -/
theorem Memory.length_write_of_unwritten {m : Memory} {i : Nat} (h : m.read i = none) (v : Byte) :
    (m.write i v).length = m.length + 1 := by
  induction m with
  | nil => rfl
  | cons c m ih =>
    rw [Memory.read_cons] at h
    by_cases hc : c.1 = i
    · simp [hc] at h
    · rw [if_neg hc] at h
      rw [Memory.write_cons, if_neg hc]
      split
      · rw [List.length_cons, ih h, List.length_cons]
      · rfl

/-! ### Write steps -/

/-- The entries written so far, in the three tables. -/
def Tables.count (t : Tables) : Nat := t.expT.length + t.logT.length + t.invT.length

/-- The entries a write step writes: two while construction fills, one after (R61). -/
def Progress.writes : Progress → Nat
  | .fill _ _ => 2
  | .duplicate => 1
  | .invert _ => 1
  | .publish => 0

/-- The byte the next write step copies or looks up is there (R61). -/
def Progress.HasSource : Progress → Tables → Prop
  | .fill _ _, _ => True
  | .duplicate, t => ∃ b, t.expT.read 0 = some b
  | .invert v, t => ∃ w, t.inverseOf v = some w
  | .publish, _ => True

theorem invert_invT {t : Tables} {v : Nat} {w : Byte} (h : t.inverseOf v = some w) :
    (t.invert v).invT = t.invT.write v w := by simp only [Tables.invert, h]

/-- A write step with its source there adds exactly the entries it writes. -/
theorem count_buildStep {rc : Byte} {p : Progress} {t : Tables} (hp : p.inRange = true) (hfree : p.Unwritten rc t)
    (hsource : p.HasSource t) : (buildStep rc p t).2.count = t.count + p.writes := by
  cases p with
  | fill i v =>
    obtain ⟨rfl, hexp, hlog, -⟩ := hfree
    show (t.expT.write _ _).length + (t.logT.write _ _).length + t.invT.length = t.count + 2
    rw [Memory.length_write_of_unwritten (hexp i le_rfl), Memory.length_write_of_unwritten (hlog i le_rfl (of_decide_eq_true hp)),
      Tables.count]
    omega
  | duplicate =>
    obtain ⟨hexp, -⟩ := hfree
    obtain ⟨b, hb⟩ := hsource
    show t.duplicate.expT.length + t.logT.length + t.invT.length = t.count + 1
    rw [duplicate_expT hb, Memory.length_write_of_unwritten hexp, Tables.count]
    omega
  | invert v =>
    obtain ⟨w, hw⟩ := hsource
    show t.expT.length + t.logT.length + (t.invert v).invT.length = t.count + 1
    rw [invert_invT hw, Memory.length_write_of_unwritten (hfree v le_rfl), Tables.count]
    omega
  | publish => rfl

/-- Step 4 starts at `inv[1]` and goes up (R61). -/
theorem one_le_of_buildStep_invert {rc : Byte} {p : Progress} {t : Tables} {v : Nat}
    (h : (buildStep rc p t).1 = .invert v) : 1 ≤ v := by
  cases p with
  | fill i u =>
    simp only [buildStep] at h
    split at h <;> cases h
  | duplicate =>
    cases h
    exact le_rfl
  | invert u =>
    simp only [buildStep] at h
    split at h <;> cases h
    exact Nat.le_add_left 1 u
  | publish => cases h

theorem one_le_of_buildAfter_invert {rc : Byte} {n v : Nat} (h : (buildAfter rc n).1 = .invert v) : 1 ≤ v := by
  cases n with
  | zero => cases h
  | succ n => exact one_le_of_buildStep_invert h

/-- `exp[0]` is there before it is copied: construction that ends with `exp[0]` written has written it by then (R62). -/
theorem exists_source_of_duplicate {rc : Byte} {t : Tables} (h : Progress.duplicate.finish rc t = buildTables rc) :
    ∃ b, t.expT.read 0 = some b := by
  have hexp : t.duplicate.expT = (buildTables rc).expT := by rw [← h, Progress.finish, invertFrom_expT]
  cases h0 : t.expT.read 0 with
  | some b => exact ⟨b, rfl⟩
  | none =>
    have hsame : t.duplicate.expT = t.expT := by simp only [Tables.duplicate, h0]
    rw [← hsame, hexp, read_exp rc (by decide)] at h0
    cases h0

/-- The indices 1..255 are the nonzero bytes. -/
theorem exists_nonzero_byte {v : Nat} (h1 : 1 ≤ v) (hv : v < 256) : ∃ b : Byte, b ≠ 0 ∧ b.toNat = v :=
  ⟨BitVec.ofNat 8 v, by bv_omega, by rw [BitVec.toNat_ofNat, Nat.mod_eq_of_lt hv]⟩

/-- During step 4 the other two tables are complete, so every nonzero byte has its inverse there (R61, R63). -/
theorem exists_source_of_invert {rc : Byte} (hrc : rc ∈ Config.legalRcs) {v : Nat} {t : Tables} (h1 : 1 ≤ v) (hv : v < 256)
    (h : (Progress.invert v).finish rc t = buildTables rc) : ∃ w, t.inverseOf v = some w := by
  have hexp : t.expT = (filledTables rc).expT := by rw [← buildTables_expT, ← h, Progress.finish, invertFrom_expT]
  have hlog : t.logT = (filledTables rc).logT := by rw [← buildTables_logT, ← h, Progress.finish, invertFrom_logT]
  obtain ⟨b, hb, rfl⟩ := exists_nonzero_byte h1 hv
  obtain ⟨i, hi, rfl⟩ := exists_xtimes hrc hb
  exact ⟨_, (inverseOf_congr hexp hlog _).trans (filled_inverseOf hrc hi)⟩

/-- The next write step of a builder always has its source there. -/
theorem hasSource_buildAfter {rc : Byte} (hrc : rc ∈ Config.legalRcs) (n : Nat) :
    (buildAfter rc n).1.HasSource (buildAfter rc n).2 := by
  have hfinish := finish_buildAfter rc n
  obtain ⟨hrange, -⟩ := buildAfter_wf rc n
  cases hp : (buildAfter rc n).1 with
  | fill i v => trivial
  | duplicate => exact exists_source_of_duplicate (hp ▸ hfinish)
  | invert v =>
    rw [hp] at hfinish hrange
    exact exists_source_of_invert hrc (one_le_of_buildAfter_invert hp) (of_decide_eq_true hrange) hfinish
  | publish => trivial

/-! ### The tables `Build()` writes -/

/-- `EXP_T` has all 256 entries (R34). -/
theorem length_buildTables_expT {rc : Byte} (hrc : rc ∈ Config.legalRcs) : (buildTables rc).expT.length = 256 := by
  obtain ⟨hwf, -, -⟩ := (Tables.wf_iff _ _).1 (buildTables_wf rc)
  have hread : ∀ i, i ∈ Finset.range 256 ↔ ∃ v, (buildTables rc).expT.read i = some v := fun i =>
    ⟨fun hi => ⟨_, read_exp_legal hrc (Nat.lt_succ_iff.1 (Finset.mem_range.1 hi))⟩,
      fun ⟨_, hv⟩ => Finset.mem_range.2 (Memory.read_lt hwf hv)⟩
  rw [Memory.length_eq_card hwf hread, Finset.card_range]

/-- A table that has a value for every nonzero byte and none for zero has 255 entries (R18, R34). -/
theorem Memory.length_of_nonzero {m : Memory} (hwf : m.wf 256 = true) (hzero : m.read 0 = none)
    (hread : ∀ b : Byte, b ≠ 0 → ∃ v, m.read b.toNat = some v) : m.length = 255 := by
  have hS : ∀ i, i ∈ Finset.Ico 1 256 ↔ ∃ v, m.read i = some v := by
    intro i
    rw [Finset.mem_Ico]
    refine ⟨fun ⟨h1, hi⟩ => ?_, fun ⟨v, hv⟩ => ⟨?_, Memory.read_lt hwf hv⟩⟩
    · obtain ⟨b, hb, rfl⟩ := exists_nonzero_byte h1 hi
      exact hread b hb
    · refine Nat.pos_of_ne_zero fun e => ?_
      rw [e, hzero] at hv
      cases hv
  rw [Memory.length_eq_card hwf hS, Nat.card_Ico]

/-- Settles O40: every write step has its source there and writes entries without a value, and what is built in the end lists every index
but 0 of `LOG_T` and of `INV_T`. -/
theorem constructionWritesEveryEntryOnce : Obligations.ConstructionWritesEveryEntryOnce := by
  intro rc hrc
  obtain ⟨-, hlog, hinv⟩ := (Tables.wf_iff _ _).1 (buildTables_wf rc)
  refine ⟨within_buildAfter_succ hrc, fun n => ?_, length_buildTables_expT hrc, ?_, ?_, read_log_zero hrc, read_inv_zero rc⟩
  · exact count_buildStep (buildAfter_wf rc n).1 (unwritten_buildAfter hrc n) (hasSource_buildAfter hrc n)
  · refine Memory.length_of_nonzero hlog (read_log_zero hrc) fun b hb => ?_
    obtain ⟨i, -, -, hi⟩ := exists_log hrc hb
    exact ⟨_, hi⟩
  · refine Memory.length_of_nonzero hinv (read_inv_zero rc) fun b hb => ?_
    obtain ⟨i, hi, rfl⟩ := exists_xtimes hrc hb
    exact ⟨_, read_inv hrc hi⟩

end Sys2Proof.Machine
end

section
/-! What a command's outcome rests on (R35, R39, R40, R124): a command that needs the tables makes a few reads, of `EXP_T` inside the table and of
`LOG_T` at nonzero elements, and then responds; any other responds at once. -/

namespace Sys2Proof.Machine

/-! ### The shape of a command -/

/-- The meanings made of reads of `EXP_T`, at an index below 256 under the legal group order, of reads of `LOG_T` at a nonzero element, and of one
response at the end. -/
inductive ReadsThenResponds : (State → Result) → Prop where
  | respond (r : Response) : ReadsThenResponds (respond r)
  | readExp (index : Nat → Nat) (hi : index 255 ≤ 255) {k : Byte → State → Result} (hk : ∀ v, ReadsThenResponds (k v)) :
      ReadsThenResponds fun s => withEntry .exp (index s.config.groupOrder) s fun v => k v s
  | readLog {a : Elem} (ha : a.byte ≠ 0) {k : Logarithm → State → Result} (hk : ∀ l, ReadsThenResponds (k l)) :
      ReadsThenResponds fun s => withLog a s fun l => k l s

/-- A test of the operands, before anything is read, decides between two such meanings (R35, R108). -/
theorem ReadsThenResponds.ite {c : Prop} [Decidable c] {f g : State → Result} (hf : c → ReadsThenResponds f)
    (hg : ¬ c → ReadsThenResponds g) : ReadsThenResponds fun s => if c then f s else g s := by
  by_cases h : c
  · simpa only [if_pos h] using hf h
  · simpa only [if_neg h] using hg h

/-- The element at an index of `EXP_T` as the response. -/
theorem ReadsThenResponds.respondExp (index : Nat → Nat) (hi : index 255 ≤ 255) :
    ReadsThenResponds fun s => withEntry .exp (index s.config.groupOrder) s fun v => respondElem ⟨v⟩ s :=
  .readExp index hi fun v => .respond (.value (.elem ⟨v⟩))

theorem byte_ne_zero_of_not_isZero {a : Elem} (h : ¬ isZero a = true) : a.byte ≠ 0 :=
  ne_of_beq_false (Bool.eq_false_iff.2 h)

theorem mod_255_le (n : Nat) : n % 255 ≤ 255 := (Nat.mod_lt n (by decide)).le

/-- What a command does once the tables are ensured: `LOG_T` is read only after the test for zero, and every index of `EXP_T` is inside the table
(R35, R77 to R83). -/
theorem exec_of_needsTables {i : Instr} (hi : needsTables i = true) :
    ∃ f, ReadsThenResponds f ∧ ∀ s, exec i s = afterTables s f := by
  cases i with
  | log a =>
    exact ⟨_, .ite (fun _ => .respond _) fun ha => .readLog (byte_ne_zero_of_not_isZero ha) fun _ => .respond _, fun _ => rfl⟩
  | xexp p => exact ⟨_, .respondExp (fun _ => p.byte.toNat) (Nat.lt_succ_iff.1 p.byte.isLt), fun _ => rfl⟩
  | exp a p =>
    exact ⟨_, .ite (fun _ => .respond _) fun ha => .readLog (byte_ne_zero_of_not_isZero ha) fun l =>
      .respondExp (expIndex · l p) (mod_255_le _), fun _ => rfl⟩
  | mul a b =>
    refine ⟨_, .ite (fun _ => .respond _) fun h => ?_, fun _ => rfl⟩
    obtain ⟨ha, hb⟩ := not_or.1 (mt Bool.or_eq_true_iff.2 h)
    exact .readLog (byte_ne_zero_of_not_isZero ha) fun la => .readLog (byte_ne_zero_of_not_isZero hb) fun lb =>
      .respondExp (mulIndex · la lb) (mod_255_le _)
  | div a b =>
    exact ⟨_, .ite (fun _ => .respond .divisionByZero) fun hb => .ite (fun _ => .respond _) fun ha =>
      .readLog (byte_ne_zero_of_not_isZero ha) fun la => .readLog (byte_ne_zero_of_not_isZero hb) fun lb =>
        .respondExp (divIndex · la lb) (mod_255_le _), fun _ => rfl⟩
  | inv a =>
    exact ⟨_, .ite (fun _ => .respond _) fun ha => .readLog (byte_ne_zero_of_not_isZero ha) fun l =>
      .respondExp (invIndex · l) (Nat.sub_le _ _), fun _ => rfl⟩
  | _ => cases hi

/-- The other commands respond at once, with a response that is the same in every state (R51, R68, R71 to R76). -/
theorem exec_of_not_needsTables {i : Instr} (hi : needsTables i = false) : ∃ r, ∀ s, exec i s = respond r s := by
  cases i with
  | zero => exact ⟨_, fun _ => rfl⟩
  | one => exact ⟨_, fun _ => rfl⟩
  | fromByte b => exact ⟨_, fun _ => rfl⟩
  | toByte x => exact ⟨_, fun _ => rfl⟩
  | add a b => exact ⟨_, fun _ => rfl⟩
  | sub a b => exact ⟨_, fun _ => rfl⟩
  | reserved op => exact ⟨_, fun _ => rfl⟩
  | _ => cases hi

/-! ### Entries no command reads -/

/-- `log[0]` and the whole of `INV_T` replaced. -/
def State.tampered (x : Byte) (m : Memory) (s : State) : State :=
  { s with tables := ⟨s.tables.expT, s.tables.logT.write 0 x, m⟩ }

/-- The same replacement in the next state a command gives. -/
def tamperedResult (x : Byte) (m : Memory) : Result → Result
  | .next t => .next (t.tampered x m)
  | .fault f => .fault f
  | .refused r => .refused r

theorem respond_tampered (r : Response) (x : Byte) (m : Memory) (s : State) :
    respond r (s.tampered x m) = tamperedResult x m (respond r s) := by
  rcases respond_cases r s with ⟨hp, e⟩ | ⟨hp, e⟩ <;> rw [e]
  · exact respond_eq (s := s.tampered x m) hp r
  · exact if_neg hp

/-- A read that gives the same before and after goes on alike. -/
theorem withEntry_tampered {T : TableId} {i : Nat} {x : Byte} {m : Memory} {s : State}
    (h : memRead T i (s.tampered x m) = memRead T i s) {k k' : Byte → Result} (hk : ∀ v, k' v = tamperedResult x m (k v)) :
    withEntry T i (s.tampered x m) k' = tamperedResult x m (withEntry T i s k) := by
  rw [withEntry, withEntry, h]
  cases memRead T i s with
  | some v => exact hk v
  | none => rfl

/-- A logarithm is read away from `log[0]` where its element is not zero (R35). -/
theorem memRead_log_tampered {a : Elem} (ha : a.byte ≠ 0) (x : Byte) (m : Memory) (s : State) :
    memRead .log a.byte.toNat (s.tampered x m) = memRead .log a.byte.toNat s := by
  have hne : a.byte.toNat ≠ 0 := fun e => ha (BitVec.eq_of_toNat_eq e)
  have hread : (s.tables.logT.write 0 x).read a.byte.toNat = s.tables.logT.read a.byte.toNat := Memory.read_write_of_ne _ _ hne
  exact congrArg (fun v => if s.tblValid then v else none) hread

/-- Such a meaning reads none of these entries: they are carried along (R35, R124). -/
theorem ReadsThenResponds.tampered {f : State → Result} (hf : ReadsThenResponds f) (x : Byte) (m : Memory) (s : State) :
    f (s.tampered x m) = tamperedResult x m (f s) := by
  induction hf with
  | respond r => exact respond_tampered r x m s
  | readExp index hi hk ih => exact withEntry_tampered rfl ih
  | readLog ha hk ih =>
    refine withEntry_tampered (memRead_log_tampered ha x m s) fun v => ?_
    cases logOf v with
    | some l => exact ih l
    | none => rfl

/-- Settles O48: once the tables exist, a command is a meaning that reads none of these entries. -/
theorem forbiddenEntriesAreNeverRead : Obligations.ForbiddenEntriesAreNeverRead := by
  intro i s x m hv
  show exec i (s.tampered x m) = tamperedResult x m (exec i s)
  cases hi : needsTables i with
  | true =>
    obtain ⟨f, hf, he⟩ := exec_of_needsTables hi
    have hv' : (s.tampered x m).tblValid = true := hv
    rw [he, he, afterTables_ready (ensureTables_of_valid hv), afterTables_ready (ensureTables_of_valid hv')]
    exact hf.tampered x m s
  | false =>
    obtain ⟨r, he⟩ := exec_of_not_needsTables hi
    rw [he, he]
    exact respond_tampered r x m s

/-! ### The response depends on the command and `RC` alone -/

/-- The tables of `Build()` for `rc` exist, under the legal group order. -/
structure State.HoldsTablesOf (s : State) (rc : Byte) : Prop where
  groupOrder : s.config.groupOrder = 255
  valid : s.tblValid = true
  built : s.tables = buildTables rc

theorem State.HoldsTablesOf.memRead_eq {s : State} {rc : Byte} (h : s.HoldsTablesOf rc) (T : TableId) (i : Nat) :
    memRead T i s = ((buildTables rc).get T).read i := by
  rw [memRead_of_valid h.valid, h.built]

/-- What `EnsureTables()` goes on with where existing tables are sound (R20, R66). -/
theorem State.TablesSound.holdsTablesOf {s u : State} (h : s.TablesSound) (hready : Machine.ensureTables s = .ready u) :
    u.HoldsTablesOf s.config.rc := by
  obtain ⟨⟨-, -, hgroup, -⟩, -, -⟩ := (Config.legal_iff s.config).1 h.legal
  rcases ensureTables_cases s with ⟨hv, e⟩ | ⟨-, -, -, e⟩ | ⟨-, -, -, e⟩ | ⟨b, -, -, -, e⟩ | ⟨b, -, -, -, e⟩ <;>
    rw [e] at hready <;> cases hready
  · exact ⟨hgroup, hv, h.tablesBuilt hv⟩
  · exact ⟨hgroup, build_tblValid s, build_tables s⟩

/-- In every state with the tables of a legal `RC` such a meaning comes to the same response: every entry it reads has a value (R39). -/
theorem ReadsThenResponds.responds {f : State → Result} (hf : ReadsThenResponds f) {rc : Byte} (hrc : rc ∈ Config.legalRcs) :
    ∃ r, ∀ u : State, u.HoldsTablesOf rc → f u = Machine.respond r u := by
  induction hf with
  | respond r => exact ⟨r, fun _ _ => rfl⟩
  | readExp index hi hk ih =>
    obtain ⟨r, hr⟩ := ih (xtimes rc (index 255) 1)
    refine ⟨r, fun u hu => (withEntry_some ?_ _).trans (hr u hu)⟩
    rw [hu.groupOrder, hu.memRead_eq]
    exact read_exp_legal hrc hi
  | readLog ha hk ih =>
    obtain ⟨j, hj, -, hlog⟩ := exists_log hrc ha
    obtain ⟨r, hr⟩ := ih ⟨⟨j, hj⟩⟩
    refine ⟨r, fun u hu => (withLog_some ?_ _).trans (hr u hu)⟩
    rw [hu.memRead_eq]
    exact hlog

/-- The response to a command where the tables are sound, whichever state it is answered in (R39, R40). -/
theorem exec_responds (i : Instr) {rc : Byte} (hrc : rc ∈ Config.legalRcs) :
    ∃ r, ∀ s u : State, s.TablesSound → s.config.rc = rc → ReadyFor i s u → exec i s = respond r u := by
  cases hi : needsTables i with
  | true =>
    obtain ⟨f, hf, he⟩ := exec_of_needsTables hi
    obtain ⟨r, hr⟩ := hf.responds hrc
    refine ⟨r, fun s u hs hsrc hready => ?_⟩
    rcases hready with ⟨hno, -⟩ | ⟨-, hready⟩
    · exact absurd (hno.symm.trans hi) Bool.false_ne_true
    · rw [he, afterTables_ready hready]
      exact hr u (hsrc ▸ hs.holdsTablesOf hready)
  | false =>
    obtain ⟨r, he⟩ := exec_of_not_needsTables hi
    refine ⟨r, fun s u _ _ hready => ?_⟩
    rw [hready.eq_of_nothing_to_build (.inl hi), he]

theorem answer_inj {q : Port} {r r' : Response} (h : q.answer r = q.answer r') : r = r' := by
  have hresponses : q.responses ++ [r] = q.responses ++ [r'] := congrArg Port.responses h
  exact List.singleton_inj.1 (List.append_cancel_left hresponses)

theorem answer_ne_self (q : Port) (r : Response) : q.answer r ≠ q := by
  intro h
  have hresponses : q.responses ++ [r] = q.responses := congrArg Port.responses h
  exact absurd (List.append_right_eq_self.1 hresponses) (List.cons_ne_nil _ _)

/-- An answer stands on the active port, the state otherwise ready for it (R55). -/
theorem ReadyFor.answered_port {i : Instr} {s u : State} (h : ReadyFor i s u) {q : Port} (hq : s.ports[s.active]? = some q)
    (r : Response) : (u.answered r).ports[s.active]? = some (q.answer r) := by
  obtain ⟨-, hports, -, hactive⟩ := h.frame
  rw [answered_ports, hports, hactive, List.getElem?_modify_eq, hq]
  rfl

theorem State.Available.tablesSound {s : State} (h : s.Available) : s.TablesSound := ⟨h.legal, h.tablesBuilt⟩

/-- An available state is ready for every command once the tables it needs are ensured (R66, R68). -/
theorem State.Available.readyFor {s : State} (h : s.Available) (i : Instr) : ∃ u, ReadyFor i s u := by
  cases hi : needsTables i with
  | true => exact ⟨_, .inr ⟨hi, ensureTables_available h⟩⟩
  | false => exact ⟨s, .inl ⟨hi, rfl⟩⟩

/-- A reply is the one response the command and `RC` determine (R40). -/
theorem RepliesWith.eq_of_responds {i : Instr} {s : State} {r r₀ : Response} (h : RepliesWith i s r)
    (hr₀ : ∀ u, ReadyFor i s u → exec i s = respond r₀ u) : r = r₀ := by
  obtain ⟨t, q, he, hq, ht⟩ := h
  rcases exec_next he with ⟨u, -, hready, -, -⟩ | ⟨-, hheld⟩
  · obtain rfl := respond_next ((hr₀ u hready).symm.trans he)
    rw [hready.answered_port hq, Option.some_inj] at ht
    exact (answer_inj ht).symm
  · obtain ⟨-, hports, -, -⟩ := ensureTables_frame s t (.inr hheld)
    rw [hports, hq, Option.some_inj] at ht
    exact absurd ht.symm (answer_ne_self q r)

/-- Settles O45: in sound states of one `RC` a reply is the one response of `exec_responds`, and an available state gets it. -/
theorem responseDependsOnCommandAndRcAlone : Obligations.ResponseDependsOnCommandAndRcAlone := by
  refine ⟨fun i s t r r' hs ht hrc h h' => ?_, fun i s h => ?_⟩
  · obtain ⟨-, hlegal, -⟩ := (Config.legal_iff s.config).1 hs.legal
    obtain ⟨r₀, hr₀⟩ := exec_responds i hlegal
    have hleft : r = r₀ := h.eq_of_responds fun u => hr₀ s u hs rfl
    have hright : r' = r₀ := h'.eq_of_responds fun u => hr₀ t u ht hrc.symm
    rw [hleft, hright]
  · obtain ⟨-, hlegal, -⟩ := (Config.legal_iff s.config).1 h.legal
    obtain ⟨r₀, hr₀⟩ := exec_responds i hlegal
    obtain ⟨u, hu⟩ := h.readyFor i
    obtain ⟨-, hports, -, hactive⟩ := hu.frame
    have hu' : u.HasActivePort := by
      rw [State.HasActivePort, hports, hactive]
      exact h.activePort
    have hq := List.getElem?_eq_getElem h.activePort
    exact ⟨r₀, _, _, (hr₀ s u h.tablesSound rfl hu).trans (respond_eq hu' r₀), hq, hu.answered_port hq r₀⟩

end Sys2Proof.Machine
end

section
/-! R28: what a step is made of keeps the table memories in canonical form, and the builder inside them. -/

namespace Sys2Proof.Machine

/-- The canonical form speaks of the number of entries, the tables and the builder alone. -/
theorem State.Canonical.congr {s t : State} (h : s.Canonical) (hc : t.config = s.config) (ht : t.tables = s.tables)
    (hb : t.builder = s.builder) : t.Canonical :=
  ⟨by rw [ht, hc]; exact h.tables, by rw [hb]; exact h.inRange⟩

/-- Without a builder, canonical tables are enough. -/
theorem State.Canonical.of_no_builder {s : State} (ht : s.tables.wf s.config.nEntries = true) (hb : s.builder = none) :
    s.Canonical :=
  ⟨ht, fun _ h => by cases hb.symm.trans h⟩

theorem Config.nEntries_of_legal {c : Config} (hc : c.legal = true) : c.nEntries = 256 := by
  obtain ⟨⟨-, hn, -, -⟩, -, -⟩ := (Config.legal_iff c).1 hc
  exact hn

/-- The tables a reset leaves fit the 256 entries of a legal configuration (R6, R27). -/
theorem resetTables_wf_of_legal {c : Config} (hc : c.legal = true) : (Config.resetTables c).wf c.nEntries = true := by
  rw [Config.nEntries_of_legal hc]
  exact resetTables_wf c

/-- The builder's turn: the publish step ends it, every other one is a write step inside the tables (R61). -/
theorem State.Canonical.advanceBuild {s : State} (h : s.Canonical) (hl : s.config.legal = true) {b : Builder}
    (hb : s.builder = some b) : (advanceBuild b s).Canonical := by
  have hn := Config.nEntries_of_legal hl
  by_cases hp : b.progress = .publish
  · obtain ⟨port, progress⟩ := b
    obtain rfl : progress = .publish := hp
    exact .of_no_builder h.tables rfl
  · obtain ⟨hrange, hwf⟩ := buildStep_wf s.config.rc (h.inRange b hb) (hn ▸ h.tables)
    rw [advanceBuild_write s hp]
    exact ⟨hn ▸ hwf, fun b' hb' => by cases hb'; exact hrange⟩

/-- Whatever `EnsureTables()` comes to is canonical (R66). -/
theorem State.Canonical.ensureTables {s t : State} (h : s.Canonical) (hl : s.config.legal = true)
    (ht : ensureTables s = .ready t ∨ ensureTables s = .held t) : t.Canonical := by
  rcases ensureTables_cases s with ⟨-, e⟩ | ⟨-, -, -, e⟩ | ⟨-, -, -, e⟩ | ⟨b, -, hb, -, e⟩ | ⟨b, -, -, -, e⟩ <;>
    rw [e] at ht <;> rcases ht with ht | ht <;> cases ht
  · exact h
  · exact .of_no_builder (by rw [build_tables, build_config, Config.nEntries_of_legal hl, buildTables_wf]) (build_builder s)
  · exact ⟨Tables.empty_wf _, fun b hb => by cases hb; rfl⟩
  · exact h.advanceBuild hl hb
  · exact h

/-- A command touches the tables and the builder through `EnsureTables()` alone (R68). -/
theorem State.Canonical.exec {i : Instr} {s t : State} (h : s.Canonical) (hl : s.config.legal = true)
    (he : exec i s = .next t) : t.Canonical := by
  rcases exec_next he with ⟨u, r, ⟨-, rfl⟩ | ⟨-, hready⟩, -, rfl⟩ | ⟨-, hheld⟩
  · exact h.congr rfl rfl rfl
  · exact (h.ensureTables hl (.inl hready)).congr rfl rfl rfl
  · exact h.ensureTables hl (.inr hheld)

/-- Settles O58: a reset leaves reset tables and no builder, and a turn changes the tables through its command alone. -/
theorem stepsKeepTheTablesCanonical : Obligations.StepsKeepTheTablesCanonical := by
  refine ⟨fun s t h hstep => ?_, fun c hc => .of_no_builder (resetTables_wf_of_legal hc) rfl⟩
  obtain ⟨hl, ⟨-, rfl⟩ | ⟨ts, -, rfl⟩ | ⟨p, ts, q, -, -, hturn⟩⟩ := step_next hstep
  · exact h
  · exact .of_no_builder (resetTables_wf_of_legal hl) rfl
  · have hcan : (s.turnOf p ts).Canonical := h.congr rfl rfl rfl
    rcases hturn with ⟨-, -, rfl⟩ | ⟨i, -, he⟩ | ⟨w, ws, -, -, he⟩
    · exact hcan
    · exact hcan.exec hl he
    · have htaken : ((s.turnOf p ts).taking (decodeCommand w) ws).Canonical := hcan.congr rfl rfl rfl
      exact htaken.exec hl he

end Sys2Proof.Machine
end

section
/-! The words on the wire: a command word is its three fields one above the other (R45), a response word its status above its result byte (R48). -/

namespace Sys2Proof

/-- As a number, one vector above another is their sum at their places. -/
theorem toNat_append_eq_add {m n : Nat} (x : BitVec m) (y : BitVec n) : (x ++ y).toNat = x.toNat * 2 ^ n + y.toNat := by
  rw [BitVec.toNat_append, ← Nat.shiftLeft_add_eq_or_of_lt y.isLt, Nat.shiftLeft_eq]

/-! ### Command words -/

@[simp] theorem opField_commandWord (op : BitVec 4) (a b : Byte) : opField (commandWord op a b) = op :=
  BitVec.extractLsb'_append_eq_left

@[simp] theorem fieldA_commandWord (op : BitVec 4) (a b : Byte) : fieldA (commandWord op a b) = a :=
  (BitVec.extractLsb'_append_eq_of_add_le (by decide)).trans BitVec.extractLsb'_append_eq_left

@[simp] theorem fieldB_commandWord (op : BitVec 4) (a b : Byte) : fieldB (commandWord op a b) = b :=
  (BitVec.extractLsb'_append_eq_of_add_le (by decide)).trans BitVec.extractLsb'_append_eq_right

/-- A word is the concatenation of its fields (R45). -/
@[simp] theorem commandWord_fields (w : CommandWord) : commandWord (opField w) (fieldA w) (fieldB w) = w := by
  have hlow : fieldA w ++ fieldB w = w.extractLsb' 0 16 := BitVec.extractLsb'_append_extractLsb'_eq_extractLsb' rfl
  have hall : opField w ++ w.extractLsb' 0 16 = w.extractLsb' 0 20 := BitVec.extractLsb'_append_extractLsb'_eq_extractLsb' rfl
  rw [commandWord, hlow, hall, BitVec.extractLsb'_eq_self]

theorem toNat_commandWord (op : BitVec 4) (a b : Byte) :
    (commandWord op a b).toNat = op.toNat * 65536 + a.toNat * 256 + b.toNat := by
  rw [commandWord, toNat_append_eq_add, toNat_append_eq_add, ← Nat.add_assoc]
  rfl

/-- Settles O1: the fields lie at bits 16, 8 and 0. -/
theorem commandWordIsOpThenAThenB : Obligations.CommandWordIsOpThenAThenB :=
  ⟨fun op a b => ⟨toNat_commandWord op a b, opField_commandWord op a b, fieldA_commandWord op a b, fieldB_commandWord op a b⟩,
    commandWord_fields⟩

/-! ### Response words -/

/-- Settles O8: the status stands above the eight bits of the byte, and each response has its own of both. -/
theorem responseWordIsStatusThenResult : Obligations.ResponseWordIsStatusThenResult := by
  refine ⟨fun r => ⟨BitVec.extractLsb'_append_eq_left, BitVec.extractLsb'_append_eq_right, toNat_append_eq_add _ _⟩,
    fun v => ⟨rfl, rfl⟩, ⟨rfl, rfl, rfl⟩, fun r hr => ?_⟩
  cases r with
  | value v => exact absurd rfl hr
  | absent => rfl
  | divisionByZero => rfl
  | illegal => rfl

end Sys2Proof
end

section
/-! The opcode map of R47 as a relation between the fields of a word and its command. The decoder computes it and the encoder writes fields it
relates, so what holds of each row holds of the decoder. -/

namespace Sys2Proof

/-- R47 with the operands of R46: `OpcodeMeans op a b i` when a word with these fields is the command `i`. -/
inductive OpcodeMeans : BitVec 4 → Byte → Byte → Instr → Prop where
  | zero (a b : Byte) : OpcodeMeans 0x0 a b .zero
  | one (a b : Byte) : OpcodeMeans 0x1 a b .one
  | fromByte (a b : Byte) : OpcodeMeans 0x2 a b (.fromByte a)
  | toByte (a b : Byte) : OpcodeMeans 0x3 a b (.toByte ⟨a⟩)
  | add (a b : Byte) : OpcodeMeans 0x4 a b (.add ⟨a⟩ ⟨b⟩)
  | sub (a b : Byte) : OpcodeMeans 0x5 a b (.sub ⟨a⟩ ⟨b⟩)
  | log (a b : Byte) : OpcodeMeans 0x6 a b (.log ⟨a⟩)
  | xexp (a b : Byte) : OpcodeMeans 0x7 a b (.xexp ⟨a⟩)
  | exp (a b : Byte) : OpcodeMeans 0x8 a b (.exp ⟨a⟩ ⟨b⟩)
  | mul (a b : Byte) : OpcodeMeans 0x9 a b (.mul ⟨a⟩ ⟨b⟩)
  | div (a b : Byte) : OpcodeMeans 0xA a b (.div ⟨a⟩ ⟨b⟩)
  | inv (a b : Byte) : OpcodeMeans 0xB a b (.inv ⟨a⟩)
  | reserved {op : BitVec 4} (h : 0xC ≤ op.toNat) (a b : Byte) : OpcodeMeans op a b (.reserved op)

/-- The row of a word is that of its command: the decoder reads `OP` and finds it. -/
theorem opcodeMeans_decodeCommand (w : CommandWord) : OpcodeMeans (opField w) (fieldA w) (fieldB w) (decodeCommand w) := by
  unfold decodeCommand
  generalize opField w = op, fieldA w = a, fieldB w = b
  obtain ⟨op⟩ := op
  fin_cases op
  exacts [.zero a b, .one a b, .fromByte a b, .toByte a b, .add a b, .sub a b, .log a b, .xexp a b, .exp a b, .mul a b, .div a b,
    .inv a b, .reserved (by decide) a b, .reserved (by decide) a b, .reserved (by decide) a b, .reserved (by decide) a b]

/-- And it is no other command's. -/
theorem decodeCommand_eq {w : CommandWord} {i : Instr} (h : OpcodeMeans (opField w) (fieldA w) (fieldB w) i) :
    decodeCommand w = i := by
  unfold decodeCommand
  generalize opField w = op, fieldA w = a, fieldB w = b at h ⊢
  cases h with
  | reserved h =>
    obtain rfl | rfl | rfl | rfl : op = 0xC ∨ op = 0xD ∨ op = 0xE ∨ op = 0xF := by revert op; decide
    all_goals rfl
  | _ => rfl

theorem decodeCommand_eq_of_op {w : CommandWord} {op : BitVec 4} {i : Instr} (hop : opField w = op)
    (h : OpcodeMeans op (fieldA w) (fieldB w) i) : decodeCommand w = i :=
  decodeCommand_eq (hop ▸ h)

/-- Every row's command is well-formed: the reserved row has no opcode below 0xC (R51). -/
theorem OpcodeMeans.wellFormed {op : BitVec 4} {a b : Byte} {i : Instr} (h : OpcodeMeans op a b i) : i.wellFormed = true := by
  cases h with
  | reserved h => exact decide_eq_true h
  | _ => rfl

/-- The encoder writes fields of the command's own row. -/
theorem opcodeMeans_encode {i : Instr} (hi : i.wellFormed = true) :
    OpcodeMeans (opField (encode i)) (fieldA (encode i)) (fieldB (encode i)) i := by
  cases i <;> simp only [encode, opField_commandWord, fieldA_commandWord, fieldB_commandWord]
  case reserved op => exact .reserved (of_decide_eq_true hi) 0 0
  all_goals constructor

/-- Every 20-bit word is a number the decoder accepts. -/
theorem decode_toNat (w : CommandWord) : decode w.toNat = .ok (decodeCommand w) := by
  rw [decode, if_pos w.isLt, BitVec.ofNat_toNat, BitVec.setWidth_eq]

/-- Settles O4: the encoding has fields of the command's row, and the decoder reads the row off the fields. -/
theorem decodingAnEncodingGivesTheCommand : Obligations.DecodingAnEncodingGivesTheCommand := by
  intro i hi
  have hdecode : decodeCommand (encode i) = i := decodeCommand_eq (opcodeMeans_encode hi)
  exact ⟨hdecode, by rw [decode_toNat, hdecode]⟩

/-- Settles O2: each clause is a row. -/
theorem everyWordDecodesByItsOpcode : Obligations.EveryWordDecodesByItsOpcode :=
  ⟨fun _ hn => if_neg hn.not_gt, fun w => ⟨(opcodeMeans_decodeCommand w).wellFormed, decode_toNat w,
    fun h => decodeCommand_eq_of_op h (.zero _ _),
    fun h => decodeCommand_eq_of_op h (.one _ _),
    fun h => decodeCommand_eq_of_op h (.fromByte _ _),
    fun h => decodeCommand_eq_of_op h (.toByte _ _),
    fun h => decodeCommand_eq_of_op h (.add _ _),
    fun h => decodeCommand_eq_of_op h (.sub _ _),
    fun h => decodeCommand_eq_of_op h (.log _ _),
    fun h => decodeCommand_eq_of_op h (.xexp _ _),
    fun h => decodeCommand_eq_of_op h (.exp _ _),
    fun h => decodeCommand_eq_of_op h (.mul _ _),
    fun h => decodeCommand_eq_of_op h (.div _ _),
    fun h => decodeCommand_eq_of_op h (.inv _ _),
    fun h => decodeCommand_eq (.reserved h _ _)⟩⟩

/-- Settles O6, by decoding each word. -/
theorem writtenOutWordsDecode : Obligations.WrittenOutWordsDecode := by
  unfold Obligations.WrittenOutWordsDecode
  decide

/-! ### Fields an operation does not use -/

/-- A row speaks of `A` and `B` only where its operation uses them (R46, R52). -/
theorem OpcodeMeans.congr {op : BitVec 4} {a b a' b' : Byte} {i : Instr} (h : OpcodeMeans op a b i)
    (ha : op.toNat ∈ [0x2, 0x3, 0x4, 0x5, 0x6, 0x7, 0x8, 0x9, 0xA, 0xB] → a = a')
    (hb : op.toNat ∈ [0x4, 0x5, 0x8, 0x9, 0xA] → b = b') : OpcodeMeans op a' b' i := by
  cases h with
  | zero => exact .zero a' b'
  | one => exact .one a' b'
  | reserved hop => exact .reserved hop a' b'
  | fromByte => exact ha (by decide) ▸ .fromByte a b'
  | toByte => exact ha (by decide) ▸ .toByte a b'
  | log => exact ha (by decide) ▸ .log a b'
  | xexp => exact ha (by decide) ▸ .xexp a b'
  | inv => exact ha (by decide) ▸ .inv a b'
  | add => exact ha (by decide) ▸ hb (by decide) ▸ .add a b
  | sub => exact ha (by decide) ▸ hb (by decide) ▸ .sub a b
  | exp => exact ha (by decide) ▸ hb (by decide) ▸ .exp a b
  | mul => exact ha (by decide) ▸ hb (by decide) ▸ .mul a b
  | div => exact ha (by decide) ▸ hb (by decide) ▸ .div a b

/-- Settles O5: the command of one word is in the row of the other. -/
theorem unusedFieldsDoNotMatter : Obligations.UnusedFieldsDoNotMatter := by
  intro w w' hop ha hb
  have hrow : OpcodeMeans (opField w) (fieldA w') (fieldB w') (decodeCommand w) := (opcodeMeans_decodeCommand w).congr ha hb
  exact (decodeCommand_eq (hop ▸ hrow)).symm

/-! ### The map as matches and masks -/

/-- Every command's encoding selects the row of its mnemonic (R47). -/
theorem encodedRow (i : Instr) : Laws.EncodedRow.Statement i := by
  cases i with
  | zero => exact Laws.EncodedRow.zero
  | one => exact Laws.EncodedRow.one
  | fromByte b => exact Laws.EncodedRow.fromByte b
  | toByte x => exact Laws.EncodedRow.toByte x
  | add a b => exact Laws.EncodedRow.add a b
  | sub a b => exact Laws.EncodedRow.sub a b
  | log a => exact Laws.EncodedRow.log a
  | xexp p => exact Laws.EncodedRow.xexp p
  | exp a p => exact Laws.EncodedRow.exp a p
  | mul a b => exact Laws.EncodedRow.mul a b
  | div a b => exact Laws.EncodedRow.div a b
  | inv a => exact Laws.EncodedRow.inv a
  | reserved op => exact Laws.EncodedRow.reserved op

/-- No mask reaches below `OP` (R47). -/
theorem mask_eq_op_mask : ∀ r ∈ opcodeMap, r.mask = opField r.mask ++ 0#16 := by decide

/-- `OP` alone decides whether a row is selected. -/
theorem selects_eq_of_op {r : OpcodeRow} (hr : r ∈ opcodeMap) {w w' : CommandWord} (h : opField w = opField w') :
    r.selects w = r.selects w' := by
  have hmask : ∀ v : CommandWord, v &&& r.mask = (opField v &&& opField r.mask) ++ 0#16 := fun v => by
    conv_lhs => rw [mask_eq_op_mask r hr, ← commandWord_fields v, commandWord, BitVec.and_append, BitVec.and_zero]
  rw [OpcodeRow.selects, OpcodeRow.selects, hmask, hmask, h]

/-- Each `OP` selects one row and no second. -/
theorem length_selected : ∀ op : BitVec 4, (opcodeMap.filter (·.selects (commandWord op 0 0))).length = 1 := by decide

/-- A word selects at most one row. -/
theorem eq_of_selects {w : CommandWord} {r r' : OpcodeRow} (hr : r ∈ opcodeMap) (hr' : r' ∈ opcodeMap)
    (h : r.selects w = true) (h' : r'.selects w = true) : r = r' := by
  obtain ⟨r₀, hr₀⟩ := List.length_eq_one_iff.1 (length_selected (opField w))
  have heq : ∀ q ∈ opcodeMap, q.selects w = true → q = r₀ := fun q hq hsel => by
    rw [selects_eq_of_op hq (opField_commandWord (opField w) 0 0).symm] at hsel
    exact List.mem_singleton.1 (hr₀ ▸ List.mem_filter.2 ⟨hq, hsel⟩)
  rw [heq r hr h, heq r' hr' h']

/-- Encoding a row's command again keeps the `OP`. -/
theorem OpcodeMeans.opField_encode {op : BitVec 4} {a b : Byte} {i : Instr} (h : OpcodeMeans op a b i) :
    opField (encode i) = op := by
  cases h <;> exact opField_commandWord _ _ _

/-- Settles O3: a word selects the row its command's encoding selects, since the two have the same `OP`. -/
theorem everyWordSelectsOneOpcodeRow : Obligations.EveryWordSelectsOneOpcodeRow := by
  intro w
  have hrow := opcodeMeans_decodeCommand w
  obtain ⟨r, hr, hmnemonic, hselects⟩ := encodedRow (decodeCommand w) hrow.wellFormed
  rw [selects_eq_of_op hr hrow.opField_encode] at hselects
  exact ⟨r, hr, hselects, hmnemonic, fun r' hr' h' => eq_of_selects hr' hr h' hselects⟩

end Sys2Proof
end

section
/-! What a turn does to the ports (R48, R55, R120): reserved commands, the turns that take no command, and the count of commands and responses. -/

namespace Sys2Proof.Machine

/-! ### Reserved commands -/

/-- A reserved command is answered at once: it calls no `EnsureTables()` (R51). -/
theorem exec_reserved (op : BitVec 4) {s : State} (h : s.HasActivePort) : exec (.reserved op) s = .next (s.answered .illegal) :=
  respond_eq h .illegal

/-- Settles O7: a word with a reserved `OP` is a reserved command. -/
theorem reservedOpcodesAnswerIllegal : Obligations.ReservedOpcodesAnswerIllegal := by
  refine ⟨fun w s hop hs => ?_, fun op s _ hs => exec_reserved op hs, rfl, rfl⟩
  rw [decodeCommand_eq (.reserved hop _ _)]
  exact exec_reserved _ hs

/-! ### Turns that take no command -/

/-- A port with a command in progress goes on with it (R55). -/
theorem step_goes_on {s : State} {p : Nat} {ts : List Turn} {q : Port} {i : Instr} (hl : s.config.legal = true)
    (hs : s.schedule = .port p :: ts) (hp : s.ports[p]? = some q) (hi : q.inProgress = some i) :
    step s = exec i (s.turnOf p ts) :=
  step_of_run (by simp only [fetch, hl, hs, hp, hi, if_true])

theorem step_idle {s : State} {p : Nat} {ts : List Turn} {q : Port} (hl : s.config.legal = true)
    (hs : s.schedule = .port p :: ts) (hp : s.ports[p]? = some q) (hi : q.inProgress = none) (hq : q.queue = []) :
    step s = .next (s.turnOf p ts) :=
  step_of_settled (by simp only [fetch, hl, hs, hp, hi, hq, if_true])

theorem step_of_no_turn {s : State} (hl : s.config.legal = true) (hs : s.schedule = []) : step s = .next s :=
  step_of_settled (by simp only [fetch, hl, hs, if_true])

theorem step_of_no_port {s : State} {p : Nat} {ts : List Turn} (hl : s.config.legal = true) (hs : s.schedule = .port p :: ts)
    (hp : s.ports.length ≤ p) : step s = .refused (.noSuchPort p) :=
  step_of_refused (by simp only [fetch, hl, hs, List.getElem?_eq_none hp, if_true])

theorem step_of_illegal {s : State} (hl : s.config.legal = false) : step s = .refused .illegalConfiguration :=
  step_of_refused (by simp only [fetch, hl, Bool.false_eq_true, if_false])

theorem step_reset {s : State} {ts : List Turn} (hl : s.config.legal = true) (hs : s.schedule = .reset :: ts) :
    step s = .next { resetEngine s with schedule := ts } :=
  step_of_settled (by simp only [fetch, hl, hs, if_true])

/-- Settles O51, a turn per clause. -/
theorem turnsThatTakeNoCommand : Obligations.TurnsThatTakeNoCommand := by
  refine ⟨fun s p ts q i => step_goes_on, fun s p ts q => step_idle, fun s => step_of_no_turn, fun s p ts => step_of_no_port,
    fun s hbad => step_of_illegal (Bool.eq_false_iff.2 fun hl => ?_), fun s t ts hl hs h => ?_⟩
  · obtain ⟨⟨hwidth, hentries, horder, hgen⟩, hrc, hports⟩ := (Config.legal_iff s.config).1 hl
    rcases hbad with h | h | h | h | h | h
    · exact h hrc
    · omega
    · exact h hwidth
    · exact h hentries
    · exact h horder
    · exact h hgen
  · cases (step_reset hl hs).symm.trans h
    exact ⟨rfl, rfl, List.length_map _, fun p q hp => by simp [hp, Port.abandon]⟩

/-! ### One response for each command -/

/-- What a turn may do to a port: it keeps the number of commands waiting, in progress and answered taken together, adds at most one response at the end,
and takes at most the oldest waiting command, when none is in progress (R48, R55). -/
def Port.Turned (q q' : Port) : Prop :=
  q'.queue.length + q'.inProgress.toList.length + q'.responses.length =
    q.queue.length + q.inProgress.toList.length + q.responses.length ∧
  (q'.responses = q.responses ∨ ∃ r, q'.responses = q.responses ++ [r]) ∧
  (q'.queue = q.queue ∨ ∃ w, q.queue = w :: q'.queue ∧ q.inProgress = none)

theorem Port.turned_refl (q : Port) : q.Turned q := ⟨rfl, .inl rfl, .inl rfl⟩

/-- The command in progress becomes the response. -/
theorem Port.turned_answered {q : Port} {i : Instr} (hi : q.inProgress = some i) (r : Response) :
    q.Turned ⟨q.queue, none, q.responses ++ [r]⟩ :=
  ⟨by simp +arith [hi], .inr ⟨r, rfl⟩, .inl rfl⟩

theorem Port.turned_taken {q : Port} {w : CommandWord} {ws : List CommandWord} (hi : q.inProgress = none) (hq : q.queue = w :: ws)
    (i : Instr) : q.Turned ⟨ws, some i, q.responses⟩ :=
  ⟨by simp [hi, hq], .inl rfl, .inr ⟨w, hq, hi⟩⟩

theorem Port.turned_taken_answered {q : Port} {w : CommandWord} {ws : List CommandWord} (hi : q.inProgress = none)
    (hq : q.queue = w :: ws) (r : Response) : q.Turned ⟨ws, none, q.responses ++ [r]⟩ :=
  ⟨by simp +arith [hi, hq], .inr ⟨r, rfl⟩, .inr ⟨w, hq, hi⟩⟩

/-- A command changes the port it runs on alone: it is held there, or answered. -/
theorem exec_port {i : Instr} {s t : State} (h : exec i s = .next t) {p : Nat} {q : Port} (hq : s.ports[p]? = some q) :
    t.ports[p]? = some q ∨ p = s.active ∧ ∃ r, t.ports[p]? = some ⟨q.queue, none, q.responses ++ [r]⟩ := by
  obtain ⟨-, -, -, -, hother, hactive, -⟩ := frameOfEveryCommand i s t h
  by_cases hp : p = s.active
  · subst hp
    rcases hactive with ⟨hports, -, -⟩ | ⟨q', r, hq', ht⟩
    · exact .inl (by rw [hports, hq])
    · cases hq.symm.trans hq'
      exact .inr ⟨rfl, r, ht⟩
  · exact .inl ((hother p hp).trans hq)

/-- Settles O53: a turn that is no reset takes a command, answers the one in progress, does both, or leaves the port as it is. -/
theorem everyCommandGetsExactlyOneResponse : Obligations.EveryCommandGetsExactlyOneResponse := by
  intro s t h hreset p q hq
  show ∃ q', t.ports[p]? = some q' ∧ q.Turned q'
  obtain ⟨-, ⟨-, rfl⟩ | ⟨ts, hs, -⟩ | ⟨a, ts, qa, -, hqa, ⟨-, -, rfl⟩ | ⟨i, hi, he⟩ | ⟨w, ws, hi, hqueue, he⟩⟩⟩ := step_next h
  · exact ⟨q, hq, q.turned_refl⟩
  · exact absurd (by rw [hs]; rfl) hreset
  · exact ⟨q, hq, q.turned_refl⟩
  · rcases exec_port (s := s.turnOf a ts) he hq with ht | ⟨rfl, r, ht⟩
    · exact ⟨q, ht, q.turned_refl⟩
    · cases hq.symm.trans hqa
      exact ⟨_, ht, Port.turned_answered hi r⟩
  · by_cases hp : p = a
    · subst hp
      cases hq.symm.trans hqa
      rcases exec_port he (taking_active_port (decodeCommand w) ws hq) with ht | ⟨-, r, ht⟩
      · exact ⟨_, ht, Port.turned_taken hi hqueue _⟩
      · exact ⟨_, ht, Port.turned_taken_answered hi hqueue r⟩
    · have hkept : ((s.turnOf a ts).taking (decodeCommand w) ws).ports[p]? = some q :=
        (List.getElem?_modify_ne _ _ (Ne.symm hp)).trans hq
      rcases exec_port he hkept with ht | ⟨hpa, -⟩
      · exact ⟨q, ht, q.turned_refl⟩
      · exact absurd hpa hp

end Sys2Proof.Machine
end

section
/-! The host's lines of text (R56, R58, D29), outside the engine: comments, mnemonics, literals and named results. -/

namespace Sys2Proof.Machine

/-! ### Lines of text -/

/-- What follows `;` is no part of a line (R56). -/
theorem withoutComment_append (line comment : List Char) :
    withoutComment (line ++ ';' :: comment) = withoutComment line := by
  induction line with
  | nil => rfl
  | cons c cs ih =>
    simp only [withoutComment, List.cons_append, List.takeWhile_cons] at ih ⊢
    rw [ih]

theorem assemble_comment (line comment : String) : assemble (line ++ ";" ++ comment) = assemble line := by
  have htext : (line ++ ";" ++ comment).toList = line.toList ++ ';' :: comment.toList := by simp
  rw [assemble, assemble, parseLine, parseLine, htext, withoutComment_append]

theorem isMnemonic_of_same_upper {m : String} {u v : List Char} (h : u.map Char.toUpper = v.map Char.toUpper) :
    isMnemonic m u = isMnemonic m v := by
  rw [isMnemonic, isMnemonic, h]

/-- Every byte has a hexadecimal and a decimal literal (R56). -/
theorem byteLiteral_toDigits : ∀ b : Byte,
    byteLiteral ('0' :: 'x' :: Nat.toDigits 16 b.toNat) = some b ∧ byteLiteral (Nat.toDigits 10 b.toNat) = some b := by
  decide +kernel

/-! ### Named results -/

/-- The response remembered last under a name is the one an operand of that name stands for (R58). -/
theorem operandByte_value (env : List (List Char × Response)) (name : List Char) (v : Value) :
    operandByte ((name, .value v) :: env) (.result name) = some v.wireByte := by
  simp [operandByte]

/-- A response that is no value has no byte to substitute (R50, R58). -/
theorem operandByte_of_status {r : Response} (hr : r.status ≠ 0) (env : List (List Char × Response)) (name : List Char) :
    operandByte ((name, r) :: env) (.result name) = none := by
  cases r with
  | value v => exact absurd rfl hr
  | absent => simp [operandByte]
  | divisionByZero => simp [operandByte]
  | illegal => simp [operandByte]

/-- The program goes on unless the last response stops it (R58, D29). -/
theorem nextWord_some (env : List (List Char × Response)) (r : Response) (line : HostLine) :
    nextWord env (some r) line = if stopsProgram r then none else lineWord env line := rfl

theorem stopsProgram_iff (r : Response) : stopsProgram r = true ↔ r = .divisionByZero ∨ r = .illegal := by
  cases r <;> simp [stopsProgram]

/-- Settles O60: the lines of R56 by running them, the rest for every line, byte and response. -/
theorem hostNotationGivesTheCommandWord : Obligations.HostNotationGivesTheCommandWord := by
  refine ⟨fun env n op a b => ⟨rfl, rfl, rfl⟩, by decide +kernel, by decide +kernel, by decide +kernel, byteLiteral_toDigits,
    fun m u v => isMnemonic_of_same_upper, assemble_comment, fun env name v => ?_, fun env line r => ?_⟩
  · exact ⟨operandByte_value env name v, operandByte_of_status (by decide) env name, operandByte_of_status (by decide) env name,
      operandByte_of_status (by decide) env name⟩
  · rw [nextWord_some]
    refine ⟨fun hr => if_pos ((stopsProgram_iff r).2 hr), fun hd hi => if_neg fun hstop => ?_, rfl⟩
    exact ((stopsProgram_iff r).1 hstop).elim hd hi

end Sys2Proof.Machine
end

section
/-! R59, R70: the multiply-by-x step bit by bit, what the built tables of every legal `RC` share, and that all other entries tell two legal
constants, 0x1D and 0x2D, apart. -/

namespace Sys2Proof.Machine

/-! ### The multiply-by-x step -/

/-- Every bit moves up one, and `RC` is added where bit 7 was set (R59). -/
theorem getLsbD_xtime (rc v : Byte) {k : Nat} (hk : k < 8) :
    (xtime rc v).getLsbD k = Bool.xor (decide (1 ≤ k) && v.getLsbD (k - 1)) (v.getLsbD 7 && rc.getLsbD k) := by
  have hshift : (v <<< 1).getLsbD k = (decide (1 ≤ k) && v.getLsbD (k - 1)) := by
    rw [BitVec.getLsbD_shiftLeft, decide_eq_true hk, Bool.true_and, ← decide_not]
    simp only [Nat.not_lt]
  rw [xtime]
  cases v.getLsbD 7 with
  | true => rw [if_pos rfl, BitVec.getLsbD_xor, hshift, Bool.true_and]
  | false => rw [if_neg Bool.false_ne_true, hshift, Bool.false_and, Bool.xor_false]

/-- A byte below 0x80 is doubled (R59). -/
theorem toNat_xtime_of_lt (rc : Byte) {v : Byte} (hv : v.toNat < 0x80) : (xtime rc v).toNat = 2 * v.toNat := by
  have hclear : v.getLsbD 7 = false := Nat.testBit_lt_two_pow hv
  rw [xtime_of_bit7_clear rc hclear, BitVec.toNat_shiftLeft, Nat.shiftLeft_eq]
  omega

/-- Settles O34: the shift is read bit by bit, and the reduction is the `RC` added at bit 7. -/
theorem xtimeMultipliesByX : Obligations.XtimeMultipliesByX :=
  ⟨fun rc v _ => getLsbD_xtime rc v, fun rc => ⟨xtime_zero rc, BitVec.zero_xor⟩, fun rc _ => toNat_xtime_of_lt rc,
    by decide⟩

/-! ### The last power of `x` -/

/-- The byte the spec gives for `exp[254]` closes the orbit, since bit 0 of a legal `RC` is 1 (R70). -/
theorem xtime_last_power : ∀ rc ∈ Config.legalRcs,
    rc.getLsbD 0 = true ∧ xtime rc (((0x01 ^^^ rc) >>> 1) ||| 0x80) = 0x01 := by decide +kernel

/-- Only the 254th power of `x` is taken to 0x01. -/
theorem xtimes_254_of_xtime_eq_one {rc : Byte} (h : rc ∈ Config.legalRcs) {v : Byte} (hv : xtime rc v = 1) :
    xtimes rc 254 1 = v := by
  have hne : v ≠ 0 := by
    rintro rfl
    exact absurd ((xtime_zero rc).symm.trans hv) (by decide)
  obtain ⟨i, hi, rfl⟩ := exists_xtimes h hne
  have hmod : (i + 1) % 255 = 0 % 255 := (xtimes_eq_iff h (i + 1) 0).1 hv
  rw [show i = 254 by omega]

/-- `exp[254] = ((0x01 ^ RC) >> 1) | 0x80` (R70). -/
theorem read_exp_254 {rc : Byte} (h : rc ∈ Config.legalRcs) :
    (buildTables rc).expT.read 254 = some (((0x01 ^^^ rc) >>> 1) ||| 0x80) := by
  obtain ⟨-, hlast⟩ := xtime_last_power rc h
  rw [read_exp rc (by decide), xtimes_254_of_xtime_eq_one h hlast]

/-- `inv[0x02] = exp[254]` (R70). -/
theorem read_inv_two {rc : Byte} (h : rc ∈ Config.legalRcs) :
    (buildTables rc).invT.read 2 = (buildTables rc).expT.read 254 := by
  have hinv := read_inv h (i := 1) (by decide)
  rw [xtimes_two_pow rc (by decide)] at hinv
  exact hinv.trans (read_exp rc (by decide)).symm

/-! ### Entries that depend on `RC` -/

/-- From `x^8` on, where reduction begins, the powers of `x` under 0x1D and under 0x2D differ. -/
theorem xtimes_ne_of_eight_le : ∀ i < 255, 8 ≤ i → xtimes 0x1D i 1 ≠ xtimes 0x2D i 1 := by decide +kernel

/-- The inverse of a byte under 0x1D is not its inverse under 0x2D, unless the byte is 0x01. -/
theorem clmul_inverse_ne_one : ∀ i < 255, 1 ≤ i →
    clmul 0x2D (xtimes 0x1D i 1) (xtimes 0x1D ((255 - i) % 255) 1) ≠ 1 := by decide +kernel

theorem mem_legalRcs_1D : (0x1D : Byte) ∈ Config.legalRcs := by decide

theorem mem_legalRcs_2D : (0x2D : Byte) ∈ Config.legalRcs := by decide

theorem read_exp_ne {i : Nat} (h8 : 8 ≤ i) (hi : i < 255) :
    (buildTables 0x1D).expT.read i ≠ (buildTables 0x2D).expT.read i := by
  rw [read_exp _ hi, read_exp _ hi]
  exact fun e => xtimes_ne_of_eight_le i hi h8 (Option.some.inj e)

/-- An exponent that is the logarithm of `v` under both constants needs no reduction, so `v` is a power of two. -/
theorem read_log_ne {v : Nat} (h1 : 1 ≤ v) (hv : v ≤ 255) (hpow : v ∉ [1, 2, 4, 8, 16, 32, 64, 128]) :
    (buildTables 0x1D).logT.read v ≠ (buildTables 0x2D).logT.read v := by
  obtain ⟨b, hb, rfl⟩ := exists_nonzero_byte h1 (Nat.lt_succ_of_le hv)
  obtain ⟨i, hi, hbi, hlog⟩ := exists_log mem_legalRcs_1D hb
  intro e
  have hbi' : b = xtimes 0x2D i 1 := eq_xtimes_of_read_log mem_legalRcs_2D hi (e.symm.trans hlog)
  have hi8 : i < 8 := Nat.lt_of_not_le fun h8 => xtimes_ne_of_eight_le i hi h8 (hbi.trans hbi')
  have powers : ∀ i < 8, (BitVec.ofNat 8 (2 ^ i)).toNat ∈ [1, 2, 4, 8, 16, 32, 64, 128] := by decide
  rw [← hbi, xtimes_two_pow _ (Nat.le_of_lt_succ hi8)] at hpow
  exact hpow (powers i hi8)

/-- A byte in `inv[v]` under both constants would be the inverse of `v` under both. -/
theorem read_inv_ne {v : Nat} (h2 : 2 ≤ v) (hv : v ≤ 255) :
    (buildTables 0x1D).invT.read v ≠ (buildTables 0x2D).invT.read v := by
  obtain ⟨b, hb, rfl⟩ := exists_nonzero_byte (Nat.le_of_succ_le h2) (Nat.lt_succ_of_le hv)
  obtain ⟨i, hi, hbi⟩ := exists_xtimes mem_legalRcs_1D hb
  obtain ⟨j, hj, hbj⟩ := exists_xtimes mem_legalRcs_2D hb
  have hi1 : 1 ≤ i := Nat.pos_of_ne_zero fun hi0 => by
    rw [← hbi, hi0] at h2
    exact absurd h2 (by decide)
  intro e
  have hinv := read_inv mem_legalRcs_1D hi
  rw [hbi, e, ← hbj, read_inv mem_legalRcs_2D hj, Option.some_inj] at hinv
  refine clmul_inverse_ne_one i hi hi1 ?_
  rw [hbi, ← hbj, ← hinv, clmul_xtimes]
  exact xtimes_add_inverse mem_legalRcs_2D hj

/-- Settles O41: the shared entries are powers of `x` below the first reduction, `x^8`, and what follows from the closed orbit; 0x1D and 0x2D differ
in all others. -/
theorem tableFactsSharedByEveryReductionConstant : Obligations.TableFactsSharedByEveryReductionConstant := by
  refine ⟨fun rc h => ?_, read_exp_254 mem_legalRcs_1D,
    fun i h8 hi => ⟨_, mem_legalRcs_1D, _, mem_legalRcs_2D, read_exp_ne h8 (Nat.lt_succ_of_le hi)⟩,
    fun v h1 hv hpow => ⟨_, mem_legalRcs_1D, _, mem_legalRcs_2D, read_log_ne h1 hv hpow⟩,
    fun v h2 hv => ⟨_, mem_legalRcs_1D, _, mem_legalRcs_2D, read_inv_ne h2 hv⟩⟩
  obtain ⟨hodd, hlast⟩ := xtime_last_power rc h
  refine ⟨fun i hi => ⟨?_, read_log_two_pow h hi⟩, ?_, ?_, (read_inv_two h).symm, read_exp_254 h, hlast, hodd,
    read_exp_255 rc, read_log_rc h, read_inv h (i := 0) (by decide)⟩
  · rw [read_exp rc (by omega), xtimes_two_pow rc hi]
  · rw [read_exp rc (by decide), xtimes_eight]
  · rw [read_exp rc (by decide), xtimes_succ, xtimes_eight]

end Sys2Proof.Machine
end

section
/-! R66, R68: which commands ensure the tables, and what `EnsureTables()` comes to for them. -/

namespace Sys2Proof.Machine

/-! ### EnsureTables -/

/-- Under the atomic grain missing tables are built at once (R26, R66). -/
theorem ensureTables_of_atomic {s : State} (hv : s.tblValid = false) (hb : s.builder = none)
    (hg : s.config.grain = .atomic) : ensureTables s = .ready (build s) := by
  simp only [ensureTables, hv, hb, hg, Bool.false_eq_true, if_false]

/-- Under the stepwise grain the first command wins the guard (R26, R66). -/
theorem ensureTables_of_stepwise {s : State} (hv : s.tblValid = false) (hb : s.builder = none)
    (hg : s.config.grain = .stepwise) : ensureTables s = .held (claimBuild s) := by
  simp only [ensureTables, hv, hb, hg, Bool.false_eq_true, if_false]

/-- The builder's own turn carries construction on (R66). -/
theorem ensureTables_of_builder {s : State} {b : Builder} (hv : s.tblValid = false) (hb : s.builder = some b)
    (hp : b.port = s.active) : ensureTables s = .held (advanceBuild b s) := by
  simp only [ensureTables, hv, hb, hp, Bool.false_eq_true, if_false, if_true]

/-- Every other port waits for the builder (R66). -/
theorem ensureTables_of_other_builder {s : State} {b : Builder} (hv : s.tblValid = false) (hb : s.builder = some b)
    (hp : b.port ≠ s.active) : ensureTables s = .held s := by
  simp only [ensureTables, hv, hb, hp, Bool.false_eq_true, if_false]

/-- Settles O43: a command that needs the tables does what `EnsureTables()` comes to. -/
theorem ensureTablesBuildsOrHolds : Obligations.EnsureTablesBuildsOrHolds := fun _ _ hi hv =>
  ⟨fun hb hg => exec_ready hi (ensureTables_of_atomic hv hb hg), fun hb hg => exec_held hi (ensureTables_of_stepwise hv hb hg),
    fun _ hb hp => exec_held hi (ensureTables_of_builder hv hb hp),
    fun _ hb hp => exec_held hi (ensureTables_of_other_builder hv hb hp)⟩

/-! ### The commands that ensure the tables -/

/-- The six operations of R68. -/
theorem needsTables_iff (i : Instr) : needsTables i = true ↔
    (∃ a, i = .log a) ∨ (∃ p, i = .xexp p) ∨ (∃ a p, i = .exp a p) ∨ (∃ a b, i = .mul a b) ∨ (∃ a b, i = .div a b) ∨
      ∃ a, i = .inv a := by
  constructor
  · intro h
    cases i with
    | log a => exact .inl ⟨a, rfl⟩
    | xexp p => exact .inr (.inl ⟨p, rfl⟩)
    | exp a p => exact .inr (.inr (.inl ⟨a, p, rfl⟩))
    | mul a b => exact .inr (.inr (.inr (.inl ⟨a, b, rfl⟩)))
    | div a b => exact .inr (.inr (.inr (.inr (.inl ⟨a, b, rfl⟩))))
    | inv a => exact .inr (.inr (.inr (.inr (.inr ⟨a, rfl⟩))))
    | _ => cases h
  · rintro (⟨a, rfl⟩ | ⟨p, rfl⟩ | ⟨a, p, rfl⟩ | ⟨a, b, rfl⟩ | ⟨a, b, rfl⟩ | ⟨a, rfl⟩) <;> rfl

/-- The state an available command is answered in: the one with the tables if it needs them (R68). -/
theorem ReadyFor.eq_ensuredFor {i : Instr} {s u : State} (h : ReadyFor i s u) (hs : s.Available) : u = s.ensuredFor i := by
  rcases h with ⟨hi, rfl⟩ | ⟨hi, hready⟩
  · simp only [State.ensuredFor, hi, Bool.false_eq_true, if_false]
  · rw [ensureTables_available hs] at hready
    cases hready
    simp only [State.ensuredFor, hi, if_true]

/-- An available command is answered, with nothing else changed than the tables it needs. -/
theorem State.Available.exec_answered {s : State} (h : s.Available) (i : Instr) :
    ∃ r, exec i s = .next ((s.ensuredFor i).answered r) := by
  obtain ⟨-, hlegal, -⟩ := (Config.legal_iff s.config).1 h.legal
  obtain ⟨r, hr⟩ := exec_responds i hlegal
  obtain ⟨u, hu⟩ := h.readyFor i
  obtain ⟨-, hports, -, hactive⟩ := hu.frame
  have hport : u.HasActivePort := by
    rw [State.HasActivePort, hports, hactive]
    exact h.activePort
  refine ⟨r, ?_⟩
  rw [← hu.eq_ensuredFor h, hr s u h.tablesSound rfl hu, respond_eq hport]

/-- Settles O44: an available command is answered in the state its operation ensures, and a command that needs no table responds at once. -/
theorem exactlySixCommandsEnsureTheTables : Obligations.ExactlySixCommandsEnsureTheTables := by
  refine ⟨needsTables_iff, fun i s h => ?_, fun i s hi hport => ?_⟩
  · obtain ⟨r, hr⟩ := h.exec_answered i
    refine ⟨_, hr, ?_⟩
    rw [answered_tblValid, answered_tables]
    cases hi : needsTables i with
    | true => simp only [State.ensuredFor, hi, if_true, withTables_tblValid, Available_withTables_tables h, Bool.or_true, and_self]
    | false => simp only [State.ensuredFor, hi, Bool.false_eq_true, if_false, Bool.or_false, and_self]
  · obtain ⟨r, hr⟩ := exec_of_not_needsTables hi
    exact ⟨r, (hr s).trans (respond_eq hport r)⟩

end Sys2Proof.Machine
end

section
/-! The value operations (R71 to R74): each answers at once, `ZERO` and `ONE` with the identities of `ADD` and `MUL` (R75, R80). -/

namespace Sys2Proof.Machine

/-! ### The answers of the value operations -/

theorem exec_zero {s : State} (h : s.HasActivePort) : exec .zero s = .next (s.answered (.value (.elem ⟨0x00⟩))) :=
  respond_eq h _

theorem exec_one {s : State} (h : s.HasActivePort) : exec .one s = .next (s.answered (.value (.elem ⟨0x01⟩))) :=
  respond_eq h _

theorem exec_fromByte {s : State} (h : s.HasActivePort) (b : Byte) :
    exec (.fromByte b) s = .next (s.answered (.value (.elem ⟨b⟩))) :=
  respond_eq h _

theorem exec_toByte {s : State} (h : s.HasActivePort) (x : Elem) :
    exec (.toByte x) s = .next (s.answered (.value (.byte x.byte))) :=
  respond_eq h _

/-! ### Round trips -/

/-- `from_byte(to_byte(x)) = x`: the byte of an element names it (R73). -/
theorem fromByte_toByte_answers {s : State} (h : s.HasActivePort) (x : Elem) :
    ∃ b, Answers (.toByte x) s (.value (.byte b)) ∧ Answers (.fromByte b) s (.value (.elem x)) :=
  ⟨x.byte, exec_toByte h x, exec_fromByte h x.byte⟩

/-- `to_byte(from_byte(b)) = b` (R74, R96). -/
theorem toByte_fromByte_answers {s : State} (h : s.HasActivePort) (b : Byte) :
    ∃ x, Answers (.fromByte b) s (.value (.elem x)) ∧ Answers (.toByte x) s (.value (.byte b)) :=
  ⟨⟨b⟩, exec_fromByte h b, exec_toByte h ⟨b⟩⟩

/-! ### The identities and the absorbing zero -/

/-- `ADD` answers the XOR of its operands (R75). -/
theorem add_gives {s : State} (h : s.HasActivePort) (a b : Elem) : Gives (.add a b) s (elemXor a b) :=
  respond_eq h _

@[simp] theorem elemXor_zero_right (a : Elem) : elemXor a ⟨0x00⟩ = a :=
  congrArg Elem.mk BitVec.xor_zero

theorem add_zero_gives {s : State} (h : s.HasActivePort) (a : Elem) : Gives (.add a ⟨0x00⟩) s a := by
  have hadd := add_gives h a ⟨0x00⟩
  rwa [elemXor_zero_right] at hadd

/-- `MUL` with a zero operand answers zero, before it reads a table (R35, R80). -/
theorem mul_gives_zero {s : State} (h : s.Available) {a b : Elem} (hab : a.byte = 0x00 ∨ b.byte = 0x00) :
    Gives (.mul a b) s ⟨0x00⟩ := by
  have hzero : (isZero a || isZero b) = true := by
    rw [Bool.or_eq_true, isZero, isZero, beq_iff_eq, beq_iff_eq]
    exact hab
  show afterTables s _ = .next (s.withTables.answered _)
  rw [afterTables_available h, if_pos hzero]
  exact respond_eq (Available_hasActivePort_withTables h) _

/-- 0x01 is the power of `x` with exponent 0, which adds nothing to the other factor's exponent (R72, R80). -/
theorem mul_one_gives {s : State} (h : s.Available) (a : Elem) : Gives (.mul a ⟨0x01⟩) s a := by
  obtain ⟨v⟩ := a
  by_cases hv : v = 0x00
  · subst hv
    exact mul_gives_zero h (.inl rfl)
  · obtain ⟨-, hrc, -⟩ := (Config.legal_iff s.config).1 h.legal
    obtain ⟨i, hi, rfl⟩ := exists_xtimes hrc hv
    exact mul_xtimes_gives h hi (j := 0) (by decide)

/-! ### The statements -/

/-- Settles O10: `ZERO` answers the element that the XOR leaves out and that `MUL` tests for first. -/
theorem zeroAnswersTheAdditiveIdentity : Obligations.ZeroAnswersTheAdditiveIdentity :=
  ⟨fun _ hop => decodeCommand_eq_of_op hop (.zero _ _), fun _ hs => exec_zero hs,
    fun _ a hs => ⟨add_zero_gives hs.activePort a, mul_gives_zero hs (.inr rfl)⟩, rfl, rfl, rfl⟩

/-- Settles O11: `ONE` answers the zeroth power of `x`. -/
theorem oneAnswersTheMultiplicativeIdentity : Obligations.OneAnswersTheMultiplicativeIdentity :=
  ⟨fun _ hop => decodeCommand_eq_of_op hop (.one _ _), fun _ hs => exec_one hs,
    fun rc => ⟨read_exp rc (by decide), read_exp_255 rc⟩, fun _ a hs => mul_one_gives hs a, rfl, rfl⟩

/-- Settles O12: the answer is the operand byte as an element, in every state. -/
theorem fromByteAnswersTheElementOfTheByte : Obligations.FromByteAnswersTheElementOfTheByte :=
  ⟨fun _ hop => decodeCommand_eq_of_op hop (.fromByte _ _), fun _ b hs => exec_fromByte hs b, rfl, rfl,
    fun _ x hs => fromByte_toByte_answers hs x, rfl, rfl⟩

/-- Settles O13: the answer is the byte of the operand; an element and its byte are the same result byte on the wire. -/
theorem toByteAnswersTheByteOfTheElement : Obligations.ToByteAnswersTheByteOfTheElement :=
  ⟨fun _ hop => decodeCommand_eq_of_op hop (.toByte _ _), fun _ x hs => exec_toByte hs x,
    fun _ x hs => fromByte_toByte_answers hs x, fun _ b hs => toByte_fromByte_answers hs b, fun _ => rfl, rfl, rfl⟩

end Sys2Proof.Machine
end

section
/-! The additive operations (R75, R76, R86): both answer the XOR of the operands, so their laws are the laws of the XOR. -/

namespace Sys2Proof.Machine

/-! ### The XOR of elements -/

/-- Each bit of the XOR depends on the two bits at its place alone: no carry and no reduction (R75). -/
theorem getLsbD_elemXor (a b : Elem) (k : Nat) :
    (elemXor a b).byte.getLsbD k = Bool.xor (a.byte.getLsbD k) (b.byte.getLsbD k) :=
  BitVec.getLsbD_xor

theorem elemXor_comm (a b : Elem) : elemXor a b = elemXor b a :=
  congrArg Elem.mk (BitVec.xor_comm a.byte b.byte)

theorem elemXor_assoc (a b c : Elem) : elemXor (elemXor a b) c = elemXor a (elemXor b c) :=
  congrArg Elem.mk (BitVec.xor_assoc a.byte b.byte c.byte)

@[simp] theorem elemXor_self (a : Elem) : elemXor a a = ⟨0x00⟩ :=
  congrArg Elem.mk BitVec.xor_self

@[simp] theorem elemXor_zero_left (b : Elem) : elemXor ⟨0x00⟩ b = b :=
  congrArg Elem.mk BitVec.zero_xor

@[simp] theorem elemXor_ones_right (a : Elem) : elemXor a ⟨0xFF⟩ = ⟨~~~a.byte⟩ :=
  congrArg Elem.mk BitVec.xor_allOnes

/-- Adding a summand to the sum cancels it, since it is its own additive inverse (R86). -/
@[simp] theorem elemXor_cancel_right (a b : Elem) : elemXor (elemXor a b) b = a := by
  rw [elemXor_assoc, elemXor_self, elemXor_zero_right]

@[simp] theorem elemXor_cancel_left (a b : Elem) : elemXor (elemXor a b) a = b := by
  rw [elemXor_comm a b, elemXor_cancel_right]

/-! ### The answers of the additive operations -/

/-- `SUB` answers the XOR of its operands (R76). -/
theorem sub_gives {s : State} (h : s.HasActivePort) (a b : Elem) : Gives (.sub a b) s (elemXor a b) :=
  respond_eq h _

theorem add_gives_of_eq {s : State} (h : s.HasActivePort) {a b x : Elem} (hx : elemXor a b = x) : Gives (.add a b) s x :=
  hx ▸ add_gives h a b

theorem sub_gives_of_eq {s : State} (h : s.HasActivePort) {a b x : Elem} (hx : elemXor a b = x) : Gives (.sub a b) s x :=
  hx ▸ sub_gives h a b

/-! ### The statements -/

/-- Settles O14: `ADD` answers the XOR, and each law of addition is the law of the XOR. -/
theorem addAnswersTheXor : Obligations.AddAnswersTheXor := by
  refine ⟨fun _ hop => decodeCommand_eq_of_op hop (.add _ _),
    fun _ a b hs => ⟨(elemXor a b).byte, add_gives hs a b, fun k _ => getLsbD_elemXor a b k⟩,
    fun _ a b c hs => ⟨?commutative, ?associative, ?selfInverse, add_zero_gives hs a, ?complement⟩, rfl,
    fun _ hs => add_gives hs ⟨0x05⟩ ⟨0xAB⟩, rfl⟩
  case commutative => exact ⟨_, add_gives hs a b, add_gives_of_eq hs (elemXor_comm b a)⟩
  case associative =>
    exact ⟨_, _, _, add_gives hs a b, add_gives hs _ c, add_gives hs b c, add_gives_of_eq hs (elemXor_assoc a b c).symm⟩
  case selfInverse => exact add_gives_of_eq hs (elemXor_self a)
  case complement => exact add_gives_of_eq hs (elemXor_ones_right a)

/-- Settles O15: `SUB` answers the XOR as `ADD` does, and the XOR with a summand cancels it. -/
theorem subAnswersTheXor : Obligations.SubAnswersTheXor := by
  refine ⟨fun _ hop => decodeCommand_eq_of_op hop (.sub _ _),
    fun _ a b hs => ⟨(elemXor a b).byte, sub_gives hs a b, fun k _ => getLsbD_elemXor a b k, ?symmetric, add_gives hs a b⟩,
    fun _ a b hs => ⟨?fromZero, ?selfInverse, elemXor a b, add_gives hs a b, ?recoverRight, ?recoverLeft⟩, rfl,
    fun _ hs => sub_gives hs ⟨0xAE⟩ ⟨0x05⟩, rfl⟩
  case symmetric => exact sub_gives_of_eq hs (elemXor_comm b a)
  case fromZero => exact sub_gives_of_eq hs (elemXor_zero_left b)
  case selfInverse => exact sub_gives_of_eq hs (elemXor_self a)
  case recoverRight => exact sub_gives_of_eq hs (elemXor_cancel_left a b)
  case recoverLeft => exact sub_gives_of_eq hs (elemXor_cancel_right a b)

end Sys2Proof.Machine
end

section
/-! The logarithm and exponentiation operations (R77 to R79): with the tables ensured, every nonzero element is a power of `x`, `LOG` answers its
exponent, `XEXP` the power at the operand and `EXP` the power at the product of the two. -/

namespace Sys2Proof.Machine

/-! ### Powers of `x` -/

/-- Under 0x1D the power of `x` at 25 is 0x03 (R77, R78). -/
theorem xtimes_1D_25 : xtimes 0x1D 25 1 = 0x03 := by decide +kernel

theorem State.Available.rc_legal {s : State} (h : s.Available) : s.config.rc ∈ Config.legalRcs := by
  obtain ⟨-, hrc, -⟩ := (Config.legal_iff s.config).1 h.legal
  exact hrc

theorem State.Available.gen_eq {s : State} (h : s.Available) : s.config.gen = 0x02 := by
  obtain ⟨⟨-, -, -, hgen⟩, -, -⟩ := (Config.legal_iff s.config).1 h.legal
  exact hgen

/-- A nonzero element is a power of `x`, with an exponent in 0..254 (R7, R16). -/
theorem State.Available.exists_power {s : State} (h : s.Available) {a : Elem} (ha : a.byte ≠ 0x00) :
    ∃ i, i < 255 ∧ a = ⟨xtimes s.config.rc i 1⟩ := by
  obtain ⟨i, hi, e⟩ := exists_xtimes h.rc_legal ha
  exact ⟨i, hi, congrArg Elem.mk e.symm⟩

@[simp] theorem isZero_zero : isZero ⟨0x00⟩ = true := rfl

/-- The zero test fails on a power of `x` (R35). -/
theorem not_isZero_power {s : State} (h : s.Available) (i : Nat) : ¬ isZero ⟨xtimes s.config.rc i 1⟩ = true := fun e =>
  xtimes_ne_zero h.rc_legal i (eq_of_beq e)

/-! ### Reads of the ensured tables -/

/-- The group order the operations reduce by (R6). -/
theorem State.Available.withTables_groupOrder {s : State} (h : s.Available) : s.withTables.config.groupOrder = 255 := by
  obtain ⟨⟨-, -, hgroup, -⟩, -, -⟩ := (Config.legal_iff s.config).1 h.legal
  rw [withTables_config, hgroup]

/-- `exp[n]` is the power of `x` at `n`, the duplicate at 255 included (R15). -/
theorem memRead_exp_power {s : State} (h : s.Available) {n : Nat} (hn : n ≤ 255) :
    memRead .exp n s.withTables = some (xtimes s.config.rc n 1) := by
  rw [memRead_withTables h]
  exact read_exp_legal h.rc_legal hn

/-- An index reduced by the group order holds the power at the unreduced exponent (R29, R83). -/
theorem memRead_exp_mod {s : State} (h : s.Available) (n : Nat) :
    memRead .exp (n % 255) s.withTables = some (xtimes s.config.rc n 1) := by
  rw [memRead_exp_power h (mod_255_le n), xtimes_mod h.rc_legal]

/-- `log` of the power of `x` at `i` is `i` (R16). -/
theorem memRead_log_power {s : State} (h : s.Available) {i : Nat} (hi : i < 255) :
    memRead .log (xtimes s.config.rc i 1).toNat s.withTables = some (logByte ⟨⟨i, hi⟩⟩) := by
  rw [memRead_withTables h]
  exact read_log h.rc_legal hi

/-- A command answered once the tables are ensured (R68). -/
theorem respond_withTables {s : State} (h : s.Available) (r : Response) :
    respond r s.withTables = .next (s.withTables.answered r) :=
  respond_eq (Available_hasActivePort_withTables h) r

/-! ### The answer is unique -/

/-- The state after an answer tells which answer it was. -/
theorem answered_inj {s : State} (h : s.HasActivePort) {r r' : Response} (e : s.answered r = s.answered r') : r = r' := by
  have hports : s.ports.modify s.active (·.answer r) = s.ports.modify s.active (·.answer r') := congrArg State.ports e
  have hport := congrArg (·[s.active]?) hports
  simp only [List.getElem?_modify_eq, List.getElem?_eq_getElem h, Option.map_eq_map, Option.map_some, Option.some_inj] at hport
  exact answer_inj hport

/-! ### LOG -/

/-- `LOG` of zero is absent: the zero test comes before the read (R77). -/
theorem log_zero_answers {s : State} (h : s.Available) : Answers (.log ⟨0x00⟩) s .absent := by
  show afterTables s _ = .next (s.withTables.answered _)
  rw [afterTables_available h, if_pos isZero_zero]
  exact respond_withTables h _

/-- `LOG` of the power of `x` at `i` is `i` (R77). -/
theorem log_answers {s : State} (h : s.Available) {i : Nat} (hi : i < 255) {v : Byte} (hv : xtimes s.config.rc i 1 = v) :
    Answers (.log ⟨v⟩) s (.value (.logarithm ⟨⟨i, hi⟩⟩)) := by
  subst hv
  show afterTables s _ = .next (s.withTables.answered _)
  rw [afterTables_available h, if_neg (not_isZero_power h i), withLog_some (memRead_log_power h hi)]
  exact respond_withTables h _

/-! ### XEXP -/

/-- `XEXP` answers the power of `x` at its operand (R78). -/
theorem xexp_gives {s : State} (h : s.Available) {p : Power} {v : Byte} (hv : xtimes s.config.rc p.byte.toNat 1 = v) :
    Gives (.xexp p) s ⟨v⟩ := by
  subst hv
  show afterTables s _ = .next (s.withTables.answered _)
  rw [afterTables_available h, withEntry_some (memRead_exp_power h (Nat.lt_succ_iff.1 p.byte.isLt))]
  exact respond_withTables h _

/-- And no other element. -/
theorem eq_of_xexp_gives {s : State} (h : s.Available) {p : Power} {x : Elem} (hx : Gives (.xexp p) s x) :
    x = ⟨xtimes s.config.rc p.byte.toNat 1⟩ := by
  have hnext := hx.symm.trans (xexp_gives h rfl)
  injection hnext with hstate
  have hanswer := answered_inj (Available_hasActivePort_withTables h) hstate
  injection hanswer with hvalue
  injection hvalue

/-- Powers in 0..254 give different elements (R78). -/
theorem xexp_inj {s : State} (h : s.Available) {p q : Power} (hp : p.byte.toNat ≤ 254) (hq : q.byte.toNat ≤ 254) {x : Elem}
    (hpx : Gives (.xexp p) s x) (hqx : Gives (.xexp q) s x) : p = q := by
  have hpower : xtimes s.config.rc p.byte.toNat 1 = xtimes s.config.rc q.byte.toNat 1 :=
    congrArg Elem.byte ((eq_of_xexp_gives h hpx).symm.trans (eq_of_xexp_gives h hqx))
  exact congrArg Power.mk (BitVec.eq_of_toNat_eq (xtimes_inj h.rc_legal (by omega) (by omega) hpower))

/-! ### EXP -/

/-- `EXP` of zero is zero, whatever the power is (R79). -/
theorem exp_zero_gives {s : State} (h : s.Available) (p : Power) : Gives (.exp ⟨0x00⟩ p) s ⟨0x00⟩ := by
  show afterTables s _ = .next (s.withTables.answered _)
  rw [afterTables_available h, if_pos isZero_zero]
  exact respond_withTables h _

/-- `EXP` multiplies the exponent of its base by the power, on unbounded integers (R79). -/
theorem exp_gives {s : State} (h : s.Available) {i : Nat} (hi : i < 255) (p : Power) :
    Gives (.exp ⟨xtimes s.config.rc i 1⟩ p) s ⟨xtimes s.config.rc (i * p.byte.toNat) 1⟩ := by
  have hentry : memRead .exp (expIndex 255 ⟨⟨i, hi⟩⟩ p) s.withTables = some (xtimes s.config.rc (i * p.byte.toNat) 1) :=
    memRead_exp_mod h _
  show afterTables s _ = .next (s.withTables.answered _)
  rw [afterTables_available h, if_neg (not_isZero_power h i), withLog_some (memRead_log_power h hi), h.withTables_groupOrder,
    withEntry_some hentry]
  exact respond_withTables h _

/-- One more factor `a` takes a power of `a` to the next one (R79 (h)). -/
theorem exp_succ_gives {s : State} (h : s.Available) {i : Nat} (hi : i < 255) {p : Byte} (hp : p.toNat < 255) :
    Gives (.exp ⟨xtimes s.config.rc i 1⟩ ⟨p + 1⟩) s ⟨xtimes s.config.rc (i * p.toNat + i) 1⟩ := by
  have hsucc : (p + 1).toNat = p.toNat + 1 := by bv_omega
  have hexp := exp_gives h hi ⟨p + 1⟩
  rwa [hsucc, Nat.mul_succ] at hexp

/-- `MUL` by the power of `x` at `i` adds `i` to the exponent of the other factor, however large that one is written (R80). -/
theorem mul_power_gives {s : State} (h : s.Available) (n : Nat) {i : Nat} (hi : i < 255) :
    Gives (.mul ⟨xtimes s.config.rc n 1⟩ ⟨xtimes s.config.rc i 1⟩) s ⟨xtimes s.config.rc (n + i) 1⟩ := by
  have hmul := mul_xtimes_gives h (Nat.mod_lt n (by decide : 0 < 255)) hi
  rwa [xtimes_mod h.rc_legal, (xtimes_eq_iff h.rc_legal (n % 255 + i) (n + i)).2 (Nat.mod_add_mod n 255 i)] at hmul

/-! ### The statements -/

/-- Settles O16: a nonzero operand is the power of `x` at its logarithm, which `XEXP` takes back to it and to nothing else. -/
theorem logAnswersTheDiscreteLogarithm : Obligations.LogAnswersTheDiscreteLogarithm := by
  refine ⟨fun _ hop => decodeCommand_eq_of_op hop (.log _ _), fun _ hs => log_zero_answers hs, fun s a hs ha => ?nonzero,
    fun s hs => ⟨log_answers hs (by decide) (xtimes_two_pow _ (by decide)), log_answers hs (by decide) (xtimes_two_pow _ (by decide)),
      log_answers hs (by decide) (xtimes_two_pow _ (by decide)), log_answers hs (by decide) (xtimes_eight _)⟩,
    fun s hs hrc => log_answers hs (by decide) ?worked, rfl, rfl, rfl, rfl⟩
  case nonzero =>
    obtain ⟨i, hi, rfl⟩ := hs.exists_power ha
    have hbyte : (logByte ⟨⟨i, hi⟩⟩).toNat = i := toNat_log hi
    have hback : Gives (.xexp ⟨logByte ⟨⟨i, hi⟩⟩⟩) s ⟨xtimes s.config.rc i 1⟩ := xexp_gives hs (by rw [hbyte])
    exact ⟨⟨⟨i, hi⟩⟩, log_answers hs hi rfl, memRead_log_power hs hi, hbyte, hback,
      fun p hp hpx => congrArg Power.byte (xexp_inj hs hp (hbyte.trans_le (by omega)) hpx hback)⟩
  case worked =>
    rw [hrc]
    exact xtimes_1D_25

/-- Settles O17: the entry `XEXP` reads is the power of `x` at the operand. -/
theorem xexpAnswersThePowerOfTheGenerator : Obligations.XexpAnswersThePowerOfTheGenerator := by
  refine ⟨fun _ hop => decodeCommand_eq_of_op hop (.xexp _ _),
    fun s p hs => ⟨xtimes s.config.rc p.byte.toNat 1, xexp_gives hs rfl, memRead_exp_power hs (Nat.lt_succ_iff.1 p.byte.isLt),
      xtimes_ne_zero hs.rc_legal _⟩,
    fun s hs => ⟨xexp_gives hs rfl, xexp_gives hs (xtimes_255 hs.rc_legal), ?generator, fun i hi => xexp_gives hs ?twoPow,
      xexp_gives hs (xtimes_eight _)⟩,
    fun _ _ _ _ hs hp hq => xexp_inj hs hp hq,
    fun s hs hrc => ⟨xexp_gives hs ?worked25, xexp_gives hs ?worked254⟩, rfl, rfl, rfl, rfl⟩
  case generator =>
    rw [hs.gen_eq]
    exact xexp_gives hs (xtimes_two_pow _ (i := 1) (by decide))
  case twoPow => rw [toNat_log (by omega), xtimes_two_pow _ (by omega)]
  case worked25 =>
    rw [hrc]
    exact xtimes_1D_25
  case worked254 =>
    rw [hrc]
    exact xtimes_254_of_xtime_eq_one mem_legalRcs_1D (by decide)

/-- Settles O18: a nonzero base is a power of `x`, and the power of it has the product as its exponent. -/
theorem expAnswersThePower : Obligations.ExpAnswersThePower := by
  refine ⟨fun _ p hs => exp_zero_gives hs p, fun s a p hs ha => ?power, fun s a p hs ha hp => ?successor⟩
  case power =>
    obtain ⟨i, hi, rfl⟩ := hs.exists_power ha
    refine ⟨_, _, memRead_log_power hs hi, memRead_exp_mod hs _, ?_⟩
    rw [show (logByte ⟨⟨i, hi⟩⟩).toNat = i from toNat_log hi]
    exact exp_gives hs hi p
  case successor =>
    obtain ⟨i, hi, rfl⟩ := hs.exists_power ha
    exact ⟨_, _, exp_gives hs hi ⟨p⟩, exp_succ_gives hs hi hp, mul_power_gives hs _ hi⟩

end Sys2Proof.Machine
end

section
/-! The multiplicative operations (R80 to R82): on powers of `x`, `MUL` adds exponents, `DIV` subtracts them and `INV` takes them from 255; a zero
operand is decided before any table is read. -/

namespace Sys2Proof.Machine

/-! ### Powers of `x` -/

/-- An element is zero or a power of `x` (R7, R16). -/
theorem State.Available.zero_or_power {s : State} (h : s.Available) (a : Elem) :
    a = ⟨0x00⟩ ∨ ∃ i, i < 255 ∧ a = ⟨xtimes s.config.rc i 1⟩ :=
  (eq_or_ne a ⟨0x00⟩).imp_right fun ha => h.exists_power fun e => ha (congrArg Elem.mk e)

/-- The byte `LOG_T` holds for the exponent `i` reads back as `i` (R16). -/
theorem toNat_logByte {i : Nat} (hi : i < 255) : (logByte ⟨⟨i, hi⟩⟩).toNat = i := toNat_log hi

/-- Among the exponents 0..254 only 0 gives 0x01 (R16). -/
theorem xtimes_eq_one_iff {rc : Byte} (h : rc ∈ Config.legalRcs) {i : Nat} (hi : i < 255) : xtimes rc i 1 = 1 ↔ i = 0 :=
  (xtimes_eq_iff h i 0).trans (by omega)

/-! ### MUL -/

/-- `MUL` by 0x02, the polynomial `x`, is the multiply-by-x step (R80 (f)). -/
theorem mul_two_gives {s : State} (h : s.Available) (v : Elem) : Gives (.mul ⟨0x02⟩ v) s ⟨xtime s.config.rc v.byte⟩ := by
  rcases h.zero_or_power v with rfl | ⟨i, hi, rfl⟩
  · rw [show xtime s.config.rc 0x00 = 0x00 from xtime_zero _]
    exact mul_gives_zero h (.inr rfl)
  · have hmul := mul_power_gives h 1 hi
    rwa [Nat.add_comm, xtimes_succ, xtimes_two_pow _ (by decide)] at hmul

/-! ### DIV -/

/-- A zero divisor is the failure, whatever the dividend is: it is tested first (R81, R108). -/
theorem div_by_zero_answers {s : State} (h : s.Available) (a : Elem) : Answers (.div a ⟨0x00⟩) s .divisionByZero := by
  show afterTables s _ = .next (s.withTables.answered _)
  rw [afterTables_available h, if_pos isZero_zero]
  exact respond_withTables h _

/-- A zero dividend gives zero once the divisor is not (R81). -/
theorem zero_div_gives {s : State} (h : s.Available) (j : Nat) :
    Gives (.div ⟨0x00⟩ ⟨xtimes s.config.rc j 1⟩) s ⟨0x00⟩ := by
  show afterTables s _ = .next (s.withTables.answered _)
  rw [afterTables_available h, if_neg (not_isZero_power h j), if_pos isZero_zero]
  exact respond_withTables h _

/-- `DIV` subtracts the divisor's exponent from the dividend's, modulo 255 (R81). -/
theorem div_power_gives {s : State} (h : s.Available) {i j n : Nat} (hi : i < 255) (hj : j < 255)
    (hn : (i + 255 - j) % 255 = n % 255) :
    Gives (.div ⟨xtimes s.config.rc i 1⟩ ⟨xtimes s.config.rc j 1⟩) s ⟨xtimes s.config.rc n 1⟩ := by
  have hentry : memRead .exp (divIndex 255 ⟨⟨i, hi⟩⟩ ⟨⟨j, hj⟩⟩) s.withTables = some (xtimes s.config.rc n 1) := by
    rw [divIndex, divSum, hn]
    exact memRead_exp_mod h n
  show afterTables s _ = .next (s.withTables.answered _)
  rw [afterTables_available h, if_neg (not_isZero_power h j), if_neg (not_isZero_power h i),
    withLog_some (memRead_log_power h hi), withLog_some (memRead_log_power h hj), h.withTables_groupOrder, withEntry_some hentry]
  exact respond_withTables h _

/-- Dividing by 0x01, the power of `x` with exponent 0, changes nothing (R81 (d)). -/
theorem div_one_gives {s : State} (h : s.Available) (a : Elem) : Gives (.div a ⟨0x01⟩) s a := by
  rcases h.zero_or_power a with rfl | ⟨i, hi, rfl⟩
  · exact zero_div_gives h 0
  · exact div_power_gives h hi (j := 0) (by decide) (by omega)

/-- A nonzero element divided by itself is 0x01 (R81 (c)). -/
theorem div_self_gives {s : State} (h : s.Available) {a : Elem} (ha : a.byte ≠ 0x00) : Gives (.div a a) s ⟨0x01⟩ := by
  obtain ⟨i, hi, rfl⟩ := h.exists_power ha
  exact div_power_gives h hi hi (n := 0) (by omega)

/-! ### INV -/

/-- Zero has no inverse (R82). -/
theorem inv_zero_answers {s : State} (h : s.Available) : Answers (.inv ⟨0x00⟩) s .absent := by
  show afterTables s _ = .next (s.withTables.answered _)
  rw [afterTables_available h, if_pos isZero_zero]
  exact respond_withTables h _

/-- `INV` takes the exponent from 255, and reads the duplicate of `exp[0]` for 0x01 (R82). -/
theorem inv_power_gives {s : State} (h : s.Available) {i : Nat} (hi : i < 255) :
    Gives (.inv ⟨xtimes s.config.rc i 1⟩) s ⟨xtimes s.config.rc (255 - i) 1⟩ := by
  have hentry : memRead .exp (invIndex 255 ⟨⟨i, hi⟩⟩) s.withTables = some (xtimes s.config.rc (255 - i) 1) :=
    memRead_exp_power h (Nat.sub_le 255 i)
  show afterTables s _ = .next (s.withTables.answered _)
  rw [afterTables_available h, if_neg (not_isZero_power h i), withLog_some (memRead_log_power h hi), h.withTables_groupOrder,
    withEntry_some hentry]
  exact respond_withTables h _

/-- The inverse of the inverse is the element: its exponent, 255 counted as 0, is taken from 255 once more (R82 (b)). -/
theorem inv_inverse_gives {s : State} (h : s.Available) {i : Nat} (hi : i < 255) :
    Gives (.inv ⟨xtimes s.config.rc (255 - i) 1⟩) s ⟨xtimes s.config.rc i 1⟩ := by
  have hinv := inv_power_gives h (Nat.mod_lt (255 - i) (by decide : 0 < 255))
  have hback : (255 - (255 - i) % 255) % 255 = i % 255 := by omega
  rwa [xtimes_mod h.rc_legal, (xtimes_eq_iff h.rc_legal _ _).2 hback] at hinv

/-! ### The statements -/

/-- Settles O19: nonzero operands are powers of `x`, and their product is the power at the sum of the logarithms, which is never zero. -/
theorem mulAnswersTheProduct : Obligations.MulAnswersTheProduct := by
  refine ⟨fun _ _ _ hs hab => mul_gives_zero hs hab, fun s a b hs ha hb => ?nonzero, fun _ v hs => mul_two_gives hs v⟩
  case nonzero =>
    obtain ⟨i, hi, rfl⟩ := hs.exists_power ha
    obtain ⟨j, hj, rfl⟩ := hs.exists_power hb
    refine ⟨_, _, xtimes s.config.rc (i + j) 1, memRead_log_power hs hi, memRead_log_power hs hj, ?_⟩
    rw [toNat_logByte, toNat_logByte]
    exact ⟨memRead_exp_mod hs _, xtimes_ne_zero hs.rc_legal _, mul_power_gives hs i hj⟩

/-- Settles O20: the divisor is tested before the dividend, and a quotient of powers of `x` is the power at the difference of the logarithms. -/
theorem divAnswersTheQuotientOrTheFailure : Obligations.DivAnswersTheQuotientOrTheFailure := by
  refine ⟨fun _ a hs => div_by_zero_answers hs a, fun s b hs hb => ?zeroDividend, fun s a b hs ha hb => ?nonzero,
    fun _ a hs => ⟨div_one_gives hs a, div_self_gives hs⟩⟩
  case zeroDividend =>
    obtain ⟨j, -, rfl⟩ := hs.exists_power hb
    exact zero_div_gives hs j
  case nonzero =>
    obtain ⟨i, hi, rfl⟩ := hs.exists_power ha
    obtain ⟨j, hj, rfl⟩ := hs.exists_power hb
    refine ⟨_, _, xtimes s.config.rc (i + 255 - j) 1, memRead_log_power hs hi, memRead_log_power hs hj, ?_⟩
    rw [toNat_logByte, toNat_logByte]
    exact ⟨by omega, by omega, memRead_exp_mod hs _, div_power_gives hs hi hj rfl⟩

/-- Settles O21: the inverse of a power of `x` is the power at 255 minus its exponent, 255 for the zeroth one alone. -/
theorem invAnswersTheInverse : Obligations.InvAnswersTheInverse := by
  refine ⟨fun _ hs => inv_zero_answers hs, fun s a hs ha => ?nonzero⟩
  case nonzero =>
    obtain ⟨i, hi, rfl⟩ := hs.exists_power ha
    have hindex : 255 - i = 255 ↔ xtimes s.config.rc i 1 = 1 := by
      rw [xtimes_eq_one_iff hs.rc_legal hi]
      omega
    refine ⟨_, xtimes s.config.rc (255 - i) 1, memRead_log_power hs hi, ?_⟩
    rw [toNat_logByte]
    exact ⟨by omega, hindex, memRead_exp_power hs (Nat.sub_le 255 i), xtimes_ne_zero hs.rc_legal _, inv_power_gives hs hi,
      inv_inverse_gives hs hi⟩

end Sys2Proof.Machine
end

section
/-! The product and the powers of R85 and R79 (h) without tables, under a legal `RC`: a product with a power of `x` is repeated `xtime`, which is
linear, so the laws of a field hold of it (R89 to R91). -/

namespace Sys2Proof.Machine

/-! ### The polynomial product -/

/-- A byte is zero or a power of `x` (R7, R16). -/
theorem byte_zero_or_power {rc : Byte} (h : rc ∈ Config.legalRcs) (v : Byte) : v = 0#8 ∨ ∃ i, i < 255 ∧ xtimes rc i 1 = v :=
  (eq_or_ne v 0#8).imp_right (exists_xtimes h)

/-- Multiplying by the power of `x` at `i` is `xtime` applied `i` times. -/
theorem clmul_power_left (rc b : Byte) (i : Nat) : clmul rc (xtimes rc i 1) b = xtimes rc i b := by
  rw [clmul_xtimes_left, clmul_one_left]

@[simp] theorem clmul_zero_left (rc b : Byte) : clmul rc 0#8 b = 0#8 := by
  simp only [clmul, xtimes_zero, BitVec.xor_zero, ite_self, List.foldl_fixed]
  rfl

@[simp] theorem clmul_zero_right (rc a : Byte) : clmul rc a 0#8 = 0#8 := by
  simp only [clmul, BitVec.getLsbD_zero, Bool.false_eq_true, if_false, List.foldl_fixed]
  rfl

theorem clmul_comm {rc : Byte} (h : rc ∈ Config.legalRcs) (a b : Byte) : clmul rc a b = clmul rc b a := by
  rcases byte_zero_or_power h a with rfl | ⟨i, -, rfl⟩
  · rw [clmul_zero_left, clmul_zero_right]
  · rcases byte_zero_or_power h b with rfl | ⟨j, -, rfl⟩
    · rw [clmul_zero_left, clmul_zero_right]
    · rw [clmul_xtimes, clmul_xtimes, Nat.add_comm]

/-- Multiplying by a power of `x` first or last is the same, since `xtime` moves out of the first factor. -/
theorem clmul_assoc {rc : Byte} (h : rc ∈ Config.legalRcs) (a b c : Byte) :
    clmul rc (clmul rc a b) c = clmul rc a (clmul rc b c) := by
  rcases byte_zero_or_power h a with rfl | ⟨i, -, rfl⟩
  · simp only [clmul_zero_left]
  · rw [clmul_power_left, clmul_xtimes_left, clmul_power_left]

/-- `xtime` is linear, and so is every repetition of it. -/
theorem clmul_xor_right {rc : Byte} (h : rc ∈ Config.legalRcs) (a b c : Byte) :
    clmul rc a (b ^^^ c) = clmul rc a b ^^^ clmul rc a c := by
  rcases byte_zero_or_power h a with rfl | ⟨i, -, rfl⟩
  · simp only [clmul_zero_left, BitVec.xor_zero]
  · simp only [clmul_power_left, xtimes_xor]

/-! ### Elements -/

@[simp] theorem elemMul_power (rc : Byte) (i j : Nat) :
    elemMul rc ⟨xtimes rc i 1⟩ ⟨xtimes rc j 1⟩ = ⟨xtimes rc (i + j) 1⟩ :=
  congrArg Elem.mk (clmul_xtimes rc i j)

@[simp] theorem elemMul_zero_left (rc : Byte) (b : Elem) : elemMul rc ⟨0x00⟩ b = ⟨0x00⟩ :=
  congrArg Elem.mk (clmul_zero_left rc b.byte)

@[simp] theorem elemMul_zero_right (rc : Byte) (a : Elem) : elemMul rc a ⟨0x00⟩ = ⟨0x00⟩ :=
  congrArg Elem.mk (clmul_zero_right rc a.byte)

@[simp] theorem elemMul_one_left (rc : Byte) (b : Elem) : elemMul rc ⟨0x01⟩ b = b :=
  congrArg Elem.mk (clmul_one_left rc b.byte)

theorem elemMul_comm {rc : Byte} (h : rc ∈ Config.legalRcs) (a b : Elem) : elemMul rc a b = elemMul rc b a :=
  congrArg Elem.mk (clmul_comm h a.byte b.byte)

theorem elemMul_assoc {rc : Byte} (h : rc ∈ Config.legalRcs) (a b c : Elem) :
    elemMul rc (elemMul rc a b) c = elemMul rc a (elemMul rc b c) :=
  congrArg Elem.mk (clmul_assoc h a.byte b.byte c.byte)

theorem elemMul_elemXor {rc : Byte} (h : rc ∈ Config.legalRcs) (a b c : Elem) :
    elemMul rc a (elemXor b c) = elemXor (elemMul rc a b) (elemMul rc a c) :=
  congrArg Elem.mk (clmul_xor_right h a.byte b.byte c.byte)

/-- The exponents of a power of `x` and of its inverse add up to 255 (R17). -/
theorem elemMul_inverse {rc : Byte} (h : rc ∈ Config.legalRcs) {i : Nat} (hi : i < 255) :
    elemMul rc ⟨xtimes rc i 1⟩ ⟨xtimes rc (255 - i) 1⟩ = ⟨0x01⟩ := by
  rw [elemMul_power, Nat.add_sub_cancel' hi.le, xtimes_255 h]

/-- A repeated product multiplies the exponent (R79 (h)). -/
@[simp] theorem elemPow_power (rc : Byte) (i n : Nat) : elemPow rc ⟨xtimes rc i 1⟩ n = ⟨xtimes rc (i * n) 1⟩ := by
  induction n with
  | zero => rfl
  | succ n ih => rw [elemPow, ih, elemMul_power, Nat.mul_succ]

/-! ### The searched logarithm -/

/-- No power of `x` is zero, so the search finds nothing (R77). -/
theorem discreteLog_zero {rc : Byte} (h : rc ∈ Config.legalRcs) : discreteLog rc ⟨0x00⟩ = none :=
  List.find?_eq_none.2 fun i _ e => xtimes_ne_zero h i (congrArg Elem.byte (eq_of_beq e))

/-- The search ends at the one exponent there is (R16, R77). -/
theorem discreteLog_power {rc : Byte} (h : rc ∈ Config.legalRcs) {i : Nat} (hi : i < 255) :
    discreteLog rc ⟨xtimes rc i 1⟩ = some ⟨i, hi⟩ := by
  cases hfind : discreteLog rc ⟨xtimes rc i 1⟩ with
  | none => exact absurd (beq_self_eq_true _) (List.find?_eq_none.1 hfind ⟨i, hi⟩ (List.mem_finRange _))
  | some j =>
    have hfound := List.find?_some (p := fun j : Fin 255 => genPow rc j.val == ⟨xtimes rc i 1⟩) hfind
    have hpower : xtimes rc j 1 = xtimes rc i 1 := congrArg Elem.byte (eq_of_beq hfound)
    exact congrArg some (Fin.ext (xtimes_inj h j.isLt hi hpower))

end Sys2Proof.Machine
end

section
/-! The laws of the commands (R83 to R98, R102), and the agreement of the table machine with field arithmetic without tables. `MUL` answers the
product of polynomials (R85); the other laws follow from its laws and from the exponents of the operands. -/

namespace Sys2Proof.Machine

/-! ### The answer is the one there is -/

/-- A command has one answer. -/
theorem answers_unique {s : State} (h : s.Available) {i : Instr} {r r' : Response} (hr : Answers i s r) (hr' : Answers i s r') :
    r = r' := by
  have hport : (s.ensuredFor i).HasActivePort := by
    rw [State.ensuredFor]
    split
    · exact Available_hasActivePort_withTables h
    · exact h.activePort
  have hnext := hr.symm.trans hr'
  injection hnext with hstate
  exact answered_inj hport hstate

/-! ### MUL -/

/-- `MUL` answers the polynomial product: a zero operand makes it zero, and powers of `x` add their exponents (R80, R85). -/
theorem mul_gives {s : State} (h : s.Available) (a b : Elem) : Gives (.mul a b) s (elemMul s.config.rc a b) := by
  rcases h.zero_or_power a with rfl | ⟨i, hi, rfl⟩
  · rw [elemMul_zero_left]
    exact mul_gives_zero h (.inl rfl)
  · rcases h.zero_or_power b with rfl | ⟨j, hj, rfl⟩
    · rw [elemMul_zero_right]
      exact mul_gives_zero h (.inr rfl)
    · rw [elemMul_power]
      exact mul_power_gives h i hj

theorem mul_gives_of_eq {s : State} (h : s.Available) {a b x : Elem} (hx : elemMul s.config.rc a b = x) : Gives (.mul a b) s x :=
  hx ▸ mul_gives h a b

/-- Settles O22: the table machine's product is the polynomial product, operands zero or not. -/
theorem mulIsThePolynomialProduct : Obligations.MulIsThePolynomialProduct := fun _ a b hs => mul_gives hs a b

/-- Settles O24: the polynomial product is linear. -/
theorem mulDistributesOverAdd : Obligations.MulDistributesOverAdd := fun _ a b c hs =>
  ⟨_, _, _, _, add_gives hs.activePort b c, mul_gives hs a _, mul_gives hs a b, mul_gives hs a c,
    add_gives_of_eq hs.activePort (elemMul_elemXor hs.rc_legal a b c).symm⟩

/-- Settles O25: the XOR and the polynomial product are commutative. -/
theorem addAndMulCommute : Obligations.AddAndMulCommute := fun _ a b hs =>
  ⟨⟨_, add_gives hs.activePort a b, add_gives_of_eq hs.activePort (elemXor_comm b a)⟩,
    ⟨_, mul_gives hs a b, mul_gives_of_eq hs (elemMul_comm hs.rc_legal b a)⟩⟩

/-- Settles O26: the XOR and the polynomial product are associative. -/
theorem addAndMulAssociate : Obligations.AddAndMulAssociate := by
  refine fun s a b c hs => ⟨⟨_, _, _, add_gives hs.activePort a b, add_gives hs.activePort _ c, add_gives hs.activePort b c, ?sum⟩,
    ⟨_, _, _, mul_gives hs a b, mul_gives hs _ c, mul_gives hs b c, ?product⟩⟩
  case sum => exact add_gives_of_eq hs.activePort (elemXor_assoc a b c).symm
  case product => exact mul_gives_of_eq hs (elemMul_assoc hs.rc_legal a b c).symm

/-- Settles O29: 0x00 leaves the XOR as it is and makes a product zero, and 0x01 leaves a product as it is on either side. -/
theorem identitiesOfAddAndMul : Obligations.IdentitiesOfAddAndMul := fun _ a hs =>
  ⟨add_zero_gives hs.activePort a, add_gives_of_eq hs.activePort (elemXor_self a), mul_one_gives hs a,
    mul_gives_of_eq hs (elemMul_one_left _ a), mul_gives_zero hs (.inr rfl), mul_gives_zero hs (.inl rfl)⟩

/-! ### DIV -/

/-- Dividing a product by its first factor, a power of `x`, takes away the exponent that factor has added (R87). -/
theorem div_product_gives {s : State} (h : s.Available) {a : Elem} (ha : a.byte ≠ 0x00) (b : Elem) :
    Gives (.div (elemMul s.config.rc a b) a) s b := by
  obtain ⟨i, hi, rfl⟩ := h.exists_power ha
  rcases h.zero_or_power b with rfl | ⟨j, hj, rfl⟩
  · rw [elemMul_zero_right]
    exact zero_div_gives h i
  · rw [elemMul_power, ← xtimes_mod h.rc_legal (i + j)]
    exact div_power_gives h (Nat.mod_lt _ (by decide)) hi (by omega)

/-- Settles O23: a product divided by its first factor, for either order of the factors. -/
theorem divisionRecoversAFactor : Obligations.DivisionRecoversAFactor := by
  refine fun s a b hs => ⟨_, mul_gives hs a b, fun ha => div_product_gives hs ha b, fun hb => ?_⟩
  rw [elemMul_comm hs.rc_legal]
  exact div_product_gives hs hb a

/-- Settles O32: the answers to a zero operand are the two the zero tests give, and with 0x01 for a dividend `DIV` takes the exponent from 255 as
`INV` does. -/
theorem divAndInvTreatZeroDifferently : Obligations.DivAndInvTreatZeroDifferently := by
  refine ⟨fun s hs => ⟨fun x => ⟨div_by_zero_answers hs x, fun habsent => ?divNotAbsent⟩, inv_zero_answers hs,
    fun hfail => ?invNoFailure, by decide⟩, fun s b hs hb => ?quotient⟩
  case divNotAbsent => cases answers_unique hs (div_by_zero_answers hs x) habsent
  case invNoFailure => cases answers_unique hs (inv_zero_answers hs) hfail
  case quotient =>
    obtain ⟨j, hj, rfl⟩ := hs.exists_power hb
    exact ⟨_, div_power_gives hs (i := 0) (by decide) hj (by omega), inv_power_gives hs hj⟩

/-! ### INV -/

/-- Settles O27: a nonzero element is a power of `x`, and `INV` answers the power that completes its exponent to 255. -/
theorem inverseTimesElementIsOne : Obligations.InverseTimesElementIsOne := by
  refine ⟨fun s a hs ha => ?_, fun _ hs => inv_zero_answers hs⟩
  obtain ⟨i, hi, rfl⟩ := hs.exists_power ha
  exact ⟨_, inv_power_gives hs hi, mul_gives_of_eq hs (elemMul_inverse hs.rc_legal hi)⟩

/-- `inv` of the power of `x` at `i` is the power at `255 - i` (R17). -/
theorem memRead_inv_power {s : State} (h : s.Available) {i : Nat} (hi : i < 255) :
    memRead .inv (xtimes s.config.rc i 1).toNat s.withTables = some (xtimes s.config.rc (255 - i) 1) := by
  rw [memRead_withTables h, ← xtimes_mod h.rc_legal (255 - i)]
  exact read_inv h.rc_legal hi

/-- Settles O30: `INV_T`, and `EXP_T` at either index, hold the power of `x` at `255 - i` that `INV` answers. -/
theorem invAnswersTheInvTableEntry : Obligations.InvAnswersTheInvTableEntry := by
  intro s a hs ha
  obtain ⟨i, hi, rfl⟩ := hs.exists_power ha
  refine ⟨_, _, memRead_log_power hs hi, memRead_inv_power hs hi, ?_⟩
  rw [toNat_logByte]
  refine ⟨memRead_exp_power hs (Nat.sub_le 255 i), memRead_exp_mod hs _, inv_power_gives hs hi,
    mul_gives_of_eq hs ((elemMul_comm hs.rc_legal _ _).trans (elemMul_inverse hs.rc_legal hi))⟩

/-! ### LOG, XEXP and EXP -/

/-- Settles O28: a multiple of 255 is the exponent 0 again. -/
theorem powersAtTheCorners : Obligations.PowersAtTheCorners := by
  refine ⟨fun s a hs ha => ?_, fun _ p hs => exp_zero_gives hs p⟩
  obtain ⟨i, hi, rfl⟩ := hs.exists_power ha
  refine ⟨?_, exp_gives hs hi ⟨0⟩⟩
  have hexp := exp_gives hs hi ⟨255⟩
  have hone : xtimes s.config.rc (i * 255) 1 = 1 := (xtimes_eq_iff hs.rc_legal _ 0).2 (Nat.mul_mod_left i 255)
  rwa [show (255 : Byte).toNat = 255 from rfl, hone] at hexp

/-- `XEXP` of a logarithm is the power of `x` at it (R78, R98). -/
theorem xexp_logByte_gives {s : State} (h : s.Available) {i : Nat} (hi : i < 255) :
    Gives (.xexp ⟨logByte ⟨⟨i, hi⟩⟩⟩) s ⟨xtimes s.config.rc i 1⟩ :=
  xexp_gives h (by rw [toNat_logByte hi])

/-- Settles O31: `LOG` answers the exponent of a power of `x` and `XEXP` the power at an exponent, 255 being 0 again. -/
theorem logAndXexpAreInverse : Obligations.LogAndXexpAreInverse := by
  refine ⟨fun s a hs ha => ?_, fun s i hs => ⟨_, xexp_logByte_gives hs i.exponent.isLt, log_answers hs i.exponent.isLt rfl⟩,
    fun s hs => ⟨_, xexp_gives hs (xtimes_255 hs.rc_legal), log_answers hs (i := 0) (by decide) rfl⟩⟩
  obtain ⟨i, hi, rfl⟩ := hs.exists_power ha
  exact ⟨_, log_answers hs hi rfl, xexp_logByte_gives hs hi⟩

/-! ### The table machine and field arithmetic -/

theorem power_ne_elemZero {rc : Byte} (h : rc ∈ Config.legalRcs) (i : Nat) : (⟨xtimes rc i 1⟩ : Elem) ≠ elemZero := fun e =>
  xtimes_ne_zero h i (congrArg Elem.byte e)

/-- `LOG` answers the logarithm the search finds, or is absent where it finds none (R77). -/
theorem log_answers_reference {s : State} (h : s.Available) (a : Elem) : Answers (.log a) s (reference s.config.rc (.log a)) := by
  rcases h.zero_or_power a with rfl | ⟨i, hi, rfl⟩
  · simp only [reference, discreteLog_zero h.rc_legal]
    exact log_zero_answers h
  · simp only [reference, discreteLog_power h.rc_legal hi]
    exact log_answers h hi rfl

/-- `EXP` of a nonzero base answers its repeated product (R79 (h)). -/
theorem exp_answers_reference {s : State} (h : s.Available) (a : Elem) (p : Power) :
    Answers (.exp a p) s (reference s.config.rc (.exp a p)) := by
  rcases h.zero_or_power a with rfl | ⟨i, hi, rfl⟩
  · exact exp_zero_gives h p
  · rw [reference, if_neg (power_ne_elemZero h.rc_legal i), elemPow_power]
    exact exp_gives h hi p

/-- The inverse of the power of `x` at `i` is its 254th power: `255 - i` and `i * 254` agree modulo 255 (R17). -/
theorem inv_answers_reference {s : State} (h : s.Available) (a : Elem) : Answers (.inv a) s (reference s.config.rc (.inv a)) := by
  rcases h.zero_or_power a with rfl | ⟨i, hi, rfl⟩
  · exact inv_zero_answers h
  · have hexponent : xtimes s.config.rc (255 - i) 1 = xtimes s.config.rc (i * 254) 1 := (xtimes_eq_iff h.rc_legal _ _).2 (by omega)
    rw [reference, if_neg (power_ne_elemZero h.rc_legal i), elemPow_power, ← hexponent]
    exact inv_power_gives h hi

/-- A quotient is the product with the inverse of the divisor, its 254th power (R17, R81). -/
theorem div_answers_reference {s : State} (h : s.Available) (a b : Elem) :
    Answers (.div a b) s (reference s.config.rc (.div a b)) := by
  rcases h.zero_or_power b with rfl | ⟨j, hj, rfl⟩
  · exact div_by_zero_answers h a
  · rw [reference, if_neg (power_ne_elemZero h.rc_legal j), elemPow_power]
    rcases h.zero_or_power a with rfl | ⟨i, hi, rfl⟩
    · rw [elemMul_zero_left]
      exact zero_div_gives h j
    · rw [elemMul_power]
      exact div_power_gives h hi hj (by omega)

/-- Settles O46, a command at a time. -/
theorem tableMachineComputesFieldArithmetic : Obligations.TableMachineComputesFieldArithmetic := by
  intro i s hs
  cases i with
  | zero => exact exec_zero hs.activePort
  | one => exact exec_one hs.activePort
  | fromByte b => exact exec_fromByte hs.activePort b
  | toByte x => exact exec_toByte hs.activePort x
  | add a b => exact add_gives hs.activePort a b
  | sub a b => exact sub_gives hs.activePort a b
  | log a => exact log_answers_reference hs a
  | xexp p => exact xexp_gives hs rfl
  | exp a p => exact exp_answers_reference hs a p
  | mul a b => exact mul_gives hs a b
  | div a b => exact div_answers_reference hs a b
  | inv a => exact inv_answers_reference hs a
  | reserved op => exact respond_eq hs.activePort .illegal

/-! ### The ranges of the exponents -/

theorem exponent_le (l : Logarithm) : l.exponent.val ≤ 254 := Nat.le_of_lt_succ l.exponent.isLt

theorem mod_255_le_254 (n : Nat) : n % 255 ≤ 254 := Nat.le_of_lt_succ (Nat.mod_lt n (by decide))

theorem power_le (p : Power) : p.byte.toNat ≤ 255 := Nat.le_of_lt_succ p.byte.isLt

theorem expSum_le (la : Logarithm) (p : Power) : expSum la p ≤ 64770 := Nat.mul_le_mul (exponent_le la) (power_le p)

theorem mulSum_le (la lb : Logarithm) : mulSum la lb ≤ 508 := Nat.add_le_add (exponent_le la) (exponent_le lb)

/-- The group order added first keeps the subtraction of R81 above zero, so it is the one on integers. -/
theorem divSum_range (la lb : Logarithm) :
    (divSum 255 la lb : Int) = (la.exponent.val : Int) + 255 - (lb.exponent.val : Int) ∧ 1 ≤ divSum 255 la lb ∧ divSum 255 la lb ≤ 509 := by
  have ha := exponent_le la
  have hb := exponent_le lb
  rw [divSum]
  omega

/-- A logarithm is below the group order, so the subtraction of R82 and of R61 is the one on integers. -/
theorem invIndex_range (l : Logarithm) :
    (invIndex 255 l : Int) = 255 - (l.exponent.val : Int) ∧ 1 ≤ invIndex 255 l ∧ invIndex 255 l ≤ 255 := by
  have hl := exponent_le l
  rw [invIndex]
  omega

/-- Settles O33, a row of R83 at a time, then the ends of the ranges. -/
theorem exponentIndicesStayInsideTheTable : Obligations.ExponentIndicesStayInsideTheTable :=
  ⟨fun la p => ⟨⟨rfl, Nat.zero_le _, expSum_le la p⟩, rfl, mod_255_le_254 _⟩,
    fun la lb => ⟨⟨rfl, Nat.zero_le _, mulSum_le la lb⟩, rfl, mod_255_le_254 _⟩,
    fun la lb => ⟨divSum_range la lb, rfl, mod_255_le_254 _⟩,
    invIndex_range,
    fun l => ⟨invIndex_range l, rfl, mod_255_le_254 _⟩,
    power_le, ⟨rfl, rfl⟩, ⟨rfl, rfl⟩, ⟨rfl, rfl⟩, ⟨rfl, rfl⟩, rfl, rfl⟩

end Sys2Proof.Machine
end

section
/-! Outcomes that are no value (R100, R101, R104, R105), and what a failure leaves (R109 to R111): in an available state the answer is the one of field
arithmetic without tables, which the operands and `RC` decide. -/

namespace Sys2Proof.Machine

/-! ### The answer of an available state -/

/-- The one answer is that of field arithmetic without tables (R39, R40). -/
theorem answers_iff_eq_reference {s : State} (h : s.Available) (i : Instr) (r : Response) :
    Answers i s r ↔ r = reference s.config.rc i := by
  have href : Answers i s (reference s.config.rc i) := tableMachineComputesFieldArithmetic i s h
  exact ⟨fun hr => answers_unique h hr href, fun e => e ▸ href⟩

/-- So available states of one `RC` answer alike (R40). -/
theorem answers_congr {s t : State} (hs : s.Available) (ht : t.Available) (hrc : t.config.rc = s.config.rc) (i : Instr)
    (r : Response) : Answers i s r ↔ Answers i t r := by
  rw [answers_iff_eq_reference hs, answers_iff_eq_reference ht, hrc]

/-! ### Responses that are no value -/

/-- `LOG` is absent for zero alone: any other element is a power of `x`, and the search finds its exponent (R77). -/
theorem reference_log_cases {rc : Byte} (h : rc ∈ Config.legalRcs) (a : Elem) :
    a = ⟨0#8⟩ ∧ reference rc (.log a) = .absent ∨ a ≠ ⟨0#8⟩ ∧ ∃ v, reference rc (.log a) = .value v := by
  obtain ⟨v⟩ := a
  rcases byte_zero_or_power h v with rfl | ⟨i, hi, rfl⟩
  · have hnone : discreteLog rc ⟨0#8⟩ = none := discreteLog_zero h
    exact .inl ⟨rfl, by simp only [reference, hnone]⟩
  · exact .inr ⟨power_ne_elemZero h i, .logarithm ⟨⟨i, hi⟩⟩, by simp only [reference, discreteLog_power h hi]⟩

/-- `INV` is absent for zero alone (R82). -/
theorem reference_inv_cases (rc : Byte) (a : Elem) :
    a = ⟨0#8⟩ ∧ reference rc (.inv a) = .absent ∨ a ≠ ⟨0#8⟩ ∧ ∃ v, reference rc (.inv a) = .value v := by
  by_cases ha : a = elemZero
  · exact .inl ⟨ha, if_pos ha⟩
  · exact .inr ⟨ha, _, if_neg ha⟩

/-- `DIV` fails for a zero divisor alone (R81, R108). -/
theorem reference_div_cases (rc : Byte) (a b : Elem) :
    b = ⟨0#8⟩ ∧ reference rc (.div a b) = .divisionByZero ∨ b ≠ ⟨0#8⟩ ∧ ∃ v, reference rc (.div a b) = .value v := by
  by_cases hb : b = elemZero
  · exact .inl ⟨hb, if_pos hb⟩
  · exact .inr ⟨hb, _, if_neg hb⟩

/-- `Absent` is the answer of `LOG` and of `INV` to zero (R101). -/
theorem reference_eq_absent_iff {rc : Byte} (h : rc ∈ Config.legalRcs) (i : Instr) :
    reference rc i = .absent ↔ i = .log ⟨0x00⟩ ∨ i = .inv ⟨0x00⟩ := by
  cases i with
  | log a =>
    rcases reference_log_cases h a with ⟨rfl, e⟩ | ⟨ha, v, e⟩
    · simp [e]
    · simp [e, ha]
  | inv a =>
    rcases reference_inv_cases rc a with ⟨rfl, e⟩ | ⟨ha, v, e⟩
    · simp [e]
    · simp [e, ha]
  | div a b => rcases reference_div_cases rc a b with ⟨-, e⟩ | ⟨-, v, e⟩ <;> simp [e]
  | _ => simp [reference]

/-- `DivisionByZero` is the answer of `DIV` to a zero divisor (R100). -/
theorem reference_eq_divisionByZero_iff {rc : Byte} (h : rc ∈ Config.legalRcs) (i : Instr) :
    reference rc i = .divisionByZero ↔ ∃ a, i = .div a ⟨0x00⟩ := by
  cases i with
  | log a => rcases reference_log_cases h a with ⟨-, e⟩ | ⟨-, v, e⟩ <;> simp [e]
  | inv a => rcases reference_inv_cases rc a with ⟨-, e⟩ | ⟨-, v, e⟩ <;> simp [e]
  | div a b =>
    rcases reference_div_cases rc a b with ⟨rfl, e⟩ | ⟨hb, v, e⟩
    · simp [e]
    · simp [e, hb]
  | _ => simp [reference]

/-- `Illegal` is the answer to a reserved command (R104). -/
theorem reference_eq_illegal_iff {rc : Byte} (h : rc ∈ Config.legalRcs) (i : Instr) :
    reference rc i = .illegal ↔ ∃ op, i = .reserved op := by
  cases i with
  | log a => rcases reference_log_cases h a with ⟨-, e⟩ | ⟨-, v, e⟩ <;> simp [e]
  | inv a => rcases reference_inv_cases rc a with ⟨-, e⟩ | ⟨-, v, e⟩ <;> simp [e]
  | div a b => rcases reference_div_cases rc a b with ⟨-, e⟩ | ⟨-, v, e⟩ <;> simp [e]
  | _ => simp [reference]

/-- Settles O9: the answer is that of field arithmetic, and a well-formed reserved command has its `OP` in 0xC..0xF. -/
theorem outcomesThatAreNoValue : Obligations.OutcomesThatAreNoValue := by
  refine fun i s hwf hs => ⟨_, tableMachineComputesFieldArithmetic i s hs, reference_eq_absent_iff hs.rc_legal i,
    reference_eq_divisionByZero_iff hs.rc_legal i, (reference_eq_illegal_iff hs.rc_legal i).trans ?reserved,
    congrArg Response.status, congrArg Response.status, congrArg Response.status⟩
  case reserved =>
    refine exists_congr fun op => ⟨?_, And.right⟩
    rintro rfl
    exact ⟨of_decide_eq_true hwf, rfl⟩

/-! ### After the failure -/

/-- The tables ensured, the state is available (R66). -/
theorem State.Available.withTables {s : State} (h : s.Available) : s.withTables.Available where
  legal := by rw [withTables_config]; exact h.legal
  activePort := Available_hasActivePort_withTables h
  tablesBuilt _ := by rw [withTables_config, Available_withTables_tables h]
  unblocked := .inl (withTables_tblValid s)

/-- An answer blocks nothing (R55, R111). -/
theorem State.Available.answered {s : State} (h : s.Available) (r : Response) : (s.answered r).Available where
  legal := h.legal
  activePort := h.activePort.trans_eq (List.length_modify _ _ _).symm
  tablesBuilt := h.tablesBuilt
  unblocked := h.unblocked

/-- Any port there is may have the next turn (R116). -/
theorem State.Available.turnOf {s : State} (h : s.Available) {p : Nat} (hp : p < s.ports.length) (ts : List Turn) :
    (s.turnOf p ts).Available where
  legal := h.legal
  activePort := hp
  tablesBuilt := h.tablesBuilt
  unblocked := h.unblocked

/-- Settles O49: the failure leaves an available state of the same `RC`, with the other ports as they were. -/
theorem failureIsNotSticky : Obligations.FailureIsNotSticky := by
  intro s a hs
  have ht : (s.withTables.answered .divisionByZero).Available := hs.withTables.answered _
  have hrc : (s.withTables.answered .divisionByZero).config.rc = s.config.rc := by rw [answered_config, withTables_config]
  refine ⟨s.withTables.answered .divisionByZero, div_by_zero_answers hs a, rfl, ht, withTables_tblValid s,
    answers_congr hs ht hrc, fun p ts hp => ?_⟩
  have htp : ((s.withTables.answered .divisionByZero).turnOf p ts).Available := by
    refine ht.turnOf ?_ ts
    rwa [answered_ports, List.length_modify, withTables_ports]
  refine ⟨fun hother => ?_, htp, answers_congr (hs.turnOf hp ts) htp hrc⟩
  rw [answered_ports, withTables_ports, withTables_active, List.getElem?_modify_ne _ _ hother.symm]

end Sys2Proof.Machine
end

section
/-! R103, R124: no step of a machine that meets the invariant faults, since what a command reads there has a value. -/

namespace Sys2Proof.Machine

theorem State.Inv.tablesSound {s : State} (h : s.Inv) : s.TablesSound := ⟨h.legal, h.built⟩

/-- With sound tables and a port to answer on, a command is answered or held (R35, R66, R103). -/
theorem State.TablesSound.exec_next {s : State} (h : s.TablesSound) (hport : s.HasActivePort) (i : Instr) :
    ∃ t, exec i s = .next t := by
  cases hi : needsTables i with
  | false =>
    obtain ⟨r, he⟩ := exec_of_not_needsTables hi
    exact ⟨_, (he s).trans (respond_eq hport r)⟩
  | true =>
    cases hensure : ensureTables s with
    | held t => exact ⟨t, exec_held hi hensure⟩
    | ready u =>
      obtain ⟨-, hrc, -⟩ := (Config.legal_iff s.config).1 h.legal
      obtain ⟨r, hr⟩ := exec_responds i hrc
      obtain ⟨-, hports, -, hactive⟩ := ensureTables_frame s u (.inl hensure)
      have hport' : u.HasActivePort := by rwa [State.HasActivePort, hports, hactive]
      exact ⟨_, (hr s u h rfl (.inr ⟨hi, hensure⟩)).trans (respond_eq hport' r)⟩

/-- A step gives a next state, or refuses a turn for a port there is none of (R103, R124). -/
theorem State.Inv.step_next_or_noSuchPort {s : State} (h : s.Inv) :
    (∃ t, step s = .next t) ∨
      ∃ p ts, s.schedule = .port p :: ts ∧ s.ports.length ≤ p ∧ step s = .refused (.noSuchPort p) := by
  rcases fetch_cases s with ⟨hillegal, -⟩ | ⟨-, ⟨-, e⟩ | ⟨ts, -, e⟩ | ⟨p, ts, hs, hp, e⟩ | ⟨p, ts, q, i, -, hp, -, e⟩ |
    ⟨p, ts, q, -, -, -, -, e⟩ | ⟨p, ts, q, w, ws, -, hp, -, -, e⟩⟩
  · exact absurd (hillegal.symm.trans h.legal) Bool.false_ne_true
  · exact .inl ⟨_, step_of_settled e⟩
  · exact .inl ⟨_, step_of_settled e⟩
  · exact .inr ⟨p, ts, hs, List.getElem?_eq_none_iff.1 hp, step_of_refused e⟩
  · obtain ⟨hlt, -⟩ := List.getElem?_eq_some_iff.1 hp
    have hinv := h.turnOf hlt ts
    rw [step_of_run e]
    exact .inl (hinv.tablesSound.exec_next hinv.activePort i)
  · exact .inl ⟨_, step_of_settled e⟩
  · obtain ⟨hlt, -⟩ := List.getElem?_eq_some_iff.1 hp
    have hsound : ((s.turnOf p ts).taking (decodeCommand w) ws).TablesSound := ⟨h.legal, h.built⟩
    rw [step_of_run e]
    exact .inl (hsound.exec_next (hlt.trans_eq (List.length_modify _ _ _).symm) _)

/-- Settles O57: a step that gives no next state is the refusal of a missing port. -/
theorem noStepFaults : Obligations.NoStepFaults := by
  intro s h
  rcases h.step_next_or_noSuchPort with ⟨t, ht⟩ | ⟨p, ts, hs, hp, hrefused⟩
  · refine ⟨fun f hf => ?_, fun _ => ⟨t, ht⟩⟩
    cases ht.symm.trans hf
  · refine ⟨fun f hf => ?_, fun hports => absurd (hports p ts hs) (Nat.not_lt.2 hp)⟩
    cases hrefused.symm.trans hf

end Sys2Proof.Machine
end

section
/-! R118 to R120: what a reset leaves of the engine and of its ports. -/

namespace Sys2Proof.Machine

/-- No entry of tables that do not exist has a value (R20). -/
@[simp] theorem read_get_empty (T : TableId) (i : Nat) : (Tables.empty.get T).read i = none := by
  cases T <;> rfl

/-- Constant tables are the same before and after a reset (R67, R119). -/
theorem State.Inv.resetEngine_tables_of_constant {s : State} (h : s.Inv) (hc : s.config.tableInit = .constant) :
    (Machine.resetEngine s).tables = s.tables := by
  rw [resetEngine_tables, h.built (h.constant hc), Config.resetTables, hc]

/-- Settles O52: every port is abandoned as it stood, and the tables go to the reset values of their `TABLE_INIT`. -/
theorem resetRestoresTheEngine : Obligations.ResetRestoresTheEngine := by
  intro s ts hl hs
  refine ⟨_, step_reset hl hs, rfl, rfl, fun p q hq => ⟨q.abandon, ?_, rfl, le_rfl⟩, fun hlazy => ?_, fun hconst => ?_,
    fun hinv hconst => hinv.resetEngine_tables_of_constant hconst⟩
  · exact (List.getElem?_map ..).trans (congrArg (Option.map Port.abandon) hq)
  · rcases resetTables_cases s.config with ⟨-, hv, ht⟩ | ⟨hconst, -, -⟩
    · refine ⟨hv, fun T i => ⟨memRead_of_invalid hv T i, ?_⟩⟩
      show ((Config.resetTables s.config).get T).read i = none
      rw [ht, read_get_empty]
    · cases hlazy.symm.trans hconst
  · rcases resetTables_cases s.config with ⟨hlazy, -, -⟩ | ⟨-, hv, ht⟩
    · cases hlazy.symm.trans hconst
    · exact ⟨hv, ht⟩

end Sys2Proof.Machine
end

section
/-! R123, R126: runs of turns of the ports there are. No such run stops; and what every turn of it keeps holds at its end. -/

namespace Sys2Proof.Machine

/-! ### Runs -/

theorem steps_succ {s t : State} (h : step s = .next t) (n : Nat) : steps (n + 1) s = steps n t := by
  simp only [steps, h]

/-- A run goes on from where a shorter one ended. -/
theorem steps_add {m : Nat} {s t : State} (h : steps m s = .next t) (n : Nat) : steps (m + n) s = steps n t := by
  induction m generalizing s with
  | zero =>
    cases h
    rw [Nat.zero_add]
  | succ m ih =>
    rw [Nat.succ_add]
    cases hstep : step s with
    | next u =>
      rw [steps_succ hstep] at h ⊢
      exact ih h
    | fault f => simp only [steps, hstep, reduceCtorEq] at h
    | refused r => simp only [steps, hstep, reduceCtorEq] at h

/-! ### One turn of a port -/

/-- A turn of a port there is gives a next state (R103, R116). -/
theorem State.Inv.step_of_turn {s : State} (h : s.Inv) {r : Nat} {ts : List Turn} (hs : s.schedule = .port r :: ts)
    (hr : r < s.ports.length) : ∃ t, step s = .next t := by
  refine (noStepFaults s h).2 fun p ts' hs' => ?_
  cases hs.symm.trans hs'
  exact hr

section
variable {s t : State} {r : Nat} {ts : List Turn} (hs : s.schedule = .port r :: ts) (ht : step s = .next t)
include hs

theorem not_reset_of_turn : s.schedule.head? ≠ some .reset := by simp [hs]

include ht

/-- Such a turn comes to a command, in progress already or just taken, or to nothing (R23, R55). -/
theorem turn_cases :
    t = s.turnOf r ts ∨
      ∃ i, exec i (s.turnOf r ts) = .next t ∨ ∃ ws, exec i ((s.turnOf r ts).taking i ws) = .next t := by
  obtain ⟨-, ⟨hnone, -⟩ | ⟨ts', hreset, -⟩ | ⟨r', ts', q, hs', -, hturn⟩⟩ := step_next ht
  · cases hs.symm.trans hnone
  · cases hs.symm.trans hreset
  · cases hs.symm.trans hs'
    rcases hturn with ⟨-, -, rfl⟩ | ⟨i, -, he⟩ | ⟨w, ws, -, -, he⟩
    · exact .inl rfl
    · exact .inr ⟨i, .inl he⟩
    · exact .inr ⟨decodeCommand w, .inr ⟨ws, he⟩⟩

/-- A turn of a port is used up, and changes no other port and no parameter (R55, R116). -/
theorem turn_frame :
    t.config = s.config ∧ t.schedule = ts ∧ t.ports.length = s.ports.length ∧ ∀ p, p ≠ r → t.ports[p]? = s.ports[p]? := by
  rcases turn_cases hs ht with rfl | ⟨i, he | ⟨ws, he⟩⟩
  · exact ⟨rfl, rfl, rfl, fun _ _ => rfl⟩
  · obtain ⟨hconfig, hschedule, -, hlength, hother, -⟩ := frameOfEveryCommand _ _ _ he
    exact ⟨hconfig, hschedule, hlength, hother⟩
  · obtain ⟨hconfig, hschedule, -, hlength, hother, -⟩ := frameOfEveryCommand _ _ _ he
    exact ⟨hconfig, hschedule, hlength.trans (List.length_modify _ _ _),
      fun p hp => (hother p hp).trans (List.getElem?_modify_ne _ _ hp.symm)⟩

end

/-- What every turn of a run keeps, stated of the turns still to come, holds at its end; and the run ends. -/
theorem State.Inv.run {P : List Turn → State → Prop}
    (hP : ∀ {r l ts s t}, s.Inv → s.schedule = .port r :: ts → step s = .next t → P (.port r :: l) s → P l t)
    {l ts : List Turn} {s : State} (h : s.Inv) (hs : s.schedule = l ++ ts)
    (hl : ∀ a ∈ l, ∃ r, r < s.ports.length ∧ a = .port r) (hstart : P l s) :
    ∃ t, steps l.length s = .next t ∧ t.Inv ∧ P [] t ∧
      t.config = s.config ∧ t.schedule = ts ∧ t.ports.length = s.ports.length := by
  induction l generalizing s with
  | nil => exact ⟨s, rfl, h, hstart, rfl, hs, rfl⟩
  | cons a l ih =>
    obtain ⟨r, hr, rfl⟩ := hl a List.mem_cons_self
    obtain ⟨u, hu⟩ := h.step_of_turn hs hr
    obtain ⟨hconfig, hschedule, hlength, -⟩ := turn_frame hs hu
    obtain ⟨t, hsteps, hinv, hend, hconfig', hschedule', hlength'⟩ :=
      ih (everyStepKeepsTheInvariant s u h hu) hschedule
        (fun b hb => by rw [hlength]; exact hl b (List.mem_cons_of_mem _ hb)) (hP h hs hu hstart)
    exact ⟨t, (steps_succ hu _).trans hsteps, hinv, hend, hconfig'.trans hconfig, hschedule', hlength'.trans hlength⟩

end Sys2Proof.Machine
end

section
/-! R66, R123: how far a builder is from publishing the tables. Its own turns bring it one step nearer, and no other turn changes that. -/

namespace Sys2Proof.Machine

/-- The tables exist, or port `c` is the builder, whose `k`-th turn from now publishes them (R61, R66). -/
def State.PublishesIn (s : State) (c : Nat) : Nat → Prop
  | 0 => s.tblValid = true
  | k + 1 => ∃ b, s.builder = some b ∧ b.port = c ∧ b.progress.writesLeft = k

/-- Existing tables have no builder (R26). -/
theorem State.Inv.builder_eq_none {s : State} (h : s.Inv) (hv : s.tblValid = true) : s.builder = none := by
  refine Option.eq_none_iff_forall_not_mem.2 fun b hb => ?_
  obtain ⟨hv', -⟩ := h.partway b hb
  exact absurd (hv'.symm.trans hv) Bool.false_ne_true

/-- A builder is somewhere in the 511 write steps and the publish step (R61). -/
theorem State.Inv.builder_progress {s : State} (h : s.Inv) {b : Builder} (hb : s.builder = some b) :
    b.progress.inRange = true ∧ b.progress.writesLeft ≤ 511 := by
  obtain ⟨-, n, -, hafter⟩ := h.partway b hb
  have hprogress : (buildAfter s.config.rc n).1 = b.progress := congrArg Prod.fst hafter
  obtain ⟨hin, -⟩ := buildAfter_wf s.config.rc n
  rw [← hprogress, writesLeft_buildAfter]
  exact ⟨hin, Nat.sub_le _ _⟩

/-- With a builder at work a table command is held, and no port changes (R66). -/
theorem exec_of_building {u : State} {b : Builder} {i : Instr} (hi : needsTables i = true) (hv : u.tblValid = false)
    (hb : u.builder = some b) : ∃ t, exec i u = .next t ∧ t.ports = u.ports := by
  by_cases hp : b.port = u.active
  · exact ⟨_, exec_held hi (ensureTables_of_builder hv hb hp), advanceBuild_ports b u⟩
  · exact ⟨_, exec_held hi (ensureTables_of_other_builder hv hb hp), rfl⟩

/-- A command of another port leaves the builder where it is (R66). -/
theorem exec_keeps_other_builder {i : Instr} {u t : State} {b : Builder} (h : exec i u = .next t) (hv : u.tblValid = false)
    (hb : u.builder = some b) (hp : b.port ≠ u.active) : t.builder = some b := by
  have hheld := ensureTables_of_other_builder hv hb hp
  rcases exec_next h with ⟨v, r, ⟨-, rfl⟩ | ⟨-, hready⟩, -, rfl⟩ | ⟨-, hheld'⟩
  · exact hb
  · cases hheld.symm.trans hready
  · cases hheld.symm.trans hheld'
    exact hb

section
variable {s t : State} {r : Nat} {ts : List Turn} (h : s.Inv) (hs : s.schedule = .port r :: ts) (ht : step s = .next t)
include h hs ht

/-- Every turn of a port keeps existing tables (R21). -/
theorem tblValid_of_turn (hv : s.tblValid = true) : t.tblValid = true :=
  ((tablesAreWriteOnceThenImmutable s t h ht (not_reset_of_turn hs)).2 hv).2

/-- The builder's own turn carries construction on (R66). -/
theorem eq_advanceBuild_of_turn {b : Builder} (hb : s.builder = some b) (hp : b.port = r) :
    t = advanceBuild b (s.turnOf r ts) := by
  obtain ⟨hv, -⟩ := h.partway b hb
  obtain ⟨q, i, hq, hi⟩ := h.builderPort b hb
  rw [hp] at hq
  have hneeds : needsTables i = true := h.heldNeedsTables q (List.mem_of_getElem? hq) i hi
  have hstep := (step_goes_on h.legal hs hq hi).trans (exec_held hneeds (ensureTables_of_builder hv hb hp))
  cases ht.symm.trans hstep
  rfl

/-- A turn of any other port leaves the builder where it is (R66). -/
theorem builder_of_other_turn {b : Builder} (hb : s.builder = some b) (hp : b.port ≠ r) : t.builder = some b := by
  obtain ⟨hv, -⟩ := h.partway b hb
  rcases turn_cases hs ht with rfl | ⟨i, he | ⟨ws, he⟩⟩
  · exact hb
  · exact exec_keeps_other_builder he hv hb hp
  · exact exec_keeps_other_builder he hv hb hp

theorem State.PublishesIn.other_turn {c k : Nat} (hc : r ≠ c) (hk : s.PublishesIn c k) : t.PublishesIn c k := by
  cases k with
  | zero => exact tblValid_of_turn h hs ht hk
  | succ k =>
    obtain ⟨b, hb, rfl, hleft⟩ := hk
    exact ⟨b, builder_of_other_turn h hs ht hb hc.symm, rfl, hleft⟩

/-- A turn of the builder is one of the turns left to it: the last one publishes. -/
theorem State.PublishesIn.own_turn {k : Nat} (hk : s.PublishesIn r k) : t.PublishesIn r (k - 1) := by
  cases k with
  | zero => exact tblValid_of_turn h hs ht hk
  | succ k =>
    obtain ⟨b, hb, hp, hleft⟩ := hk
    obtain rfl := eq_advanceBuild_of_turn h hs ht hb hp
    obtain ⟨hin, -⟩ := h.builder_progress hb
    obtain ⟨port, progress⟩ := b
    cases k with
    | zero =>
      obtain rfl : progress = .publish := eq_publish_of_writesLeft hin hleft
      exact rfl
    | succ k =>
      have hwrite : progress ≠ .publish := by
        rintro rfl
        cases hleft
      rw [advanceBuild_write _ hwrite]
      refine ⟨_, rfl, hp, ?_⟩
      rw [writesLeft_buildStep _ _ hin, hleft, Nat.add_sub_cancel]

/-- So turns of the builder, and only these, count towards the publish step. -/
theorem State.PublishesIn.turn {c k : Nat} {l : List Turn} (hk : s.PublishesIn c k)
    (hle : k ≤ (Turn.port r :: l).count (.port c)) : ∃ k', k' ≤ l.count (.port c) ∧ t.PublishesIn c k' := by
  by_cases hc : r = c
  · subst hc
    rw [List.count_cons_self] at hle
    exact ⟨k - 1, Nat.sub_le_of_le_add hle, hk.own_turn h hs ht⟩
  · rw [List.count_cons_of_ne (by simpa using hc)] at hle
    exact ⟨k, hle, hk.other_turn h hs ht hc⟩

end

end Sys2Proof.Machine
end

section
/-! R123, R126, R130: a table command in progress waits until the tables exist, and its port's next turn answers it. -/

namespace Sys2Proof.Machine

/-! ### A command in progress -/

/-- A table command is answered in an available state with what field arithmetic gives, and then the tables exist (R39, R66). -/
theorem State.Available.exec_reply {u : State} (h : u.Available) {i : Instr} (hi : needsTables i = true) {q : Port}
    (hq : u.ports[u.active]? = some q) :
    ∃ t, exec i u = .next t ∧ t.tblValid = true ∧ t.ports[u.active]? = some (q.answer (reference u.config.rc i)) := by
  refine ⟨_, tableMachineComputesFieldArithmetic i u h, ?_, ?_⟩
  · rw [State.ensuredFor, if_pos hi, answered_tblValid, withTables_tblValid]
  · obtain ⟨v, hv⟩ := h.readyFor i
    rw [← hv.eq_ensuredFor h]
    exact hv.answered_port hq _

section
variable {s t : State} {r : Nat} {ts : List Turn} (h : s.Inv) (hs : s.schedule = .port r :: ts) (ht : step s = .next t)
  {q : Port} {i : Instr} (hq : s.ports[r]? = some q) (hi : q.inProgress = some i)
include h hs ht hq hi

/-- While a port builds, a port with a command in progress stays as it is (R66). -/
theorem ports_of_turn_of_building {b : Builder} (hb : s.builder = some b) : t.ports = s.ports := by
  obtain ⟨hv, -⟩ := h.partway b hb
  have hneeds : needsTables i = true := h.heldNeedsTables q (List.mem_of_getElem? hq) i hi
  obtain ⟨t', he, hports⟩ := exec_of_building (u := s.turnOf r ts) hneeds hv hb
  cases ht.symm.trans ((step_goes_on h.legal hs hq hi).trans he)
  exact hports

/-- Once the tables exist its turn answers it (R126, R130). -/
theorem answered_of_turn_of_valid (hv : s.tblValid = true) : t.ports[r]? = some (q.answer (reference s.config.rc i)) := by
  obtain ⟨hr, -⟩ := List.getElem?_eq_some_iff.1 hq
  have hneeds : needsTables i = true := h.heldNeedsTables q (List.mem_of_getElem? hq) i hi
  obtain ⟨t', he, -, hanswer⟩ := ((h.turnOf hr ts).available hv).exec_reply hneeds hq
  cases ht.symm.trans ((step_goes_on h.legal hs hq hi).trans he)
  exact hanswer

end

/-! ### The builder is answered one turn after its publish step -/

/-- The `k`-th turn of port `p` from now answers the command `i`, for which it builds the tables, `ws` being the words and `rs` the responses of
the port: at 0 the command has been answered, and at 1 the tables exist. -/
def State.BuilderAnsweredIn (s : State) (p : Nat) (i : Instr) (ws : List CommandWord) (rs : List Response) : Nat → Prop
  | 0 => s.tblValid = true ∧ s.ports[p]? = some ⟨ws, none, rs ++ [reference s.config.rc i]⟩
  | k + 1 => s.PublishesIn p k ∧ s.ports[p]? = some ⟨ws, some i, rs⟩

section
variable {s t : State} {r : Nat} {ts : List Turn} (h : s.Inv) (hs : s.schedule = .port r :: ts) (ht : step s = .next t)
  {p : Nat} {i : Instr} {ws : List CommandWord} {rs : List Response}
include h hs ht

theorem State.BuilderAnsweredIn.other_turn {k : Nat} (hp : r ≠ p) (hk : s.BuilderAnsweredIn p i ws rs k) :
    t.BuilderAnsweredIn p i ws rs k := by
  obtain ⟨hconfig, -, -, hother⟩ := turn_frame hs ht
  cases k with
  | zero =>
    obtain ⟨hv, hq⟩ := hk
    exact ⟨tblValid_of_turn h hs ht hv, by rw [hother p hp.symm, hq, hconfig]⟩
  | succ k =>
    obtain ⟨hpublish, hq⟩ := hk
    exact ⟨hpublish.other_turn h hs ht hp, by rw [hother p hp.symm, hq]⟩

theorem State.BuilderAnsweredIn.own_turn {k : Nat} (hk : s.BuilderAnsweredIn r i ws rs (k + 1)) :
    t.BuilderAnsweredIn r i ws rs k := by
  obtain ⟨hpublish, hq⟩ := hk
  cases k with
  | zero =>
    obtain ⟨hconfig, -⟩ := turn_frame hs ht
    refine ⟨tblValid_of_turn h hs ht hpublish, ?_⟩
    rw [hconfig]
    exact answered_of_turn_of_valid h hs ht hq rfl hpublish
  | succ k =>
    refine ⟨hpublish.own_turn h hs ht, ?_⟩
    obtain ⟨b, hb, -⟩ := hpublish
    rw [ports_of_turn_of_building h hs ht hq rfl hb, hq]

/-- So the turns of the builder's port still to come measure how near the answer is. -/
theorem State.BuilderAnsweredIn.turn {l : List Turn} (hk : s.BuilderAnsweredIn p i ws rs ((Turn.port r :: l).count (.port p))) :
    t.BuilderAnsweredIn p i ws rs (l.count (.port p)) := by
  by_cases hp : r = p
  · subst hp
    rw [List.count_cons_self] at hk
    exact hk.own_turn h hs ht
  · rw [List.count_cons_of_ne (by simpa using hp)] at hk
    exact hk.other_turn h hs ht hp

end

/-! ### Any waiting command -/

/-- Port `p`, whose earlier responses are `rs`, has answered the command `i` as field arithmetic does. -/
def State.HasAnswered (s : State) (p : Nat) (i : Instr) (rs : List Response) : Prop :=
  ∃ q more, s.ports[p]? = some q ∧ q.responses = rs ++ reference s.config.rc i :: more

/-- Port `p` has the command `i` in progress, or has answered it. -/
def State.HoldsOrHasAnswered (s : State) (p : Nat) (i : Instr) (rs : List Response) : Prop :=
  (∃ ws, s.ports[p]? = some ⟨ws, some i, rs⟩) ∨ s.HasAnswered p i rs

/-- Responses once produced stay (R48). -/
theorem State.HasAnswered.turn {s t : State} {r : Nat} {ts : List Turn} (hs : s.schedule = .port r :: ts)
    (ht : step s = .next t) {p : Nat} {i : Instr} {rs : List Response} (ha : s.HasAnswered p i rs) : t.HasAnswered p i rs := by
  obtain ⟨hconfig, -⟩ := turn_frame hs ht
  obtain ⟨q, more, hq, hresponses⟩ := ha
  obtain ⟨q', hq', -, hkept | ⟨x, hkept⟩, -⟩ := everyCommandGetsExactlyOneResponse s t ht (not_reset_of_turn hs) p q hq
  · exact ⟨q', more, hq', by rw [hkept, hresponses, hconfig]⟩
  · exact ⟨q', more ++ [x], hq', by rw [hkept, hresponses, hconfig, List.append_assoc, List.cons_append]⟩

section
variable {s t : State} {r : Nat} {ts : List Turn} (h : s.Inv) (hs : s.schedule = .port r :: ts) (ht : step s = .next t)
  {p : Nat} {i : Instr} {rs : List Response}
include h hs ht

/-- With the tables there, the port's own turn answers the command if no earlier one did (R126, R130). -/
theorem State.HoldsOrHasAnswered.own_turn (hv : s.tblValid = true) (hw : s.HoldsOrHasAnswered r i rs) : t.HasAnswered r i rs := by
  obtain ⟨hconfig, -⟩ := turn_frame hs ht
  rcases hw with ⟨ws, hq⟩ | ha
  · exact ⟨_, [], answered_of_turn_of_valid h hs ht hq rfl hv, by rw [hconfig]; rfl⟩
  · exact ha.turn hs ht

/-- Until then every turn leaves it waiting, or answers it (R66). -/
theorem State.HoldsOrHasAnswered.turn {c k : Nat} (hk : s.PublishesIn c k) (hw : s.HoldsOrHasAnswered p i rs) :
    t.HoldsOrHasAnswered p i rs := by
  obtain ⟨-, -, -, hother⟩ := turn_frame hs ht
  rcases hw with ⟨ws, hq⟩ | ha
  · by_cases hp : p = r
    · subst hp
      cases k with
      | zero => exact .inr (State.HoldsOrHasAnswered.own_turn h hs ht hk (.inl ⟨ws, hq⟩))
      | succ k =>
        obtain ⟨b, hb, -⟩ := hk
        exact .inl ⟨ws, by rw [ports_of_turn_of_building h hs ht hq rfl hb, hq]⟩
    · exact .inl ⟨ws, (hother p hp).trans hq⟩
  · exact .inr (ha.turn hs ht)

end

/-! ### The turn that takes the command -/

/-- An idle port is not the builder (R66). -/
theorem State.Inv.ne_builder_of_idle {s : State} (h : s.Inv) {p : Nat} {q : Port} (hp : s.ports[p]? = some q)
    (hidle : q.inProgress = none) {b : Builder} (hb : s.builder = some b) : b.port ≠ p := by
  rintro rfl
  obtain ⟨q', i, hq', hi⟩ := h.builderPort b hb
  cases hp.symm.trans hq'
  cases hidle.symm.trans hi

/-- A table command of a port that does not build is answered, wins the guard, or waits for the builder there is (R66). -/
theorem State.Inv.exec_table_command {u : State} (h : u.Inv) {i : Instr} (hi : needsTables i = true) {ws : List CommandWord}
    {rs : List Response} (hq : u.ports[u.active]? = some ⟨ws, some i, rs⟩)
    (hb : ∀ b, u.builder = some b → b.port ≠ u.active) :
    ∃ t c k, exec i u = .next t ∧ c < u.ports.length ∧ k ≤ 512 ∧ t.PublishesIn c k ∧
      t.HoldsOrHasAnswered u.active i rs := by
  have answered (hu : u.Available) : ∃ t c k, exec i u = .next t ∧ c < u.ports.length ∧ k ≤ 512 ∧ t.PublishesIn c k ∧
      t.HoldsOrHasAnswered u.active i rs := by
    obtain ⟨t, he, hv, hanswer⟩ := hu.exec_reply hi hq
    obtain ⟨hconfig, -⟩ := frameOfEveryCommand i u t he
    exact ⟨t, u.active, 0, he, h.activePort, Nat.zero_le _, hv, .inr ⟨_, [], hanswer, by rw [hconfig]; rfl⟩⟩
  rcases ensureTables_cases u with ⟨hv, -⟩ | ⟨-, hnone, hgrain, -⟩ | ⟨-, -, -, e⟩ | ⟨b, -, hsome, hown, -⟩ | ⟨b, -, hsome, -, e⟩
  · exact answered (h.available hv)
  · exact answered ⟨h.legal, h.activePort, h.built, .inr ⟨hnone, hgrain⟩⟩
  · exact ⟨_, u.active, 512, exec_held hi e, h.activePort, le_rfl, ⟨_, rfl, rfl, rfl⟩, .inl ⟨ws, hq⟩⟩
  · exact absurd hown (hb b hsome)
  · obtain ⟨q, -, hbuilder, -⟩ := h.builderPort b hsome
    obtain ⟨hlt, -⟩ := List.getElem?_eq_some_iff.1 hbuilder
    obtain ⟨-, hleft⟩ := h.builder_progress hsome
    exact ⟨u, b.port, b.progress.writesLeft + 1, exec_held hi e, hlt, Nat.succ_le_succ hleft, ⟨b, hsome, rfl, rfl⟩,
      .inl ⟨ws, hq⟩⟩

section
variable {s : State} {p : Nat} {ts : List Turn} {q : Port} {w : CommandWord} {ws : List CommandWord} (h : s.Inv)
  (hs : s.schedule = .port p :: ts) (hp : s.ports[p]? = some q) (hidle : q.inProgress = none) (hqueue : q.queue = w :: ws)
  (hneeds : needsTables (decodeCommand w) = true)
include h hs hp hidle hqueue hneeds

/-- Without tables and builder, under the stepwise grain, the command taken wins the guard: its port has 512 turns to the publish step, and the next
answers it (R66). -/
theorem step_claims (hgrain : s.config.grain = .stepwise) (hv : s.tblValid = false) (hb : s.builder = none) :
    ∃ t, step s = .next t ∧ t.BuilderAnsweredIn p (decodeCommand w) ws q.responses 513 :=
  ⟨_, (step_takes h.legal hs hp hidle hqueue).trans (exec_held hneeds (ensureTables_of_stepwise hv hb hgrain)),
    ⟨_, rfl, rfl, rfl⟩, taking_active_port _ ws hp⟩

/-- In any invariant state some port is within 512 turns of the publish step afterwards. -/
theorem step_takes_table_command :
    ∃ t c k, step s = .next t ∧ c < s.ports.length ∧ k ≤ 512 ∧ t.PublishesIn c k ∧
      t.HoldsOrHasAnswered p (decodeCommand w) q.responses := by
  obtain ⟨hlt, -⟩ := List.getElem?_eq_some_iff.1 hp
  obtain ⟨t, c, k, he, hc, hrest⟩ := ((h.turnOf hlt ts).taking hneeds ws).exec_table_command hneeds
    (taking_active_port _ ws hp) fun b hb => h.ne_builder_of_idle hp hidle hb
  exact ⟨t, c, k, (step_takes h.legal hs hp hidle hqueue).trans he, hc.trans_eq (List.length_modify _ _ _), hrest⟩

end

/-! ### Construction ends -/

/-- Where the tables exist in an invariant state, construction is over (R19, R26). -/
theorem State.Inv.constructed {s : State} (h : s.Inv) (hv : s.tblValid = true) :
    s.tblValid = true ∧ s.building = false ∧ s.tables = buildTables s.config.rc :=
  ⟨hv, by rw [State.building, h.builder_eq_none hv]; rfl, h.built hv⟩

/-- Settles O59: what turns of the builder's port are still to come measures how near construction is to its end, and the command that waits stays
in progress until then. -/
theorem constructionEndsAndTheCommandIsAnswered : Obligations.ConstructionEndsAndTheCommandIsAnswered := by
  refine ⟨fun s p q w ws l ts h hgrain hv hb hp hidle hqueue hneeds hs hl hcount => ?_,
    fun s p q w ws l ts h hp hidle hqueue hneeds hs hl hcount => ?_⟩
  · obtain ⟨u, hu, hstart⟩ := step_claims h hs hp hidle hqueue hneeds hgrain hv hb
    obtain ⟨hconfig, hschedule, hlength, -⟩ := turn_frame hs hu
    obtain ⟨t, hsteps, hinv, ⟨hvalid, hanswer⟩, hconfig', hschedule', -⟩ :=
      (everyStepKeepsTheInvariant s u h hu).run
        (P := fun l t => t.BuilderAnsweredIn p (decodeCommand w) ws q.responses (l.count (.port p)))
        (fun h hs ht hk => hk.turn h hs ht) hschedule (hlength ▸ hl) (hcount ▸ hstart)
    obtain ⟨-, hbuilding, htables⟩ := hinv.constructed hvalid
    rw [hconfig', hconfig] at htables hanswer
    exact ⟨t, (steps_succ hu _).trans hsteps, hvalid, hbuilding, htables, hschedule', hanswer⟩
  · obtain ⟨u, c, k, hu, hc, hk, hpublish, hwaits⟩ := step_takes_table_command h hs hp hidle hqueue hneeds
    obtain ⟨hconfig, hschedule, hlength, -⟩ := turn_frame hs hu
    obtain ⟨v, hsteps, hinv, ⟨⟨k', hk', hpublish'⟩, hwaits'⟩, hconfig', hschedule', hlength'⟩ :=
      (everyStepKeepsTheInvariant s u h hu).run
        (P := fun l t => (∃ k, k ≤ l.count (.port c) ∧ t.PublishesIn c k) ∧ t.HoldsOrHasAnswered p (decodeCommand w) q.responses)
        (fun h hs ht ⟨⟨_, hk, hpublish⟩, hwaits⟩ => ⟨hpublish.turn h hs ht hk, hwaits.turn h hs ht hpublish⟩)
        hschedule (hlength ▸ hl) ⟨⟨k, hk.trans (hcount c hc), hpublish⟩, hwaits⟩
    obtain rfl : k' = 0 := Nat.le_zero.1 hk'
    obtain ⟨hlt, -⟩ := List.getElem?_eq_some_iff.1 hp
    obtain ⟨t, ht⟩ := hinv.step_of_turn hschedule' (by rwa [hlength', hlength])
    obtain ⟨hconfig'', hschedule'', -⟩ := turn_frame hschedule' ht
    obtain ⟨hvalid, hbuilding, htables⟩ :=
      (everyStepKeepsTheInvariant v t hinv ht).constructed (tblValid_of_turn hinv hschedule' ht hpublish')
    have hanswer : t.HasAnswered p (decodeCommand w) q.responses := hwaits'.own_turn hinv hschedule' ht hpublish'
    have hrun : steps (l.length + 2) s = .next t := by
      rw [steps_succ hu, steps_add hsteps, steps_succ ht, steps]
    rw [State.HasAnswered, hconfig'', hconfig', hconfig] at hanswer
    rw [hconfig'', hconfig', hconfig] at htables
    exact ⟨t, hrun, hvalid, hbuilding, htables, hschedule'', hanswer⟩

end Sys2Proof.Machine
end
